-- ==== Sys2Proof/Word.lean ====
section
/-! DEFINITION. The word types of the block: register words, bytes, nibbles, function codes (00_scope.md R12, R13). -/

namespace Sys2Proof

/-- A 32-bit register word, physical address, reading or nanosecond count (00_scope.md R12, 30_encoding.md R127). -/
abbrev Word := BitVec 32

/-- A byte of an operation word or of a text (30_encoding.md R110, R120). -/
abbrev Byte := BitVec 8

/-- One 4-bit half of a byte on the LCD bus (30_encoding.md R107). -/
abbrev Nibble := BitVec 4

/-- A 3-bit function-select code (00_scope.md R8). -/
abbrev FuncCode := BitVec 3

end Sys2Proof
end

