-- ==== Sys2Proof/Syntax.lean ====
section
/-! DEFINITION. The 27 operations of spec/opcode_table.json, one constructor a row (30_encoding.md R128). -/

namespace Sys2Proof

/-- The operations with their operands at their encoded widths (30_encoding.md R121 to R127). -/
inductive Instr where
  /-- ATTACH (45_control_surface.md R261). -/
  | attach
  /-- SETT `v`: a signed 32-bit value (R262). -/
  | sett (v : Word)
  /-- SETH `v` (R264). -/
  | seth (v : Word)
  /-- DETACH (R268). -/
  | detach
  /-- CANCEL (R269). -/
  | cancel
  /-- SETTX `text` (R263). -/
  | settx (text : List Byte)
  /-- SETHX `text` (R265). -/
  | sethx (text : List Byte)
  /-- UNMAPALL (R270). -/
  | unmapall
  /-- MAP `addr` (40_register_access.md R141). -/
  | map (addr : Word)
  /-- UNMAP `addr` (R142). -/
  | unmap (addr : Word)
  /-- RDW `addr` (R143). -/
  | rdw (addr : Word)
  /-- WRW `addr`, `value` (R144). -/
  | wrw (addr value : Word)
  /-- RMW `addr`, `clr`, `set` (R145). -/
  | rmw (addr clr set : Word)
  /-- CFGOUT `pin` (41_gpio_pin.md R162). -/
  | cfgout (pin : Byte)
  /-- SETP `w`, `mask` (R163). -/
  | setp (w : Byte) (mask : Word)
  /-- CLRP `w`, `mask` (R164). -/
  | clrp (w : Byte) (mask : Word)
  /-- BTICK (42_blink.md R183). -/
  | btick
  /-- AEVAL (43_alarm.md R201). -/
  | aeval
  /-- APULSE (R202 to R204). -/
  | apulse
  /-- LNIB `m`, `n`: mode bit and nibble (44_lcd.md R221). -/
  | lnib (m : Bool) (n : Nibble)
  /-- LINS `b` (R222). -/
  | lins (b : Byte)
  /-- LCHR `b` (R223). -/
  | lchr (b : Byte)
  /-- LSTR `text` (R224). -/
  | lstr (text : List Byte)
  /-- LINIT (R226). -/
  | linit
  /-- LSCHED (R227). -/
  | lsched
  /-- LREDRAW (R228, R229). -/
  | lredraw
  /-- WAIT `ns` (R237). -/
  | wait (ns : Word)
  deriving DecidableEq, Repr

/-- Who may present an operation: the host at the command port, or only the block's own sequences
(30_encoding.md R128, column "Port"). -/
inductive Port where
  | host
  | internal
  deriving DecidableEq, Repr

end Sys2Proof
end

