-- ==== Sys2Proof/WellFormed.lean ====
section
/-! DEFINITION. Which instruction terms have an operation word: the operand types fix every width but the length of a
text, which the `len` byte of format T bounds by 255 (30_encoding.md R125). -/

namespace Sys2Proof

/-- A text operand fits the one length byte of format T (30_encoding.md R125). -/
def textFits (text : List Byte) : Bool := text.length ≤ 255

/-- The term has an operation word (30_encoding.md R120 to R127). -/
def Instr.wellFormed : Instr → Bool
  | .attach => true
  | .sett _ => true
  | .seth _ => true
  | .detach => true
  | .cancel => true
  | .settx text => textFits text
  | .sethx text => textFits text
  | .unmapall => true
  | .map _ => true
  | .unmap _ => true
  | .rdw _ => true
  | .wrw _ _ => true
  | .rmw _ _ _ => true
  | .cfgout _ => true
  | .setp _ _ => true
  | .clrp _ _ => true
  | .btick => true
  | .aeval => true
  | .apulse => true
  | .lnib _ _ => true
  | .lins _ => true
  | .lchr _ => true
  | .lstr text => textFits text
  | .linit => true
  | .lsched => true
  | .lredraw => true
  | .wait _ => true

end Sys2Proof
end

