-- ==== Sys2Proof/Decode.lean ====
section
/-! DEFINITION. Operation words to instructions and back (30_encoding.md section 4). The decoder reads the opcode table
`opcodeRows`, one row an operation; the encoder is written apart from it, from R121 to R125 and the opcodes of R128. -/

namespace Sys2Proof

/-- Why bytes are no operation word (30_encoding.md R126, R129, R130). -/
inductive DecodeError where
  /-- There is no byte at all. -/
  | noOpcode
  /-- The opcode byte is not in R128 (R129). -/
  | illegalOpcode (op : Byte)
  /-- Fewer bytes than the format takes (R126). -/
  | tooShort (op : Byte)
  /-- Bits 7:5 of a format N operand are not 000 (R130). -/
  | reservedBits (op : Byte)
  /-- Bytes left over after a word that was presented as one (92_eei_decisions.md D38). -/
  | tooLong (op : Byte)
  deriving DecidableEq, Repr

/-- The nine formats, each with the operation it builds from its operands (30_encoding.md R121 to R125). -/
inductive Format where
  | z (i : Instr)
  | w (build : Word → Instr)
  | ww (build : Word → Word → Instr)
  | www (build : Word → Word → Word → Instr)
  | p (build : Byte → Instr)
  | m (build : Byte → Word → Instr)
  | n (build : Bool → Nibble → Instr)
  | b (build : Byte → Instr)
  | t (build : List Byte → Instr)

/-- The opcode map (30_encoding.md R128): the control surface. -/
def controlRows : List (Byte × Format) :=
  [ (0x01, .z .attach), (0x02, .w .sett), (0x03, .w .seth), (0x04, .z .detach), (0x05, .z .cancel),
    (0x06, .t .settx), (0x07, .t .sethx), (0x08, .z .unmapall) ]

/-- The opcode map (R128): registers and pins. -/
def registerRows : List (Byte × Format) :=
  [ (0x10, .w .map), (0x11, .w .unmap), (0x12, .w .rdw), (0x13, .ww .wrw), (0x14, .www .rmw),
    (0x20, .p .cfgout), (0x21, .m .setp), (0x22, .m .clrp) ]

/-- The opcode map (R128): blink, alarm and display. -/
def actuatorRows : List (Byte × Format) :=
  [ (0x30, .z .btick), (0x38, .z .aeval), (0x39, .z .apulse),
    (0x40, .n .lnib), (0x41, .b .lins), (0x42, .b .lchr), (0x43, .t .lstr), (0x44, .z .linit),
    (0x45, .z .lsched), (0x46, .z .lredraw), (0x50, .w .wait) ]

/-- The opcode map (R128). -/
def opcodeRows : List (Byte × Format) := controlRows ++ (registerRows ++ actuatorRows)

/-- The port class of every operation (30_encoding.md R128, column "Port"). -/
def Instr.port : Instr → Port
  | .attach => .host
  | .sett _ => .host
  | .seth _ => .host
  | .detach => .host
  | .cancel => .internal
  | .settx _ => .host
  | .sethx _ => .host
  | .unmapall => .internal
  | .map _ => .internal
  | .unmap _ => .internal
  | .rdw _ => .internal
  | .wrw _ _ => .internal
  | .rmw _ _ _ => .internal
  | .cfgout _ => .internal
  | .setp _ _ => .internal
  | .clrp _ _ => .internal
  | .btick => .internal
  | .aeval => .internal
  | .apulse => .internal
  | .lnib _ _ => .internal
  | .lins _ => .internal
  | .lchr _ => .internal
  | .lstr _ => .internal
  | .linit => .internal
  | .lsched => .internal
  | .lredraw => .internal
  | .wait _ => .internal

/-- A 32-bit field, its most significant byte first (30_encoding.md R120). -/
def takeWord : List Byte → Option (Word × List Byte)
  | b3 :: b2 :: b1 :: b0 :: rest => some (b3 ++ b2 ++ b1 ++ b0, rest)
  | _ => none

/-- An 8-bit field. -/
def takeByte : List Byte → Option (Byte × List Byte)
  | b :: rest => some (b, rest)
  | [] => none

/-- The first `len` bytes, if there are so many (30_encoding.md R125, format T). -/
def takeText : Nat → List Byte → Option (List Byte × List Byte)
  | 0, bytes => some ([], bytes)
  | _ + 1, [] => none
  | len + 1, b :: bytes =>
    match takeText len bytes with
    | some (text, rest) => some (b :: text, rest)
    | none => none

/-- The operand bytes of format N: bits 7:5 must be 0 (30_encoding.md R125, R130). -/
def readNibbleOperand (build : Bool → Nibble → Instr) (op b : Byte) (rest : List Byte) :
    Except DecodeError (Instr × List Byte) :=
  if b.extractLsb' 5 3 = 0 then .ok (build (b.getLsbD 4) (b.extractLsb' 0 4), rest) else .error (.reservedBits op)

/-- Read the operands of one format from the bytes after the opcode (30_encoding.md R121 to R127). -/
def decodeOperands (op : Byte) (bytes : List Byte) : Format → Except DecodeError (Instr × List Byte)
  | .z i => .ok (i, bytes)
  | .w build =>
    match takeWord bytes with
    | some (a, rest) => .ok (build a, rest)
    | none => .error (.tooShort op)
  | .ww build =>
    match takeWord bytes with
    | some (a, bytes1) =>
      match takeWord bytes1 with
      | some (b, rest) => .ok (build a b, rest)
      | none => .error (.tooShort op)
    | none => .error (.tooShort op)
  | .www build =>
    match takeWord bytes with
    | some (a, bytes1) =>
      match takeWord bytes1 with
      | some (b, bytes2) =>
        match takeWord bytes2 with
        | some (c, rest) => .ok (build a b c, rest)
        | none => .error (.tooShort op)
      | none => .error (.tooShort op)
    | none => .error (.tooShort op)
  | .p build =>
    match takeByte bytes with
    | some (pin, rest) => .ok (build pin, rest)
    | none => .error (.tooShort op)
  | .m build =>
    match takeByte bytes with
    | some (w, bytes1) =>
      match takeWord bytes1 with
      | some (mask, rest) => .ok (build w mask, rest)
      | none => .error (.tooShort op)
    | none => .error (.tooShort op)
  | .n build =>
    match takeByte bytes with
    | some (b, rest) => readNibbleOperand build op b rest
    | none => .error (.tooShort op)
  | .b build =>
    match takeByte bytes with
    | some (b, rest) => .ok (build b, rest)
    | none => .error (.tooShort op)
  | .t build =>
    match takeByte bytes with
    | some (len, bytes1) =>
      match takeText len.toNat bytes1 with
      | some (text, rest) => .ok (build text, rest)
      | none => .error (.tooShort op)
    | none => .error (.tooShort op)

/-- Decode the operation word at the head of some bytes and give the bytes after it (30_encoding.md R126). -/
def decode : List Byte → Except DecodeError (Instr × List Byte)
  | [] => .error .noOpcode
  | op :: bytes =>
    match opcodeRows.lookup op with
    | some f => decodeOperands op bytes f
    | none => .error (.illegalOpcode op)

/-- Decode bytes that must be one whole operation word, no byte more (30_encoding.md R126, 92_eei_decisions.md D38). -/
def decodeWhole (op : Byte) (operands : List Byte) : Except DecodeError Instr :=
  match decode (op :: operands) with
  | .ok (i, []) => .ok i
  | .ok (_, _ :: _) => .error (.tooLong op)
  | .error e => .error e

/-- The opcode byte of every operation (30_encoding.md R128). -/
def Instr.opcode : Instr → Byte
  | .attach => 0x01
  | .sett _ => 0x02
  | .seth _ => 0x03
  | .detach => 0x04
  | .cancel => 0x05
  | .settx _ => 0x06
  | .sethx _ => 0x07
  | .unmapall => 0x08
  | .map _ => 0x10
  | .unmap _ => 0x11
  | .rdw _ => 0x12
  | .wrw _ _ => 0x13
  | .rmw _ _ _ => 0x14
  | .cfgout _ => 0x20
  | .setp _ _ => 0x21
  | .clrp _ _ => 0x22
  | .btick => 0x30
  | .aeval => 0x38
  | .apulse => 0x39
  | .lnib _ _ => 0x40
  | .lins _ => 0x41
  | .lchr _ => 0x42
  | .lstr _ => 0x43
  | .linit => 0x44
  | .lsched => 0x45
  | .lredraw => 0x46
  | .wait _ => 0x50

/-- The four bytes of a 32-bit field, most significant first (30_encoding.md R120). -/
def wordBytes (w : Word) : List Byte :=
  [w.extractLsb' 24 8, w.extractLsb' 16 8, w.extractLsb' 8 8, w.extractLsb' 0 8]

/-- The operand byte of format N: 000, the mode bit, the nibble (30_encoding.md R125). -/
def nibbleByte (m : Bool) (n : Nibble) : Byte :=
  (0 : BitVec 3) ++ BitVec.ofBool m ++ n

/-- The length byte and the bytes of a text (30_encoding.md R125, format T). -/
def textBytes (text : List Byte) : List Byte :=
  BitVec.ofNat 8 text.length :: text

/-- The bytes after the opcode (30_encoding.md R121 to R125). -/
def Instr.operandBytes : Instr → List Byte
  | .attach => []
  | .sett v => wordBytes v
  | .seth v => wordBytes v
  | .detach => []
  | .cancel => []
  | .settx text => textBytes text
  | .sethx text => textBytes text
  | .unmapall => []
  | .map a => wordBytes a
  | .unmap a => wordBytes a
  | .rdw a => wordBytes a
  | .wrw a v => wordBytes a ++ wordBytes v
  | .rmw a clr set => wordBytes a ++ (wordBytes clr ++ wordBytes set)
  | .cfgout pin => [pin]
  | .setp w mask => w :: wordBytes mask
  | .clrp w mask => w :: wordBytes mask
  | .btick => []
  | .aeval => []
  | .apulse => []
  | .lnib m n => [nibbleByte m n]
  | .lins b => [b]
  | .lchr b => [b]
  | .lstr text => textBytes text
  | .linit => []
  | .lsched => []
  | .lredraw => []
  | .wait ns => wordBytes ns

/-- The operation word of an instruction, opcode first (30_encoding.md R120). -/
def encode (i : Instr) : List Byte := i.opcode :: i.operandBytes

/-- The `k` bytes of a number of `8 * k` bits, most significant first: spec/opcode_table.json reads an operation word
as one number whose top byte is the opcode (log 25). -/
def bytesOfNat (k w : Nat) : List Byte :=
  (List.range k).map fun j => BitVec.ofNat 8 (w >>> (8 * (k - 1 - j)))

/-- The bytes the host lays out for a table row: the row's own, then zeros as far as the longest operation word. -/
def tableBytes (nbits w : Nat) : List Byte := bytesOfNat (nbits / 8) w ++ List.replicate 257 0

/-- The instruction the decoder reads from a row of spec/opcode_table.json (its numbering of bits: log 25). -/
def decodeTableWord (nbits w : Nat) : Option Instr :=
  match decode (tableBytes nbits w) with
  | .ok (i, _) => some i
  | .error _ => none

end Sys2Proof
end

