-- ==== Sys2Proof/Config.lean ====
section
/-! DEFINITION. The OPEN parameters of one block (00_scope.md R6 to R12), what a legal choice of them is, the
illustrative choice of 95_test_vectors.md section 0, the turns of the schedule, and the free values. -/

namespace Sys2Proof

/-- The OPEN parameters: constants of one block, changed by no step (00_scope.md R6 to R12). -/
structure Config where
  /-- `N_PINS` (R6). -/
  nPins : Nat
  /-- `PIN_GREEN`, `PIN_YELLOW`, `PIN_RED`: the light (R6). -/
  pinGreen : Nat
  pinYellow : Nat
  pinRed : Nat
  /-- `PIN_ALARM` (R6). -/
  pinAlarm : Nat
  /-- `PIN_RS`, `PIN_RW`, `PIN_E`, `PIN_D4` to `PIN_D7`: the display (R6). -/
  pinRs : Nat
  pinRw : Nat
  pinE : Nat
  pinD4 : Nat
  pinD5 : Nat
  pinD6 : Nat
  pinD7 : Nat
  /-- `GPIO_BASE` and the byte offsets of the three banks (R7). -/
  gpioBase : Word
  fselOffset : Word
  setOffset : Word
  clrOffset : Word
  /-- The addresses for which `Mappable` is false (R7; log 21). -/
  unmappable : List Word
  /-- `FSEL_OUTPUT` (R8). -/
  fselOutput : FuncCode
  /-- `T_SHORT_NS` (R10). -/
  tShortNs : Word
  /-- The six display instruction bytes (R11). -/
  cmdFunctionSet : Byte
  cmdDisplayOn : Byte
  cmdEntryMode : Byte
  cmdClear : Byte
  cmdLine1 : Byte
  cmdLine2 : Byte
  /-- `PLACEHOLDER` (R11). -/
  placeholder : List Byte
  /-- `LINE_BUF_WIDTH` in bytes (R12). -/
  lineBufWidth : Nat
  deriving DecidableEq, Repr

namespace Config

/-- The eleven pins in the order ATTACH configures them (00_scope.md R6, 45_control_surface.md R261). -/
def pins (c : Config) : List Nat :=
  [c.pinGreen, c.pinYellow, c.pinRed, c.pinAlarm, c.pinRs, c.pinRw, c.pinE, c.pinD4, c.pinD5, c.pinD6, c.pinD7]

/-- `N_FSEL = ceil(N_PINS / 10)` (00_scope.md R7). -/
def nFsel (c : Config) : Nat := (c.nPins + 9) / 10

/-- `N_SET = N_CLR = ceil(N_PINS / 32)` (00_scope.md R7). -/
def nSet (c : Config) : Nat := (c.nPins + 31) / 32

/-- The first address of each bank, as a natural number (20_memory.md R61). -/
def fselFirst (c : Config) : Nat := c.gpioBase.toNat + c.fselOffset.toNat
def setFirst (c : Config) : Nat := c.gpioBase.toNat + c.setOffset.toNat
def clrFirst (c : Config) : Nat := c.gpioBase.toNat + c.clrOffset.toNat

/-- Two ranges of addresses, each a first address and a count of 4-byte words, share none. -/
abbrev banksApart (a n b m : Nat) : Prop := a + 4 * n ≤ b ∨ b + 4 * m ≤ a

/-- What a configuration must meet: 00_scope.md R6 (i) to (iii), R7, R10, R11, R12, and the 256 pins an 8-bit operand
can name (30_encoding.md R125). That the banks end inside the 32-bit address space is DEDUCED from R7 (log 20). -/
structure Legal (c : Config) : Prop where
  nPins_pos : 1 ≤ c.nPins
  nPins_le : c.nPins ≤ 256
  pins_lt : ∀ p ∈ c.pins, p < c.nPins
  pins_nodup : c.pins.Nodup
  led_yellow : c.pinYellow / 32 = c.pinGreen / 32
  led_red : c.pinRed / 32 = c.pinGreen / 32
  base_aligned : c.gpioBase.toNat % 4 = 0
  fsel_aligned : c.fselOffset.toNat % 4 = 0
  set_aligned : c.setOffset.toNat % 4 = 0
  clr_aligned : c.clrOffset.toNat % 4 = 0
  fsel_fits : c.fselFirst + 4 * c.nFsel ≤ 2 ^ 32
  set_fits : c.setFirst + 4 * c.nSet ≤ 2 ^ 32
  clr_fits : c.clrFirst + 4 * c.nSet ≤ 2 ^ 32
  fsel_set_apart : banksApart c.fselFirst c.nFsel c.setFirst c.nSet
  fsel_clr_apart : banksApart c.fselFirst c.nFsel c.clrFirst c.nSet
  set_clr_apart : banksApart c.setFirst c.nSet c.clrFirst c.nSet
  short_ge : 1000 ≤ c.tShortNs.toNat
  short_le : c.tShortNs.toNat ≤ 2000
  placeholder_text : (0 : Byte) ∉ c.placeholder
  line_fits : 25 ≤ c.lineBufWidth

/-- The illustrative configuration of 95_test_vectors.md section 0 (DESIGN CHOICE as the configuration of
`State.reset`, log 1); the table gives no buffer width, so it is the least R12 allows. -/
def illustrative : Config where
  nPins := 54
  pinGreen := 17
  pinYellow := 27
  pinRed := 22
  pinAlarm := 18
  pinRs := 7
  pinRw := 8
  pinE := 25
  pinD4 := 23
  pinD5 := 24
  pinD6 := 10
  pinD7 := 9
  gpioBase := 0x3F200000
  fselOffset := 0x00
  setOffset := 0x1C
  clrOffset := 0x28
  unmappable := []
  fselOutput := 0b001
  tShortNs := 1000
  cmdFunctionSet := 0x28
  cmdDisplayOn := 0x0C
  cmdEntryMode := 0x06
  cmdClear := 0x01
  cmdLine1 := 0x80
  cmdLine2 := 0xC0
  placeholder := [0x48, 0x69]
  lineBufWidth := 25

end Config

/-- The six agents that take steps (00_scope.md R17). -/
inductive Agent where
  | host
  | init
  | blink
  | alarm
  | display
  | teardown
  deriving DecidableEq, Repr, Inhabited

/-- What happens next (60_exceptions.md R319, R345; log 5). -/
inductive Turn where
  /-- HOST presents an operation word: its opcode byte and the bytes after it (30_encoding.md R120; log 7). -/
  | command (opcode : Byte) (operands : List Byte)
  /-- An internal agent may take its step; it has none if it is not enabled. -/
  | run (agent : Agent)
  /-- Hardware reset of the block (70_reset_and_hazards.md R350; log 18). -/
  | reset
  deriving DecidableEq, Repr, Inhabited

/-- The free word a read of a SET or CLR word, or of an address outside the three banks, returns: fresh at each
draw (20_memory.md R75, R76; log 4). -/
opaque Config.freeWord : Nat → Word

/-- What the display takes when E falls for the first time from a high level that it had at launch: RS, RW and the
nibble, one draw for each launch (44_lcd.md R232, 70_reset_and_hazards.md R373; log 26). -/
opaque Config.freeNibble : Nat → BitVec 6

/-- The turn taken where the schedule in State names none: any turn (60_exceptions.md R320, R345; log 5). -/
opaque Config.freeTurn : Nat → Turn

end Sys2Proof
end

