-- ==== Sys2Proof/Machine/State.lean ====
section
/-! DEFINITION. The state of the block (10_state.md), its events and statuses, why a step can stop, and the state after
reset. -/

namespace Sys2Proof.Machine

/-- The lifecycle phases (10_state.md R23, 60_exceptions.md R336, R337). -/
inductive Phase where
  | reset
  | run
  | cancelled
  | detached
  | failed
  deriving DecidableEq, Repr

/-- The statuses an operation can end with, each with the info R300 lists for it (60_exceptions.md R300 to R310). -/
inductive Status where
  /-- The operation did what its rule says; SETTX and SETHX carry `count` (R301, 45_control_surface.md R267). -/
  | ok (count : Option Nat)
  | mapError (addr : Word)
  | invalidInput
  /-- Reserved: no operation raises it (R304). -/
  | hardwareFault
  | notReady (phase : Phase)
  | unmappedAccess (addr : Word)
  | doubleMap (addr : Word)
  | badUnmap (addr : Word)
  | badCommand (opcode : Byte)
  | badPin (index : Byte)
  deriving DecidableEq, Repr

/-- The events of the trace (10_state.md R38); an operation is named by its opcode byte (log 8). -/
inductive Event where
  | map (addr : Word) (ok : Bool)
  | unmap (addr : Word)
  | regRead (agent : Agent) (addr value : Word)
  | regWrite (agent : Agent) (addr value : Word)
  | wait (agent : Agent) (ns : Word)
  | timerArm (ns : Word)
  | timerFire
  | status (opcode : Byte) (status : Status)
  deriving DecidableEq, Repr

/-- The primitives the display and alarm sequences are made of (44_lcd.md R230). -/
inductive Prim where
  | setp (w : Byte) (mask : Word)
  | clrp (w : Byte) (mask : Word)
  | wait (ns : Word)
  deriving DecidableEq, Repr

/-- An entry of the INIT agent's list (45_control_surface.md R261): an operation, or the finish step. -/
inductive InitOp where
  | op (i : Instr)
  | finish
  deriving DecidableEq, Repr

/-- The register space's stored bytes, one cell for each byte that is not 0, addresses rising (log 3). -/
abbrev Memory := List Host.Cell

/-- The state of the block: 10_state.md R21 to R38 and R42, and the model's own `cfg`, `agent`, `schedule`, `draws`. -/
structure State where
  /-- The OPEN parameters, written by no step (log 1). -/
  cfg : Config
  /-- `T`, two's complement (R21). -/
  t : Word
  /-- `H`, two's complement (R22). -/
  h : Word
  /-- `phase` (R23). -/
  phase : Phase
  /-- `blink_on` (R24). -/
  blinkOn : Bool
  /-- `timer_armed` (R25). -/
  timerArmed : Bool
  /-- `alarm_pending` (R26). -/
  alarmPending : Bool
  /-- `alarm_running` (R27). -/
  alarmRunning : Bool
  /-- `alarm_pc` (R28). -/
  alarmPc : Nat
  /-- `redraw_pending` (R29). -/
  redrawPending : Bool
  /-- `redraw_running` (R30). -/
  redrawRunning : Bool
  /-- `line1`, `line2` (R31). -/
  line1 : List Byte
  line2 : List Byte
  /-- `lcd_seq`, `lcd_pc` (R31). -/
  lcdSeq : List Prim
  lcdPc : Nat
  /-- `cancelled` (R32). -/
  cancelled : Bool
  /-- `mapped`, a rising list (R33). -/
  mapped : List Word
  /-- `init_running`, `init_seq`, `init_pc` (R42). -/
  initRunning : Bool
  initSeq : List InitOp
  initPc : Nat
  /-- The FSEL words (R35), in the register space. -/
  mem : Memory
  /-- `LATCH[p]`, indexed by pin (R36). -/
  latch : List Bool
  /-- `trace`, oldest event first (R38). -/
  trace : List Event
  /-- The agent whose step is being taken (log 6). -/
  agent : Agent
  /-- The turns to come (log 5). -/
  schedule : List Turn
  /-- How many free values have been drawn (log 4, log 26). -/
  draws : Nat
  deriving DecidableEq, Repr

/-- The contract statuses that are fault states (60_exceptions.md R306, R307, R308, R310, R328; log 9): the machine
stops, nothing of the operation having happened. Safe: the hardware goes on at most in its other agents. -/
inductive Fault where
  /-- RDW, WRW, RMW and what is built on them, at an address that is not mapped (R306). Safe. -/
  | unmappedAccess (addr : Word)
  /-- MAP of a mapped address (R307). Safe. -/
  | doubleMap (addr : Word)
  /-- UNMAP (also inside UNMAPALL) of an address that is not mapped (R308). Safe. -/
  | badUnmap (addr : Word)
  /-- CFGOUT of a pin that does not exist, SETP or CLRP of a word that does not exist (R310). Safe. -/
  | badPin (index : Byte)
  deriving DecidableEq, Repr

/-- Why the model gives no meaning. -/
inductive Refusal where
  /-- The dispatcher has no meaning for this operation yet; no arm raises it. Safe. -/
  | notModelled (mnemonic : String)
  deriving DecidableEq, Repr

/-- The block right after a hardware reset, given its configuration and the GPIO block's launch contents `FSEL0`,
`LATCH0` (10_state.md R40, 70_reset_and_hazards.md R350, R351). -/
def State.resetWith (c : Config) (fsel0 : Memory) (latch0 : List Bool) : State where
  cfg := c
  t := 0
  h := 0
  phase := .reset
  blinkOn := false
  timerArmed := false
  alarmPending := false
  alarmRunning := false
  alarmPc := 0
  redrawPending := false
  redrawRunning := false
  line1 := []
  line2 := []
  lcdSeq := []
  lcdPc := 0
  cancelled := false
  mapped := []
  initRunning := false
  initSeq := []
  initPc := 0
  mem := fsel0
  latch := latch0
  trace := []
  agent := .host
  schedule := []
  draws := 0

/-- Reset of the illustrative configuration with every launch bit 0 (DESIGN CHOICE, log 1, log 2). -/
def State.reset : State := State.resetWith Config.illustrative [] (List.replicate Config.illustrative.nPins false)

end Sys2Proof.Machine
end

