-- ==== Sys2Proof/Machine/Flags.lean ====
section
/-! DEFINITION. The one-bit state of the block: the two work items (10_state.md R26), the cancel signal, and which agent
has an enabled step (60_exceptions.md R345). The block has no arithmetic flags. -/

namespace Sys2Proof.Machine

/-- Enqueue the alarm pulse: nothing changes if it is pending already (10_state.md R26). -/
def State.enqueueAlarm (s : State) : State := if s.alarmPending then s else { s with alarmPending := true }

/-- Start the alarm pulse (10_state.md R26, 43_alarm.md R202). -/
def State.startAlarm (s : State) : State := { s with alarmPending := false, alarmRunning := true, alarmPc := 0 }

/-- Enqueue a redraw (10_state.md R26). -/
def State.enqueueRedraw (s : State) : State := if s.redrawPending then s else { s with redrawPending := true }

/-- The flags of the cancel signal (45_control_surface.md R269). -/
def State.cancelSignal (s : State) : State :=
  { s with cancelled := true, phase := .cancelled, timerArmed := false, alarmPending := false, redrawPending := false }

/-- BLINK may tick (42_blink.md R180). -/
def State.blinkEnabled (s : State) : Bool := s.timerArmed && s.phase = .run

/-- ALARM may start a pulse (43_alarm.md R206). -/
def State.alarmMayStart (s : State) : Bool := s.alarmPending && !s.alarmRunning && s.phase = .run

/-- A running work item may take its next micro-step (43_alarm.md R206, 44_lcd.md R236). -/
def State.itemMayGoOn (s : State) : Bool := s.phase = .run || s.phase = .cancelled

/-- DISPLAY may start a redraw (44_lcd.md R236). -/
def State.redrawMayStart (s : State) : Bool := s.redrawPending && !s.redrawRunning && s.phase = .run

/-- TEARDOWN may unmap (45_control_surface.md R270). -/
def State.teardownEnabled (s : State) : Bool := s.phase = .cancelled && !s.alarmRunning && !s.redrawRunning

/-- ATTACH is accepted (45_control_surface.md R261, R271). -/
def State.attachAccepted (s : State) : Bool := s.phase = .reset && !s.initRunning

/-- The run-time commands are accepted (45_control_surface.md R271). -/
def State.commandAccepted (s : State) : Bool := s.phase = .run

end Sys2Proof.Machine
end

