-- ==== Sys2Proof/Machine/Operands.lean ====
section
/-! DEFINITION. The pure functions of the spec: pin constants and register addresses, the threshold decoder, text and
numbers, and the fixed lists the sequencers run. -/

namespace Sys2Proof.Machine

/-! ## Fixed numbers (00_scope.md R9, R10; 70_reset_and_hazards.md R376) -/

/-- `TH_GREEN_MAX`, `TH_YELLOW_MAX`, `ALARM_THRESHOLD` (R9). -/
def thGreenMax : Int := 25
def thYellowMax : Int := 30
def alarmThreshold : Int := 30

/-- The delays in nanoseconds (R10). -/
def blinkPeriodNs : Word := 500000000
def alarmDelayNs : Word := 1000000
def tLongNs : Word := 1000000
def tClearNs : Word := 50000000
def tPowerNs : Word := 50000000

/-! ## PinDescriptors (00_scope.md R16, 30_encoding.md R101 to R104, 41_gpio_pin.md R161) -/

/-- The function-select word, field offset and field mask of a pin (R101). -/
def fselWord (p : Nat) : Nat := p / 10
def fselShift (p : Nat) : Nat := p % 10 * 3
def fselMask (p : Nat) : Word := (0b111 : Word) <<< fselShift p

/-- The output code in the pin's field (R102). -/
def fselOut (c : Config) (p : Nat) : Word := c.fselOutput.setWidth 32 <<< fselShift p

/-- The set/clear word, bit and one-hot mask of a pin (R103). -/
def scWord (p : Nat) : Nat := p / 32
def scBit (p : Nat) : Nat := p % 32
def pinMask (p : Nat) : Word := (1 : Word) <<< scBit p

/-- The word index of format M that holds a pin (30_encoding.md R125). -/
def scIndex (p : Nat) : Byte := BitVec.ofNat 8 (scWord p)

/-! ## Addresses (20_memory.md R61) -/

/-- The addresses of `FSEL[i]`, `SET[j]`, `CLR[j]` (R61). -/
def fselAddr (c : Config) (i : Nat) : Word := BitVec.ofNat 32 (c.fselFirst + 4 * i)
def setAddr (c : Config) (j : Nat) : Word := BitVec.ofNat 32 (c.setFirst + 4 * j)
def clrAddr (c : Config) (j : Nat) : Word := BitVec.ofNat 32 (c.clrFirst + 4 * j)

/-- The index of the word at `addr` in a bank of `n` words that begins at `first`. -/
def bankIndex (first n addr : Nat) : Option Nat :=
  if first ≤ addr ∧ addr < first + 4 * n ∧ (addr - first) % 4 = 0 then some ((addr - first) / 4) else none

/-- What the register map says stands at an address (20_memory.md R70, R76). -/
inductive Target where
  | fsel (i : Nat)
  | set (j : Nat)
  | clr (j : Nat)
  | other
  deriving DecidableEq, Repr

/-- The register at a physical address (20_memory.md R70). -/
def target (c : Config) (addr : Word) : Target :=
  match bankIndex c.fselFirst c.nFsel addr.toNat with
  | some i => .fsel i
  | none =>
    match bankIndex c.setFirst c.nSet addr.toNat with
    | some j => .set j
    | none =>
      match bankIndex c.clrFirst c.nSet addr.toNat with
      | some j => .clr j
      | none => .other

/-- A set of addresses is a list in rising order; add one (10_state.md R33). -/
def insertAddr (addr : Word) : List Word → List Word
  | [] => [addr]
  | a :: rest =>
    if addr.toNat < a.toNat then addr :: a :: rest
    else if addr = a then a :: rest
    else a :: insertAddr addr rest

/-- Take an address out of the set (10_state.md R33). -/
def removeAddr (addr : Word) (addrs : List Word) : List Word := addrs.filter fun a => a ≠ addr

/-- The three register words a pin needs (45_control_surface.md R261). -/
def pinAddrs (c : Config) (p : Nat) : List Word :=
  [fselAddr c (fselWord p), setAddr c (scWord p), clrAddr c (scWord p)]

/-- `AttachWords`, in ascending order without duplicates (45_control_surface.md R261). -/
def attachWords (c : Config) : List Word :=
  (c.pins.flatMap (pinAddrs c)).foldr insertAddr []

/-! ## Latches (20_memory.md R73, R74) -/

/-- The level of a pin in a list of latches; pins the list does not reach are low. -/
def levelOf (latch : List Bool) (p : Nat) : Bool := latch.getD p false

/-- Every pin below `n` that `mask` names in word `j` takes level `v`, the others keep theirs (R73, R74). -/
def driveMasked (n j : Nat) (mask : Word) (v : Bool) (latch : List Bool) : List Bool :=
  (List.range n).map fun p => if scWord p = j ∧ mask.getLsbD (scBit p) then v else levelOf latch p

/-- What a register write does to the latches (20_memory.md R72 to R74, R76). -/
def latchEffect (c : Config) (addr value : Word) (latch : List Bool) : List Bool :=
  match target c addr with
  | .set j => driveMasked c.nPins j value true latch
  | .clr j => driveMasked c.nPins j value false latch
  | .fsel _ => latch
  | .other => latch

/-! ## The threshold decoder (42_blink.md R181, R182; 30_encoding.md R104) -/

/-- The bands (R181). -/
inductive Band where
  | all
  | green
  | yellow
  | red
  deriving DecidableEq, Repr

/-- `band(t)` on the signed reading (R181; negative readings are GREEN, 90_conflicts.md C2). -/
def band (t : Int) : Band :=
  if t = 0 then .all else if t ≤ thGreenMax then .green else if t ≤ thYellowMax then .yellow else .red

/-- `LED_WORD` (30_encoding.md R104). -/
def ledWord (c : Config) : Byte := scIndex c.pinGreen

/-- `MASK_ALL` (30_encoding.md R104). -/
def maskAll (c : Config) : Word := pinMask c.pinGreen ||| pinMask c.pinYellow ||| pinMask c.pinRed

/-- `bandMask`: the active set of a band (30_encoding.md R104, 42_blink.md R182). -/
def bandMask (c : Config) : Band → Word
  | .all => maskAll c
  | .green => pinMask c.pinGreen
  | .yellow => pinMask c.pinYellow
  | .red => pinMask c.pinRed

/-! ## Text (30_encoding.md R110 to R112, 45_control_surface.md R266) -/

/-- The ASCII digit of a number below ten. -/
def digit (n : Nat) : Byte := BitVec.ofNat 8 (0x30 + n)

/-- The decimal digits of a number, most significant first, none leading zero but that of 0 itself; `fuel` bounds how
many there are (R110). -/
def decDigits : Nat → Nat → List Byte
  | 0, _ => []
  | fuel + 1, n => if n < 10 then [digit n] else decDigits fuel (n / 10) ++ [digit (n % 10)]

/-- `dec(v)` of a 32-bit reading: ten digits reach 2147483648 (R110). -/
def dec (v : Word) : List Byte :=
  if v.toInt < 0 then 0x2D :: decDigits 10 (-v.toInt).toNat else decDigits 10 v.toInt.toNat

/-- "Temperature: " and "Humidity: " (R111). -/
def temperatureLabel : List Byte :=
  [0x54, 0x65, 0x6D, 0x70, 0x65, 0x72, 0x61, 0x74, 0x75, 0x72, 0x65, 0x3A, 0x20]
def humidityLabel : List Byte := [0x48, 0x75, 0x6D, 0x69, 0x64, 0x69, 0x74, 0x79, 0x3A, 0x20]

/-- `compose(t, h)`, line by line (44_lcd.md R225). -/
def composeLine1 (t : Word) : List Byte := temperatureLabel ++ dec t
def composeLine2 (h : Word) : List Byte := humidityLabel ++ dec h

/-- A text cut before its first terminator byte 0x00 (R112). -/
def cutText (text : List Byte) : List Byte := text.takeWhile fun b => b ≠ 0

/-- A digit byte 0x30 to 0x39 (45_control_surface.md R266). -/
def isDigit (b : Byte) : Bool := 0x30 ≤ b.toNat && b.toNat ≤ 0x39

/-- One or more digits read as a number (R266). -/
def parseDigits (text : List Byte) : Option Nat :=
  if text ≠ [] ∧ text.all isDigit then some (text.foldl (fun n b => 10 * n + (b.toNat - 0x30)) 0) else none

/-- An optional sign and digits (R266). -/
def parseSigned : List Byte → Option Int
  | [] => none
  | b :: rest =>
    if b = 0x2B then (parseDigits rest).map Int.ofNat
    else if b = 0x2D then (parseDigits rest).map Int.negOfNat
    else (parseDigits (b :: rest)).map Int.ofNat

/-- The text without one trailing newline byte 0x0A (R266). -/
def dropNewline (text : List Byte) : List Byte :=
  if text.getLast? = some 0x0A then text.dropLast else text

/-- `ParseDec(text)`: a base-10 integer in the range of a reading (R266). -/
def parseDec (text : List Byte) : Option Word :=
  match parseSigned (dropNewline text) with
  | some v => if -2147483648 ≤ v ∧ v ≤ 2147483647 then some (BitVec.ofInt 32 v) else none
  | none => none

/-! ## The fixed lists (30_encoding.md R133, 44_lcd.md R221 to R230, 43_alarm.md R203, 45_control_surface.md R261) -/

/-- `SETP1 p` and `CLRP1 p` (30_encoding.md R133). -/
def setp1 (p : Nat) : Prim := .setp (scIndex p) (pinMask p)
def clrp1 (p : Nat) : Prim := .clrp (scIndex p) (pinMask p)

/-- `drive(pin, bit)` (44_lcd.md R221). -/
def drive (p : Nat) (bit : Bool) : Prim := if bit then setp1 p else clrp1 p

/-- The operations the display sequences are written in (44_lcd.md R230). -/
inductive DisplayOp where
  | wait (ns : Word)
  | lnib (m : Bool) (n : Nibble)
  | lins (b : Byte)
  | lchr (b : Byte)
  | lstr (text : List Byte)
  deriving DecidableEq, Repr

/-- The twelve primitives of LNIB (44_lcd.md R221). -/
def lnibPrims (c : Config) (m : Bool) (n : Nibble) : List Prim :=
  [ clrp1 c.pinE, drive c.pinRs m, clrp1 c.pinRw, .wait c.tShortNs, setp1 c.pinE,
    drive c.pinD4 (n.getLsbD 0), drive c.pinD5 (n.getLsbD 1), drive c.pinD6 (n.getLsbD 2), drive c.pinD7 (n.getLsbD 3),
    .wait c.tShortNs, clrp1 c.pinE, .wait tLongNs ]

/-- A byte as two nibble transfers, high nibble first, in one mode (30_encoding.md R107, 44_lcd.md R222, R223). -/
def bytePrims (c : Config) (m : Bool) (b : Byte) : List Prim :=
  lnibPrims c m (b.extractLsb' 4 4) ++ lnibPrims c m (b.extractLsb' 0 4)

/-- The expansion of LSTR: one LCHR for each character before the terminator (44_lcd.md R224). -/
def lstrPrims (c : Config) (text : List Byte) : List Prim := (cutText text).flatMap (bytePrims c true)

/-- The expansion of one display operation (44_lcd.md R230). -/
def expandOp (c : Config) : DisplayOp → List Prim
  | .wait ns => [.wait ns]
  | .lnib m n => lnibPrims c m n
  | .lins b => bytePrims c false b
  | .lchr b => bytePrims c true b
  | .lstr text => lstrPrims c text

/-- `expand` (44_lcd.md R230). -/
def expand (c : Config) (ops : List DisplayOp) : List Prim := ops.flatMap (expandOp c)

/-- The initialisation sequence (44_lcd.md R226). -/
def linitList (c : Config) : List DisplayOp :=
  [ .wait tPowerNs, .lins c.cmdFunctionSet, .lins c.cmdDisplayOn, .lins c.cmdEntryMode, .lins c.cmdClear,
    .wait tClearNs, .lins c.cmdLine1, .lstr c.placeholder ]

/-- `REDRAW_LIST(line1, line2)` (44_lcd.md R229). -/
def redrawList (c : Config) (line1 line2 : List Byte) : List DisplayOp :=
  [ .wait tLongNs, .lins c.cmdClear, .wait tClearNs, .lins c.cmdLine1, .lstr line1, .lins c.cmdLine2, .lstr line2 ]

/-- An entry of the pulse (43_alarm.md R203). -/
inductive AlarmOp where
  | prim (p : Prim)
  | reevaluate
  deriving DecidableEq, Repr

/-- `alarm_seq`, the fixed list of one pulse (43_alarm.md R203). -/
def alarmSeq (c : Config) : List AlarmOp :=
  [ .prim (setp1 c.pinAlarm), .prim (.wait alarmDelayNs), .prim (clrp1 c.pinAlarm), .prim (.wait alarmDelayNs),
    .reevaluate ]

/-- A primitive as the operation it is (44_lcd.md R230). -/
def Prim.toInstr : Prim → Instr
  | .setp w mask => .setp w mask
  | .clrp w mask => .clrp w mask
  | .wait ns => .wait ns

/-- `ATTACH_LIST` (45_control_surface.md R261). -/
def attachList (c : Config) : List InitOp :=
  (attachWords c).map (fun a => InitOp.op (.map a)) ++
  c.pins.map (fun p => InitOp.op (.cfgout (BitVec.ofNat 8 p))) ++
  (expand c (linitList c)).map (fun p => InitOp.op p.toInstr) ++
  [InitOp.finish]

end Sys2Proof.Machine
end

