-- ==== Sys2Proof/Machine/Ops.lean ====
section
/-! DEFINITION. The named operations over registers and memory: the byte cells, the register port, mapping, and how an
operation ends with a status other than OK. -/

namespace Sys2Proof.Machine

/-! ## The register space's cells (20_memory.md R63, R66; log 3) -/

/-- What a byte that no cell lists reads as. -/
def Memory.unlisted : Byte := 0

/-- Read one byte. -/
def Memory.readByte : Memory → Nat → Byte
  | [], _ => Memory.unlisted
  | (k, b) :: rest, addr => if k = addr then b else Memory.readByte rest addr

/-- Write one byte; a byte equal to what an unlisted one reads as is not listed. -/
def Memory.writeByte : Memory → Nat → Byte → Memory
  | [], addr, v => if v = Memory.unlisted then [] else [(addr, v)]
  | (k, b) :: rest, addr, v =>
    if addr < k then (if v = Memory.unlisted then (k, b) :: rest else (addr, v) :: (k, b) :: rest)
    else if addr = k then (if v = Memory.unlisted then rest else (addr, v) :: rest)
    else (k, b) :: Memory.writeByte rest addr v

/-- The canonical form: addresses strictly rising, no byte listed that an unlisted one reads as. -/
abbrev Memory.wf (m : Memory) : Prop :=
  List.Pairwise (fun x y : Host.Cell => x.1 < y.1) m ∧ ∀ c ∈ m, c.2 ≠ Memory.unlisted

/-- Read the word whose first byte stands at `addr` (byte order: log 3). -/
def Memory.readWord (m : Memory) (addr : Nat) : Word :=
  m.readByte (addr + 3) ++ m.readByte (addr + 2) ++ m.readByte (addr + 1) ++ m.readByte addr

/-- Write a whole word (20_memory.md R65, R72; byte order: log 3). -/
def Memory.writeWord (m : Memory) (addr : Nat) (v : Word) : Memory :=
  (((m.writeByte addr (v.extractLsb' 0 8)).writeByte (addr + 1) (v.extractLsb' 8 8)).writeByte (addr + 2)
    (v.extractLsb' 16 8)).writeByte (addr + 3) (v.extractLsb' 24 8)

/-! ## Accessors -/

/-- `FSEL[i]` (10_state.md R35). -/
def State.fsel (s : State) (i : Nat) : Word := s.mem.readWord (fselAddr s.cfg i).toNat

/-- `LATCH[p]` (10_state.md R36). -/
def State.level (s : State) (p : Nat) : Bool := levelOf s.latch p

/-- Append an event to the trace (00_scope.md R15). -/
def State.emit (e : Event) (s : State) : State := { s with trace := s.trace ++ [e] }

/-- The agent takes a step (log 6). -/
def State.withAgent (a : Agent) (s : State) : State := { s with agent := a }

/-- Go on with the next state, or stop as the first part stopped. -/
def andThen (o : Host.Outcome State Fault Refusal) (f : State → Host.Outcome State Fault Refusal) :
    Host.Outcome State Fault Refusal :=
  match o with
  | .next s => f s
  | .fault r => .fault r
  | .refused r => .refused r

/-! ## Ending with a status (60_exceptions.md R300, R325 to R328; 45_control_surface.md R271, R274) -/

/-- A host command ends with a status: it is returned in the trace and stored nowhere else (R300, R274; log 8). -/
def State.endWith (opcode : Byte) (st : Status) (s : State) : State := s.emit (.status opcode st)

/-- A host command in a phase that does not accept it changes nothing (R271, R305). -/
def State.notReady (opcode : Byte) (s : State) : State := s.endWith opcode (.notReady s.phase)

/-- The unwinding of a failed attach: every mapped address unmapped in descending order, the phase FAILED (R326; log 14). -/
def State.abortAttach (addr : Word) (s : State) : State :=
  State.endWith Instr.attach.opcode (.mapError addr)
    { s with
      trace := s.trace ++ s.mapped.reverse.map Event.unmap
      mapped := []
      phase := .failed
      initRunning := false }

/-- MAP ends with MapError: the failed event, and the unwinding where an attach is running (R302, R326; log 13). -/
def State.raiseMapError (addr : Word) (s : State) : State :=
  let s1 := s.emit (.map addr false)
  if s1.initRunning then s1.abortAttach addr else s1

/-! ## The register port (00_scope.md R15, 20_memory.md R71 to R76) -/

/-- The word a read finds at an address: the stored FSEL word, or a free word (R71, R75, R76; log 4). -/
def State.peek (s : State) (addr : Word) : Word :=
  match target s.cfg addr with
  | .fsel _ => s.mem.readWord addr.toNat
  | .set _ => Config.freeWord s.draws
  | .clr _ => Config.freeWord s.draws
  | .other => Config.freeWord s.draws

/-- How many free values a read of an address draws. -/
def drawsOfRead (c : Config) (addr : Word) : Nat :=
  match target c addr with
  | .fsel _ => 0
  | .set _ => 1
  | .clr _ => 1
  | .other => 1

/-- `MemRead(addr, 4)`: what it leaves; the value read is `s.peek addr` (R15, R71, R75, R76). -/
def State.memRead (addr : Word) (s : State) : State :=
  State.emit (.regRead s.agent addr (s.peek addr)) { s with draws := s.draws + drawsOfRead s.cfg addr }

/-- What a register write stores: an FSEL word, nothing elsewhere (R72 to R74, R76). -/
def memEffect (c : Config) (addr value : Word) (m : Memory) : Memory :=
  match target c addr with
  | .fsel _ => m.writeWord addr.toNat value
  | .set _ => m
  | .clr _ => m
  | .other => m

/-- `MemWrite(addr, 4, value)` (R15, R72 to R74, R76). -/
def State.memWrite (addr value : Word) (s : State) : State :=
  State.emit (.regWrite s.agent addr value)
    { s with mem := memEffect s.cfg addr value s.mem, latch := latchEffect s.cfg addr value s.latch }

/-! ## The Register Access Layer (40_register_access.md) -/

/-- MAP (R141). -/
def mapWord (addr : Word) (s : State) : Host.Outcome State Fault Refusal :=
  if addr.toNat % 4 ≠ 0 then .next (s.raiseMapError addr)
  else if addr ∈ s.mapped then .fault (.doubleMap addr)
  else if addr ∈ s.cfg.unmappable then .next (s.raiseMapError addr)
  else .next (State.emit (.map addr true) { s with mapped := insertAddr addr s.mapped })

/-- UNMAP (R142). -/
def unmapWord (addr : Word) (s : State) : Host.Outcome State Fault Refusal :=
  if addr ∈ s.mapped then .next (State.emit (.unmap addr) { s with mapped := removeAddr addr s.mapped })
  else .fault (.badUnmap addr)

/-- UNMAP of a list of addresses in order (45_control_surface.md R270). -/
def unmapWords : List Word → State → Host.Outcome State Fault Refusal
  | [], s => .next s
  | addr :: rest, s => andThen (unmapWord addr s) (unmapWords rest)

/-- RDW: the value goes to the issuer and the trace (R143). -/
def readReg (addr : Word) (s : State) : Host.Outcome State Fault Refusal :=
  if addr ∈ s.mapped then .next (s.memRead addr) else .fault (.unmappedAccess addr)

/-- WRW (R144). -/
def writeReg (addr value : Word) (s : State) : Host.Outcome State Fault Refusal :=
  if addr ∈ s.mapped then .next (s.memWrite addr value) else .fault (.unmappedAccess addr)

/-- `(old & ~clr) | set` (R145). -/
def rmwWord (old clr set : Word) : Word := (old &&& ~~~clr) ||| set

/-- RMW: read, compute, write back, in one step (R145, 20_memory.md R85). -/
def modifyReg (addr clr set : Word) (s : State) : Host.Outcome State Fault Refusal :=
  if addr ∈ s.mapped then .next ((s.memRead addr).memWrite addr (rmwWord (s.peek addr) clr set))
  else .fault (.unmappedAccess addr)

/-! ## Pins (41_gpio_pin.md) -/

/-- SETP (R163): `BadPin` before `UnmappedAccess` (60_exceptions.md R321). -/
def setPins (w : Byte) (mask : Word) (s : State) : Host.Outcome State Fault Refusal :=
  if w.toNat < s.cfg.nSet then writeReg (setAddr s.cfg w.toNat) mask s else .fault (.badPin w)

/-- CLRP (R164). -/
def clearPins (w : Byte) (mask : Word) (s : State) : Host.Outcome State Fault Refusal :=
  if w.toNat < s.cfg.nSet then writeReg (clrAddr s.cfg w.toNat) mask s else .fault (.badPin w)

/-- WAIT: an event and nothing else (44_lcd.md R237; log 15). -/
def delay (ns : Word) (s : State) : State := s.emit (.wait s.agent ns)

/-- One primitive (44_lcd.md R230). -/
def runPrim (p : Prim) (s : State) : Host.Outcome State Fault Refusal :=
  match p with
  | .setp w mask => setPins w mask s
  | .clrp w mask => clearPins w mask s
  | .wait ns => .next (delay ns s)

/-- Primitives one after another, nothing between them (log 10). -/
def runPrims : List Prim → State → Host.Outcome State Fault Refusal
  | [], s => .next s
  | p :: rest, s => andThen (runPrim p s) (runPrims rest)

end Sys2Proof.Machine
end

