-- ==== Sys2Proof/Machine/Alarm.lean ====
section
/-! DEFINITION. The meanings of AEVAL and APULSE (43_alarm.md). -/

namespace Sys2Proof.Machine

/-- The reading is above the alarm threshold and the block is not cancelled: the guard of every alarm enqueue
(R201, R204). -/
def State.alarmWanted (s : State) : Bool := decide (s.t.toInt > alarmThreshold) && !s.cancelled

/-- Evaluate the alarm condition (R201). -/
def State.evalAlarm (s : State) : State := if s.alarmWanted then s.enqueueAlarm else s

/-- The pulse's last micro-operation: end the run, re-enqueue while the reading is above the threshold (R204). -/
def State.reevaluateAlarm (s : State) : State := State.evalAlarm { s with alarmRunning := false }

/-- The entry `alarm_seq[alarm_pc]`, then `alarm_pc + 1` (R203; log 22). -/
def alarmMicroStep (s : State) : Host.Outcome State Fault Refusal :=
  match (alarmSeq s.cfg)[s.alarmPc]? with
  | some (.prim p) => andThen (runPrim p s) fun s1 => .next { s1 with alarmPc := s1.alarmPc + 1 }
  | some .reevaluate => .next { s.reevaluateAlarm with alarmPc := s.alarmPc + 1 }
  | none => .next s

/-- AEVAL (R201). -/
def execAeval (s : State) : Host.Outcome State Fault Refusal := .next s.evalAlarm

/-- APULSE, the next micro-step of ALARM: the start with index 0 (R202), or the next entry of a running pulse (R203,
R206); no step where ALARM is not enabled (log 11, log 12). -/
def execApulse (s : State) : Host.Outcome State Fault Refusal :=
  if s.alarmMayStart then alarmMicroStep (s.withAgent .alarm).startAlarm
  else if s.alarmRunning && s.itemMayGoOn then alarmMicroStep (s.withAgent .alarm)
  else .next s

end Sys2Proof.Machine
end

