-- ==== Sys2Proof/Machine/Blink.lean ====
section
/-! DEFINITION. The meaning of BTICK (42_blink.md). -/

namespace Sys2Proof.Machine

/-- The timer fires and `blink_on` flips (R183). -/
def State.fireTimer (s : State) : State :=
  { s with agent := .blink, timerArmed := false, trace := s.trace ++ [.timerFire], blinkOn := !s.blinkOn }

/-- Arm the blink timer (R184, R185). -/
def State.armTimer (s : State) : State := State.emit (.timerArm blinkPeriodNs) { s with timerArmed := true }

/-- The re-arm at the end of a tick (R184). -/
def State.rearmTimer (s : State) : State := if s.cancelled then s else s.armTimer

/-- The tick's one register write: assert the active set, or clear all three (R183). -/
def blinkWrite (s : State) : Host.Outcome State Fault Refusal :=
  if s.blinkOn then setPins (ledWord s.cfg) (bandMask s.cfg (band s.t.toInt)) s
  else clearPins (ledWord s.cfg) (maskAll s.cfg) s

/-- BTICK, one atomic step of BLINK; no step where BLINK is not enabled (R180, R183; log 12). -/
def execBtick (s : State) : Host.Outcome State Fault Refusal :=
  if s.blinkEnabled then andThen (blinkWrite s.fireTimer) fun s1 => .next s1.rearmTimer else .next s

end Sys2Proof.Machine
end

