-- ==== Sys2Proof/Machine/Lcd.lean ====
section
/-! DEFINITION. The meanings of LNIB, LINS, LCHR, LSTR, LINIT, LSCHED, LREDRAW, WAIT (44_lcd.md). -/

namespace Sys2Proof.Machine

/-- LNIB `m`, `n`: its twelve primitives in order (R221; log 10). -/
def execLnib (m : Bool) (n : Nibble) (s : State) : Host.Outcome State Fault Refusal :=
  runPrims (expand s.cfg [.lnib m n]) s

/-- LINS `b`: two nibble transfers in instruction mode (R222; log 10). -/
def execLins (b : Byte) (s : State) : Host.Outcome State Fault Refusal := runPrims (expand s.cfg [.lins b]) s

/-- LCHR `b`: two nibble transfers in data mode (R223; log 10). -/
def execLchr (b : Byte) (s : State) : Host.Outcome State Fault Refusal := runPrims (expand s.cfg [.lchr b]) s

/-- LSTR `text`: its characters up to the terminator (R224; log 10). -/
def execLstr (text : List Byte) (s : State) : Host.Outcome State Fault Refusal :=
  runPrims (expand s.cfg [.lstr text]) s

/-- LINIT: the initialisation sequence (R226; log 10). -/
def execLinit (s : State) : Host.Outcome State Fault Refusal := runPrims (expand s.cfg (linitList s.cfg)) s

/-- Schedule a redraw (R227). -/
def State.scheduleRedraw (s : State) : State := if s.cancelled then s else s.enqueueRedraw

/-- LSCHED (R227). -/
def execLsched (s : State) : Host.Outcome State Fault Refusal := .next s.scheduleRedraw

/-- The start step of a redraw: both readings sampled, the lines composed, the sequence loaded (R228). -/
def State.startRedraw (s : State) : State :=
  { s with
    redrawPending := false
    redrawRunning := true
    line1 := composeLine1 s.t
    line2 := composeLine2 s.h
    lcdSeq := expand s.cfg (redrawList s.cfg (composeLine1 s.t) (composeLine2 s.h))
    lcdPc := 0 }

/-- `lcd_pc + 1`, and the run ends with the last primitive (R229). -/
def State.advanceLcd (s : State) : State :=
  { s with lcdPc := s.lcdPc + 1, redrawRunning := decide (s.lcdPc + 1 < s.lcdSeq.length) }

/-- The primitive `lcd_seq[lcd_pc]` (R229; log 22). -/
def redrawMicroStep (s : State) : Host.Outcome State Fault Refusal :=
  match s.lcdSeq[s.lcdPc]? with
  | some p => andThen (runPrim p s) fun s1 => .next s1.advanceLcd
  | none => .next s

/-- LREDRAW, the next micro-step of DISPLAY: the start (R228), or the next primitive of a running redraw (R229, R236);
no step where DISPLAY is not enabled (log 11, log 12). -/
def execLredraw (s : State) : Host.Outcome State Fault Refusal :=
  if s.redrawMayStart then .next (s.withAgent .display).startRedraw
  else if s.redrawRunning && s.itemMayGoOn then redrawMicroStep (s.withAgent .display)
  else .next s

/-- WAIT `ns` (R237). -/
def execWait (ns : Word) (s : State) : Host.Outcome State Fault Refusal := .next (delay ns s)

end Sys2Proof.Machine
end

