-- ==== Sys2Proof/Machine/ControlSurface.lean ====
section
/-! DEFINITION. The meanings of ATTACH, SETT, SETTX, SETH, SETHX, DETACH, CANCEL, UNMAPALL (45_control_surface.md). -/

namespace Sys2Proof.Machine

/-- The accept step of ATTACH: load the INIT agent's sequencer (R261). -/
def State.startAttach (s : State) : State :=
  { s with initRunning := true, initPc := 0, initSeq := attachList s.cfg }

/-- ATTACH: accepted in RESET while no attach runs, `NotReady` otherwise (R261, R271; log 11). -/
def execAttach (s : State) : Host.Outcome State Fault Refusal :=
  if s.attachAccepted then .next s.startAttach else .next (s.notReady Instr.attach.opcode)

/-- The finish step of the INIT agent (R261). -/
def State.finishAttach (s : State) : State :=
  State.endWith Instr.attach.opcode (.ok none) (State.armTimer { s with phase := .run, initRunning := false })

/-- The atomic update of the temperature: store it, then evaluate the alarm (R262). -/
def State.updateT (v : Word) (s : State) : State := State.evalAlarm { s with t := v }

/-- The atomic update of the humidity: store it, then schedule a redraw (R264). -/
def State.updateH (v : Word) (s : State) : State := State.scheduleRedraw { s with h := v }

/-- SETT `v` (R262, R271). -/
def execSett (v : Word) (s : State) : Host.Outcome State Fault Refusal :=
  if s.commandAccepted then .next ((s.updateT v).endWith (Instr.sett v).opcode (.ok none))
  else .next (s.notReady (Instr.sett v).opcode)

/-- SETTX `text` (R263, R266, R267, R271). -/
def execSettx (text : List Byte) (s : State) : Host.Outcome State Fault Refusal :=
  if s.commandAccepted then
    match parseDec text with
    | some v => .next ((s.updateT v).endWith (Instr.settx text).opcode (.ok (some text.length)))
    | none => .next (s.endWith (Instr.settx text).opcode .invalidInput)
  else .next (s.notReady (Instr.settx text).opcode)

/-- SETH `v` (R264, R271). -/
def execSeth (v : Word) (s : State) : Host.Outcome State Fault Refusal :=
  if s.commandAccepted then .next ((s.updateH v).endWith (Instr.seth v).opcode (.ok none))
  else .next (s.notReady (Instr.seth v).opcode)

/-- SETHX `text` (R265 to R267, R271). -/
def execSethx (text : List Byte) (s : State) : Host.Outcome State Fault Refusal :=
  if s.commandAccepted then
    match parseDec text with
    | some v => .next ((s.updateH v).endWith (Instr.sethx text).opcode (.ok (some text.length)))
    | none => .next (s.endWith (Instr.sethx text).opcode .invalidInput)
  else .next (s.notReady (Instr.sethx text).opcode)

/-- CANCEL, the cancel signal (R269). -/
def execCancel (s : State) : Host.Outcome State Fault Refusal := .next s.cancelSignal

/-- DETACH: accepted in RUN, where it takes the cancel step; its status comes from UNMAPALL (R268, R271; log 11). -/
def execDetach (s : State) : Host.Outcome State Fault Refusal :=
  if s.commandAccepted then .next s.cancelSignal else .next (s.notReady Instr.detach.opcode)

/-- UNMAPALL, one atomic step of TEARDOWN; no step where it is not enabled (R270; log 12). -/
def execUnmapall (s : State) : Host.Outcome State Fault Refusal :=
  if s.teardownEnabled then
    andThen (unmapWords (attachWords s.cfg).reverse (s.withAgent .teardown)) fun s1 =>
      .next (State.endWith Instr.detach.opcode (.ok none) { s1 with phase := .detached })
  else .next s

end Sys2Proof.Machine
end

