-- ==== Sys2Proof/Machine/GpioPin.lean ====
section
/-! DEFINITION. The meanings of CFGOUT, SETP, CLRP (41_gpio_pin.md). -/

namespace Sys2Proof.Machine

/-- CFGOUT `pin`: the pin's field of its function-select word becomes `FSEL_OUTPUT` by one RMW (R162). -/
def execCfgout (pin : Byte) (s : State) : Host.Outcome State Fault Refusal :=
  if pin.toNat < s.cfg.nPins then
    modifyReg (fselAddr s.cfg (fselWord pin.toNat)) (fselMask pin.toNat) (fselOut s.cfg pin.toNat) s
  else .fault (.badPin pin)

/-- SETP `w`, `mask` (R163). -/
def execSetp (w : Byte) (mask : Word) (s : State) : Host.Outcome State Fault Refusal := setPins w mask s

/-- CLRP `w`, `mask` (R164). -/
def execClrp (w : Byte) (mask : Word) (s : State) : Host.Outcome State Fault Refusal := clearPins w mask s

end Sys2Proof.Machine
end

