-- ==== Sys2Proof/Machine/RegisterAccess.lean ====
section
/-! DEFINITION. The meanings of MAP, UNMAP, RDW, WRW, RMW (40_register_access.md). -/

namespace Sys2Proof.Machine

/-- MAP `addr` (R141). -/
def execMap (addr : Word) (s : State) : Host.Outcome State Fault Refusal := mapWord addr s

/-- UNMAP `addr` (R142). -/
def execUnmap (addr : Word) (s : State) : Host.Outcome State Fault Refusal := unmapWord addr s

/-- RDW `addr` (R143). -/
def execRdw (addr : Word) (s : State) : Host.Outcome State Fault Refusal := readReg addr s

/-- WRW `addr`, `value` (R144). -/
def execWrw (addr value : Word) (s : State) : Host.Outcome State Fault Refusal := writeReg addr value s

/-- RMW `addr`, `clr`, `set` (R145). -/
def execRmw (addr clr set : Word) (s : State) : Host.Outcome State Fault Refusal := modifyReg addr clr set s

end Sys2Proof.Machine
end

