-- ==== Sys2Proof/Machine/Dispatch.lean ====
section
/-! DEFINITION. One arm for each operation (30_encoding.md R128). -/

namespace Sys2Proof.Machine

def exec (i : Instr) (s : State) : Host.Outcome State Fault Refusal :=
  match i with
  | .attach => Sys2Proof.Machine.execAttach s
  | .sett v => Sys2Proof.Machine.execSett v s
  | .seth v => Sys2Proof.Machine.execSeth v s
  | .detach => Sys2Proof.Machine.execDetach s
  | .cancel => Sys2Proof.Machine.execCancel s
  | .settx text => Sys2Proof.Machine.execSettx text s
  | .sethx text => Sys2Proof.Machine.execSethx text s
  | .unmapall => Sys2Proof.Machine.execUnmapall s
  | .map addr => Sys2Proof.Machine.execMap addr s
  | .unmap addr => Sys2Proof.Machine.execUnmap addr s
  | .rdw addr => Sys2Proof.Machine.execRdw addr s
  | .wrw addr value => Sys2Proof.Machine.execWrw addr value s
  | .rmw addr clr set => Sys2Proof.Machine.execRmw addr clr set s
  | .cfgout pin => Sys2Proof.Machine.execCfgout pin s
  | .setp w mask => Sys2Proof.Machine.execSetp w mask s
  | .clrp w mask => Sys2Proof.Machine.execClrp w mask s
  | .btick => Sys2Proof.Machine.execBtick s
  | .aeval => Sys2Proof.Machine.execAeval s
  | .apulse => Sys2Proof.Machine.execApulse s
  | .lnib m n => Sys2Proof.Machine.execLnib m n s
  | .lins b => Sys2Proof.Machine.execLins b s
  | .lchr b => Sys2Proof.Machine.execLchr b s
  | .lstr text => Sys2Proof.Machine.execLstr text s
  | .linit => Sys2Proof.Machine.execLinit s
  | .lsched => Sys2Proof.Machine.execLsched s
  | .lredraw => Sys2Proof.Machine.execLredraw s
  | .wait ns => Sys2Proof.Machine.execWait ns s

end Sys2Proof.Machine
end

