-- ==== Sys2Proof/Machine/Agents.lean ====
section
/-! DEFINITION. Who steps and how: the schedule's next turn, the command port, the five internal agents, hardware reset,
and the placing of one given operation as the next step's (60_exceptions.md R345; log 5, log 17). -/

namespace Sys2Proof.Machine

/-- The next turn: the head of the schedule, or a free turn where it is empty (60_exceptions.md R320, R345; log 5). -/
def State.nextTurn (s : State) : Turn :=
  match s.schedule with
  | turn :: _ => turn
  | [] => Config.freeTurn s.draws

/-- The state with that turn taken from it. -/
def State.popTurn (s : State) : State :=
  match s.schedule with
  | _ :: rest => { s with schedule := rest }
  | [] => { s with draws := s.draws + 1 }

/-- HOST presents an operation word: `BadCommand` comes before every other check (30_encoding.md R129, R130;
60_exceptions.md R309, R321; log 7). -/
def hostTurn (op : Byte) (operands : List Byte) (s : State) : Host.Outcome State Fault Refusal :=
  match decodeWhole op operands with
  | .ok i =>
    match i.port with
    | .host => exec i s
    | .internal => .next (s.endWith op (.badCommand op))
  | .error _ => .next (s.endWith op (.badCommand op))

/-- INIT executes `init_seq[init_pc]` and adds 1 to `init_pc` (10_state.md R42, 45_control_surface.md R261; log 22). -/
def initTurn (s : State) : Host.Outcome State Fault Refusal :=
  if s.initRunning then
    match s.initSeq[s.initPc]? with
    | some (.op i) => exec i { s with initPc := s.initPc + 1 }
    | some .finish => .next (State.finishAttach { s with initPc := s.initPc + 1 })
    | none => .next s
  else .next s

/-- An internal agent's turn; HOST does nothing without a command (60_exceptions.md R345). -/
def agentTurn (a : Agent) (s : State) : Host.Outcome State Fault Refusal :=
  match a with
  | .host => .next s
  | .init => initTurn s
  | .blink => exec .btick s
  | .alarm => exec .apulse s
  | .display => exec .lredraw s
  | .teardown => exec .unmapall s

/-- Hardware reset: the block's own state as `State.resetWith` has it, the GPIO block's words and latches untouched;
another launch is another draw (70_reset_and_hazards.md R350, R351, R373; log 18, log 26). -/
def State.hardwareReset (s : State) : State :=
  { State.resetWith s.cfg s.mem s.latch with schedule := s.schedule, draws := s.draws + 1 }

/-- Take one turn. -/
def takeTurn (turn : Turn) (s : State) : Host.Outcome State Fault Refusal :=
  match turn with
  | .command op operands => hostTurn op operands (s.withAgent .host)
  | .run a => agentTurn a (s.withAgent a)
  | .reset => .next s.hardwareReset

/-! ## Placing one operation as the next step's (log 17) -/

/-- Put a turn before all others. -/
def State.pushTurn (turn : Turn) (s : State) : State := { s with schedule := turn :: s.schedule }

/-- The block attached: every word mapped and the phase RUN (70_reset_and_hazards.md R357). -/
def State.attached (s : State) : State := { s with phase := .run, mapped := attachWords s.cfg }

/-- An internal operation as the one entry of a running INIT list, with some addresses mapped. -/
def State.placeInit (i : Instr) (mapped : List Word) (s : State) : State :=
  State.pushTurn (.run .init) { s with initRunning := true, initSeq := [.op i], initPc := 0, mapped := mapped }

/-- As after the MAP steps of an attach (45_control_surface.md R261). -/
def State.placeAttaching (i : Instr) (s : State) : State := s.placeInit i (attachWords s.cfg)

/-- The same with the word an operand names mapped too: the block comes to no access before its mapping
(70_reset_and_hazards.md R361). -/
def State.placeAccess (i : Instr) (addr : Word) (s : State) : State := s.placeInit i (insertAddr addr (attachWords s.cfg))

/-- The operation as the very next step's: a host command as a word at the command port, an agent's own operation with
that agent enabled, any other internal operation as INIT's next entry (log 17). -/
def State.place (i : Instr) (s : State) : State :=
  match i with
  | .attach => s.pushTurn (.command i.opcode i.operandBytes)
  | .sett _ => s.pushTurn (.command i.opcode i.operandBytes)
  | .seth _ => s.pushTurn (.command i.opcode i.operandBytes)
  | .detach => s.pushTurn (.command i.opcode i.operandBytes)
  | .settx _ => s.pushTurn (.command i.opcode i.operandBytes)
  | .sethx _ => s.pushTurn (.command i.opcode i.operandBytes)
  | .btick => State.pushTurn (.run .blink) { s.attached with timerArmed := true }
  | .apulse => State.pushTurn (.run .alarm) { s.attached with alarmPending := true, alarmRunning := false }
  | .lredraw => State.pushTurn (.run .display) { s.attached with redrawPending := true, redrawRunning := false }
  | .unmapall =>
    State.pushTurn (.run .teardown) { s.attached.cancelSignal with alarmRunning := false, redrawRunning := false }
  | .map _ => s.placeInit i s.mapped
  | .unmap a => s.placeAccess i a
  | .rdw a => s.placeAccess i a
  | .wrw a _ => s.placeAccess i a
  | .rmw a _ _ => s.placeAccess i a
  | .cancel => s.placeAttaching i
  | .cfgout _ => s.placeAttaching i
  | .setp _ _ => s.placeAttaching i
  | .clrp _ _ => s.placeAttaching i
  | .aeval => s.placeAttaching i
  | .lnib _ _ => s.placeAttaching i
  | .lins _ => s.placeAttaching i
  | .lchr _ => s.placeAttaching i
  | .lstr _ => s.placeAttaching i
  | .linit => s.placeAttaching i
  | .lsched => s.placeAttaching i
  | .wait _ => s.placeAttaching i

/-- A table row's word placed; bytes that are no operation are presented to the command port as they are. -/
def State.placeTableWord (s : State) (nbits w : Nat) : State :=
  match decodeTableWord nbits w with
  | some i => s.place i
  | none =>
    match tableBytes nbits w with
    | op :: operands => s.pushTurn (.command op operands)
    | [] => s

end Sys2Proof.Machine
end

