-- ==== Sys2Proof/Machine/Step.lean ====
section
/-! DEFINITION. One step of the block: the next turn is taken (60_exceptions.md R345). -/

namespace Sys2Proof.Machine

/-- One atomic micro-step (00_scope.md R14, 60_exceptions.md R345). -/
def step (s : State) : Host.Outcome State Fault Refusal := takeTurn s.nextTurn s.popTurn

/-- `s` with the operation of a table row as the one the very next step runs (log 17, log 25). -/
def State.withFetchWord (s : State) (nbits w : Nat) : State := s.placeTableWord nbits w

end Sys2Proof.Machine
end

