-- ==== Sys2Proof/Machine/Observe.lean ====
section
/-! DEFINITION. What the outside sees: pads (10_state.md R37), and the nibbles and bytes the display latches
(44_lcd.md R232, R233). No step of the block reads these. -/

namespace Sys2Proof.Machine

/-- What a pin presents (10_state.md R37). -/
inductive Pad where
  | driven (level : Bool)
  | notDriven
  deriving DecidableEq, Repr

/-- The 3-bit field of a pin in its function-select word (30_encoding.md R101). -/
def State.fselField (s : State) (p : Nat) : FuncCode := (s.fsel (fselWord p)).extractLsb' (fselShift p) 3

/-- `PAD(p)` (10_state.md R37). -/
def State.pad (s : State) (p : Nat) : Pad :=
  if s.fselField p = s.cfg.fselOutput then .driven (s.level p) else .notDriven

/-- What the display takes at one falling edge of E (44_lcd.md R232). -/
structure Latched where
  rs : Bool
  rw : Bool
  n : Nibble
  deriving DecidableEq, Repr

/-- The nibble on the data lines, D7 the most significant (44_lcd.md R232). -/
def dataLines (c : Config) (latch : List Bool) : Nibble :=
  BitVec.ofBool (levelOf latch c.pinD7) ++ BitVec.ofBool (levelOf latch c.pinD6) ++ BitVec.ofBool (levelOf latch c.pinD5) ++
    BitVec.ofBool (levelOf latch c.pinD4)

/-- The nibble of unspecified content that a launch with E high makes the display take first, as the draw it is
(70_reset_and_hazards.md R373; log 26). -/
def launchNibble (draw : Nat) : Latched where
  rs := (Config.freeNibble draw).getLsbD 5
  rw := (Config.freeNibble draw).getLsbD 4
  n := (Config.freeNibble draw).extractLsb' 0 4

/-- What the display takes when E falls: the lines, or the launch's draw where E has been high since before the block
first drove it (R232, 70_reset_and_hazards.md R373; log 19, log 26). -/
def atFallingEdge (c : Config) (after : List Bool) : Option Nat → Latched
  | some draw => launchNibble draw
  | none => { rs := levelOf after c.pinRs, rw := levelOf after c.pinRw, n := dataLines c after }

/-- What one register write makes the display take: something only where it changes E from 1 to 0 (R232). -/
def latchedBy (c : Config) (held : Option Nat) (before after : List Bool) : List Latched :=
  if levelOf before c.pinE && !levelOf after c.pinE then [atFallingEdge c after held] else []

/-- The draw of a launch with E high is held until E first falls (70_reset_and_hazards.md R373). -/
def stillHeld (c : Config) (held : Option Nat) (latch : List Bool) : Option Nat :=
  if levelOf latch c.pinE then held else none

/-- The latches after the register writes of some events. -/
def replayLatch (c : Config) : List Event → List Bool → List Bool
  | [], latch => latch
  | .regWrite _ a v :: rest, latch => replayLatch c rest (latchEffect c a v latch)
  | .map _ _ :: rest, latch => replayLatch c rest latch
  | .unmap _ :: rest, latch => replayLatch c rest latch
  | .regRead _ _ _ :: rest, latch => replayLatch c rest latch
  | .wait _ _ :: rest, latch => replayLatch c rest latch
  | .timerArm _ :: rest, latch => replayLatch c rest latch
  | .timerFire :: rest, latch => replayLatch c rest latch
  | .status _ _ :: rest, latch => replayLatch c rest latch

/-- The nibbles the display takes during some events, from the latches before them and the launch's draw if it is still
held (R232). -/
def nibblesFrom (c : Config) : Option Nat → List Event → List Bool → List Latched
  | _, [], _ => []
  | held, .regWrite _ a v :: rest, latch =>
    latchedBy c held latch (latchEffect c a v latch) ++
      nibblesFrom c (stillHeld c held (latchEffect c a v latch)) rest (latchEffect c a v latch)
  | held, .map _ _ :: rest, latch => nibblesFrom c held rest latch
  | held, .unmap _ :: rest, latch => nibblesFrom c held rest latch
  | held, .regRead _ _ _ :: rest, latch => nibblesFrom c held rest latch
  | held, .wait _ _ :: rest, latch => nibblesFrom c held rest latch
  | held, .timerArm _ :: rest, latch => nibblesFrom c held rest latch
  | held, .timerFire :: rest, latch => nibblesFrom c held rest latch
  | held, .status _ _ :: rest, latch => nibblesFrom c held rest latch

/-- The nibbles the display takes during some events, from the latches before them; `draw` numbers the draw for an E that
is high there (R232, 70_reset_and_hazards.md R373; log 26). -/
def latchedNibbles (c : Config) (draw : Nat) (events : List Event) (latch : List Bool) : List Latched :=
  nibblesFrom c (stillHeld c (some draw) latch) events latch

/-- Nibbles paired into bytes, high first, each with its mode: true for data (R233; log 19). -/
def pairNibbles : List Latched → List (Bool × Byte)
  | hi :: lo :: rest => (hi.rs, hi.n ++ lo.n) :: pairNibbles rest
  | _ => []

/-- The byte stream the display receives during some events (R233). -/
def displayBytes (c : Config) (draw : Nat) (events : List Event) (latch : List Bool) : List (Bool × Byte) :=
  pairNibbles (latchedNibbles c draw events latch)

/-- The event a primitive leaves in the trace (10_state.md R38). -/
def Prim.event (c : Config) (a : Agent) : Prim → Event
  | .setp w mask => .regWrite a (setAddr c w.toNat) mask
  | .clrp w mask => .regWrite a (clrAddr c w.toNat) mask
  | .wait ns => .wait a ns

/-- What a primitive does to the latches (20_memory.md R73, R74; 44_lcd.md R237). -/
def Prim.latch (c : Config) : Prim → List Bool → List Bool
  | .setp w mask, l => driveMasked c.nPins w.toNat mask true l
  | .clrp w mask, l => driveMasked c.nPins w.toNat mask false l
  | .wait _, l => l

/-- The latches after some primitives. -/
def latchAfter (c : Config) (prims : List Prim) (latch : List Bool) : List Bool :=
  prims.foldl (fun l p => p.latch c l) latch

/-- All that primitives change: the latches and the trace (44_lcd.md R221, R237). -/
def State.afterPrims (prims : List Prim) (s : State) : State :=
  { s with
    latch := latchAfter s.cfg prims s.latch
    trace := s.trace ++ prims.map (Prim.event s.cfg s.agent) }

/-- The nanoseconds an event makes its agent wait (70_reset_and_hazards.md R375, R376). -/
def Prim.waitNs : Prim → Nat
  | .setp _ _ => 0
  | .clrp _ _ => 0
  | .wait ns => ns.toNat

/-- The least time a list of primitives takes (70_reset_and_hazards.md R376). -/
def totalWaitNs (prims : List Prim) : Nat := (prims.map Prim.waitNs).sum

/-- A primitive is a register write (44_lcd.md R221). -/
def Prim.isWrite : Prim → Bool
  | .setp _ _ => true
  | .clrp _ _ => true
  | .wait _ => false

/-- The numeric codes of the statuses (60_exceptions.md R300). -/
def Status.code : Status → Nat
  | .ok _ => 0
  | .mapError _ => 1
  | .invalidInput => 2
  | .hardwareFault => 3
  | .notReady _ => 4
  | .unmappedAccess _ => 5
  | .doubleMap _ => 6
  | .badUnmap _ => 7
  | .badCommand _ => 8
  | .badPin _ => 9

end Sys2Proof.Machine
end

