-- ==== Sys2Proof/Safety.lean ====
section
/-! DEFINITION. What counts as a safe run, and the invariant every reachable state keeps (10_state.md R41). -/

namespace Sys2Proof

/-- The seven display pins (00_scope.md R6). -/
def Config.displayPins (c : Config) : List Nat := [c.pinRs, c.pinRw, c.pinE, c.pinD4, c.pinD5, c.pinD6, c.pinD7]

/-- The three LED pins (00_scope.md R6). -/
def Config.ledPins (c : Config) : List Nat := [c.pinGreen, c.pinYellow, c.pinRed]

end Sys2Proof

namespace Sys2Proof.Machine

/-! ## Words the statements are written in -/

/-- The pins an asserting tick asserts in a band (42_blink.md R182). -/
def activeSet (c : Config) : Band → List Nat
  | .all => c.ledPins
  | .green => [c.pinGreen]
  | .yellow => [c.pinYellow]
  | .red => [c.pinRed]

/-- The event of driving one line to a level: one write of that pin's bit to its set or clear word (41_gpio_pin.md
R167). -/
def lineWrite (c : Config) (a : Agent) (p : Nat) (level : Bool) : Event :=
  .regWrite a (if level then setAddr c (scWord p) else clrAddr c (scWord p)) (pinMask p)

/-- Operations one after another. -/
def execAll : List Instr → State → Host.Outcome State Fault Refusal
  | [], s => .next s
  | i :: rest, s => andThen (exec i s) (execAll rest)

/-- Steps one after another. -/
def run : Nat → State → Host.Outcome State Fault Refusal
  | 0, s => .next s
  | k + 1, s => andThen (step s) (run k)

/-- A register write (44_lcd.md R229 counts them). -/
def Event.isWrite : Event → Bool
  | .regWrite _ _ _ => true
  | .map _ _ => false
  | .unmap _ => false
  | .regRead _ _ _ => false
  | .wait _ _ => false
  | .timerArm _ => false
  | .timerFire => false
  | .status _ _ => false

/-- The value of a list of digit bytes, the most significant first (45_control_surface.md R266). -/
def digitsValue (digits : List Byte) : Int := (Nat.ofDigits 10 (digits.reverse.map fun b => b.toNat - 0x30) : Nat)

/-! ## The invariant -/

/-- The block is attached: phase RUN, CANCELLED or DETACHED, which only a successful ATTACH leads to (60_exceptions.md
R337). -/
def State.everAttached (s : State) : Prop := s.phase = .run ∨ s.phase = .cancelled ∨ s.phase = .detached

/-- A work item may be running: phase RUN or CANCELLED (10_state.md R41 a). -/
def State.active (s : State) : Prop := s.phase = .run ∨ s.phase = .cancelled

/-- Every word the block's own sequences touch is mapped (70_reset_and_hazards.md R361). -/
def State.wordsMapped (s : State) : Prop := ∀ a ∈ attachWords s.cfg, a ∈ s.mapped

/-- The pins the INIT agent has configured so far: none before the last MAP (45_control_surface.md R261). -/
def State.configured (s : State) : List Nat := s.cfg.pins.take (s.initPc - (attachWords s.cfg).length)

/-- The invariant of the block (10_state.md R23, R31 to R33, R41, R42; 70_reset_and_hazards.md R357). -/
structure State.Inv (s : State) : Prop where
  /-- The parameters meet the constraints of 00_scope.md R6 to R12. -/
  legal : s.cfg.Legal
  /-- The register space is in canonical form. -/
  memory : s.mem.wf
  /-- There is one latch for each pin (R36). -/
  latches : s.latch.length = s.cfg.nPins
  /-- R41 (a). -/
  alarm_active : s.alarmRunning = true → s.active
  redraw_active : s.redrawRunning = true → s.active
  /-- R41 (b). -/
  timer_run : s.timerArmed = true → s.phase = .run
  /-- R41 (c), and no work is queued outside RUN. -/
  alarm_pending_run : s.alarmPending = true → s.phase = .run
  redraw_pending_run : s.redrawPending = true → s.phase = .run
  /-- R32. -/
  cancelled_iff : s.cancelled = true ↔ s.phase = .cancelled ∨ s.phase = .detached
  /-- R41 (d): attached. -/
  mapped_active : s.active → s.mapped = attachWords s.cfg
  /-- R41 (d): not attached. -/
  mapped_idle : ¬s.active → s.initRunning = false → s.mapped = []
  /-- R42: a running attach. -/
  init_reset : s.initRunning = true → s.phase = .reset
  init_list : s.initRunning = true → s.initSeq = attachList s.cfg ∧ s.initPc < (attachList s.cfg).length
  init_mapped : s.initRunning = true → s.mapped = (attachWords s.cfg).take s.initPc
  init_outputs : s.initRunning = true → ∀ p ∈ s.configured, s.fselField p = s.cfg.fselOutput
  /-- R41 (e). -/
  outputs : s.everAttached → ∀ p ∈ s.cfg.pins, s.fselField p = s.cfg.fselOutput
  /-- R28: a running pulse is between its first and its last micro-step. -/
  alarm_index : s.alarmRunning = true → 1 ≤ s.alarmPc ∧ s.alarmPc ≤ 4
  /-- R31: a running redraw is at a primitive of the list its lines expand to. -/
  redraw_list : s.redrawRunning = true →
    s.lcdSeq = expand s.cfg (redrawList s.cfg s.line1 s.line2) ∧ s.lcdPc < s.lcdSeq.length
  /-- R31: the lines fit their buffers. -/
  lines_fit : s.line1.length < s.cfg.lineBufWidth ∧ s.line2.length < s.cfg.lineBufWidth

/-- R41 (f): the alarm pin is high only between index 0 and index 2 of a pulse. -/
def State.AlarmPinInv (s : State) : Prop :=
  s.level s.cfg.pinAlarm = true → s.alarmRunning = true ∧ s.alarmPc ≤ 2

/-- A run that never stops: at no number of steps has the block come to a contract violation (60_exceptions.md R306 to
R310, R328). -/
def SafeFrom (s : State) : Prop := ∀ k, ∃ t, run k s = .next t

end Sys2Proof.Machine
end

