-- ==== Sys2Proof/Certificates/Slice0/Obligations.lean ====
section
/-! DEFINITION. The statements for the provers. Each docstring names the rules of spec/ a statement formalises; where one
rests on a convention of this model it names the assumption log's entry. -/

open Sys2Proof Sys2Proof.Machine

/-! ## Operation words (30_encoding.md) -/

/-- Decoding the operation word of a well-formed instruction gives the instruction back, every operand at every value its
field admits, whatever bytes follow (R120 to R127). -/
def Obligations.DecodeOfEncode : Prop :=
  ∀ i : Instr, i.wellFormed = true →
    (∀ rest : List Byte, decode (encode i ++ rest) = .ok (i, rest)) ∧ decodeWhole i.opcode i.operandBytes = .ok i

/-- Each word has one meaning: what decodes is well formed and is the word its instruction is encoded to (R126, R129). -/
def Obligations.EncodeOfDecode : Prop :=
  ∀ (bytes rest : List Byte) (i : Instr), decode bytes = .ok (i, rest) → i.wellFormed = true ∧ bytes = encode i ++ rest

/-- Operation words written out from R121 to R125 and R128, one or more of every format, decode to what they spell (the
words are those of R132 and of 95_test_vectors.md 2.8 and 2.11). -/
def Obligations.WrittenWordsDecode : Prop :=
  decodeWhole 0x01 [] = .ok .attach ∧
  decodeWhole 0x02 [0x00, 0x00, 0x00, 0x1F] = .ok (.sett 31) ∧
  decodeWhole 0x03 [0xFF, 0xFF, 0xFF, 0xFB] = .ok (.seth (BitVec.ofInt 32 (-5))) ∧
  decodeWhole 0x06 [0x03, 0x32, 0x33, 0x0A] = .ok (.settx [0x32, 0x33, 0x0A]) ∧
  decodeWhole 0x10 [0x3F, 0x20, 0x00, 0x04] = .ok (.map 0x3F200004) ∧
  decodeWhole 0x13 [0x3F, 0x20, 0x00, 0x1C, 0x00, 0x02, 0x00, 0x00] = .ok (.wrw 0x3F20001C 0x00020000) ∧
  decodeWhole 0x14 [0x3F, 0x20, 0x00, 0x04, 0x00, 0xE0, 0x00, 0x00, 0x00, 0x20, 0x00, 0x00] =
    .ok (.rmw 0x3F200004 0x00E00000 0x00200000) ∧
  decodeWhole 0x20 [0x11] = .ok (.cfgout 17) ∧
  decodeWhole 0x21 [0x00, 0x08, 0x42, 0x00, 0x00] = .ok (.setp 0 0x08420000) ∧
  decodeWhole 0x39 [] = .ok .apulse ∧
  decodeWhole 0x40 [0x15] = .ok (.lnib true 5) ∧
  decodeWhole 0x42 [0x54] = .ok (.lchr 0x54) ∧
  decodeWhole 0x50 [0x00, 0x00, 0x03, 0xE8] = .ok (.wait 1000)

/-- At the command port an opcode outside R128, an opcode of port class I, and any word that does not decode end with
BadCommand before any other check, and nothing but the trace changes (R129, R130, 60_exceptions.md R309, R321,
92_eei_decisions.md D38; that a status is an event named by the opcode byte is log 8). -/
def Obligations.IllegalWordsAreBadCommands : Prop :=
  ∀ (s : State) (op : Byte) (operands : List Byte) (rest : List Turn), s.schedule = .command op operands :: rest →
    (op ∉ ([0x01, 0x02, 0x03, 0x04, 0x05, 0x06, 0x07, 0x08, 0x10, 0x11, 0x12, 0x13, 0x14, 0x20, 0x21, 0x22, 0x30, 0x38,
        0x39, 0x40, 0x41, 0x42, 0x43, 0x44, 0x45, 0x46, 0x50] : List Byte) ∨
      op ∈ ([0x05, 0x08, 0x10, 0x11, 0x12, 0x13, 0x14, 0x20, 0x21, 0x22, 0x30, 0x38, 0x39, 0x40, 0x41, 0x42, 0x43, 0x44,
        0x45, 0x46, 0x50] : List Byte) ∨
      ∃ e, decodeWhole op operands = .error e) →
    step s = .next
      { s with schedule := rest, agent := .host, trace := s.trace ++ [.status op (.badCommand op)] }

/-! ## A step -/

/-- A step whose turn is a host's word runs the instruction the word decodes to, at the state with the turn taken and HOST
as the agent (60_exceptions.md R319, R345; log 5, log 7). -/
def Obligations.StepRunsDecodedWord : Prop :=
  ∀ (s : State) (op : Byte) (operands : List Byte) (rest : List Turn) (i : Instr),
    s.schedule = .command op operands :: rest → decodeWhole op operands = .ok i → i.port = .host →
    step s = exec i { s with schedule := rest, agent := .host }

/-- A step whose turn is an internal agent's runs that agent's operation: INIT the entry at `init_pc` (or the finish step)
with `init_pc` advanced, BLINK BTICK, ALARM APULSE, DISPLAY LREDRAW, TEARDOWN UNMAPALL; INIT has no step unless an attach
runs; an empty schedule takes a free turn (60_exceptions.md R345, 10_state.md R42; that turns are a schedule in State is
log 5, that a turn of INIT with no attach running and a turn of HOST without a word pass is log 12). -/
def Obligations.StepRunsAgentTurn : Prop :=
  (∀ (s : State) (rest : List Turn) (i : Instr), s.schedule = .run .init :: rest → s.initRunning = true →
    s.initSeq[s.initPc]? = some (.op i) →
    step s = exec i { s with schedule := rest, agent := .init, initPc := s.initPc + 1 }) ∧
  (∀ (s : State) (rest : List Turn), s.schedule = .run .init :: rest → s.initRunning = true →
    s.initSeq[s.initPc]? = some .finish →
    step s = .next
      { s with
        schedule := rest
        agent := .init
        initPc := s.initPc + 1
        phase := .run
        initRunning := false
        timerArmed := true
        trace := s.trace ++ [.timerArm 500000000, .status 0x01 (.ok none)] }) ∧
  (∀ (s : State) (rest : List Turn), s.schedule = .run .init :: rest → s.initRunning = false →
    step s = .next { s with schedule := rest, agent := .init }) ∧
  (∀ (s : State) (rest : List Turn), s.schedule = .run .blink :: rest →
    step s = exec .btick { s with schedule := rest, agent := .blink }) ∧
  (∀ (s : State) (rest : List Turn), s.schedule = .run .alarm :: rest →
    step s = exec .apulse { s with schedule := rest, agent := .alarm }) ∧
  (∀ (s : State) (rest : List Turn), s.schedule = .run .display :: rest →
    step s = exec .lredraw { s with schedule := rest, agent := .display }) ∧
  (∀ (s : State) (rest : List Turn), s.schedule = .run .teardown :: rest →
    step s = exec .unmapall { s with schedule := rest, agent := .teardown }) ∧
  (∀ (s : State) (rest : List Turn), s.schedule = .run .host :: rest →
    step s = .next { s with schedule := rest, agent := .host }) ∧
  (∀ s : State, s.schedule = [] → step s = takeTurn (Config.freeTurn s.draws) { s with draws := s.draws + 1 })

/-- An agent whose step is not enabled leaves the block as it is (42_blink.md R180, 43_alarm.md R206, 44_lcd.md R236,
45_control_surface.md R270, 60_exceptions.md R345: the rules say the step cannot be taken; that such a turn passes is
log 12). -/
def Obligations.DisabledAgentsPass : Prop :=
  ∀ s : State,
    (¬(s.timerArmed = true ∧ s.phase = .run) → exec .btick s = .next s) ∧
    (¬(s.alarmPending = true ∧ s.alarmRunning = false ∧ s.phase = .run) →
      ¬(s.alarmRunning = true ∧ (s.phase = .run ∨ s.phase = .cancelled)) → exec .apulse s = .next s) ∧
    (¬(s.redrawPending = true ∧ s.redrawRunning = false ∧ s.phase = .run) →
      ¬(s.redrawRunning = true ∧ (s.phase = .run ∨ s.phase = .cancelled)) → exec .lredraw s = .next s) ∧
    (¬(s.phase = .cancelled ∧ s.alarmRunning = false ∧ s.redrawRunning = false) → exec .unmapall s = .next s)

/-! ## Reset -/

/-- Hardware reset puts the block's own state at the values of 10_state.md R40 from any state and leaves the GPIO block's
words and latches, and the parameters, alone (70_reset_and_hazards.md R350, R351; that reset is a turn is log 18, that it draws a free value
is log 26). -/
def Obligations.ResetState : Prop :=
  (∀ (c : Config) (fsel0 : Memory) (latch0 : List Bool),
    (State.resetWith c fsel0 latch0).t = 0 ∧ (State.resetWith c fsel0 latch0).h = 0 ∧
    (State.resetWith c fsel0 latch0).phase = .reset ∧ (State.resetWith c fsel0 latch0).blinkOn = false ∧
    (State.resetWith c fsel0 latch0).timerArmed = false ∧ (State.resetWith c fsel0 latch0).alarmPending = false ∧
    (State.resetWith c fsel0 latch0).alarmRunning = false ∧ (State.resetWith c fsel0 latch0).alarmPc = 0 ∧
    (State.resetWith c fsel0 latch0).redrawPending = false ∧ (State.resetWith c fsel0 latch0).redrawRunning = false ∧
    (State.resetWith c fsel0 latch0).line1 = [] ∧ (State.resetWith c fsel0 latch0).line2 = [] ∧
    (State.resetWith c fsel0 latch0).lcdSeq = [] ∧ (State.resetWith c fsel0 latch0).lcdPc = 0 ∧
    (State.resetWith c fsel0 latch0).cancelled = false ∧ (State.resetWith c fsel0 latch0).mapped = [] ∧
    (State.resetWith c fsel0 latch0).initRunning = false ∧ (State.resetWith c fsel0 latch0).initSeq = [] ∧
    (State.resetWith c fsel0 latch0).initPc = 0 ∧ (State.resetWith c fsel0 latch0).trace = [] ∧
    (State.resetWith c fsel0 latch0).mem = fsel0 ∧ (State.resetWith c fsel0 latch0).latch = latch0 ∧
    (State.resetWith c fsel0 latch0).cfg = c) ∧
  (∀ (s : State) (rest : List Turn), s.schedule = .reset :: rest →
    step s = .next { State.resetWith s.cfg s.mem s.latch with schedule := rest, draws := s.draws + 1 })

/-! ## The Register Access Layer (40_register_access.md) -/

/-- MAP in the order of its checks: misaligned, mapped already, not mappable, mapped (R141, 60_exceptions.md R302, R307,
R321; outside an attach a MapError leaves only its event, log 13). -/
def Obligations.MapResult : Prop :=
  ∀ (s : State) (a : Word),
    (a.toNat % 4 ≠ 0 → s.initRunning = false → exec (.map a) s = .next { s with trace := s.trace ++ [.map a false] }) ∧
    (a.toNat % 4 = 0 → a ∈ s.mapped → exec (.map a) s = .fault (.doubleMap a)) ∧
    (a.toNat % 4 = 0 → a ∉ s.mapped → a ∈ s.cfg.unmappable → s.initRunning = false →
      exec (.map a) s = .next { s with trace := s.trace ++ [.map a false] }) ∧
    (a.toNat % 4 = 0 → a ∉ s.mapped → a ∉ s.cfg.unmappable → ∃ t,
      exec (.map a) s = .next t ∧ t = { s with mapped := t.mapped, trace := s.trace ++ [.map a true] } ∧
      ∀ b, b ∈ t.mapped ↔ b = a ∨ b ∈ s.mapped)

/-- A MapError during an attach: everything mapped so far is unmapped in descending order, the phase is FAILED, the attach
has ended, ATTACH's status is MapError, no register was accessed and no latch changed (60_exceptions.md R326,
45_control_surface.md R261; log 14). -/
def Obligations.AttachMapErrorUnwinds : Prop :=
  ∀ (s : State) (a : Word), s.initRunning = true →
    (a.toNat % 4 ≠ 0 ∨ (a ∉ s.mapped ∧ a ∈ s.cfg.unmappable)) →
    exec (.map a) s = .next
      { s with
        mapped := []
        phase := .failed
        initRunning := false
        trace := s.trace ++ (.map a false :: s.mapped.reverse.map Event.unmap) ++ [.status 0x01 (.mapError a)] }

/-- UNMAP takes its address out of the set, or is a contract violation (R142, 60_exceptions.md R308). -/
def Obligations.UnmapResult : Prop :=
  ∀ (s : State) (a : Word),
    (a ∈ s.mapped → ∃ t, exec (.unmap a) s = .next t ∧
      t = { s with mapped := t.mapped, trace := s.trace ++ [.unmap a] } ∧ ∀ b, b ∈ t.mapped ↔ b ∈ s.mapped ∧ b ≠ a) ∧
    (a ∉ s.mapped → exec (.unmap a) s = .fault (.badUnmap a))

/-- RDW of a mapped address changes nothing but the trace; the value is the stored word of an FSEL address and a free
value elsewhere (R143, 20_memory.md R71, R75, R76; the free value is log 4). -/
def Obligations.ReadRegister : Prop :=
  ∀ s : State, s.cfg.Legal →
    (∀ i, i < s.cfg.nFsel → fselAddr s.cfg i ∈ s.mapped →
      exec (.rdw (fselAddr s.cfg i)) s = .next
        { s with trace := s.trace ++ [.regRead s.agent (fselAddr s.cfg i) (s.fsel i)] }) ∧
    (∀ a, a ∈ s.mapped → (∀ i, i < s.cfg.nFsel → a ≠ fselAddr s.cfg i) →
      exec (.rdw a) s = .next
        { s with draws := s.draws + 1, trace := s.trace ++ [.regRead s.agent a (Config.freeWord s.draws)] })

/-- WRW of an FSEL word: that word takes the value, all 32 bits, and every other word, every byte outside it and every
latch stays; the pads of the word's pins follow the new fields at once, the other pads stay; writing the value again
changes nothing but the trace (20_memory.md R72; R144). -/
def Obligations.WriteFselWord : Prop :=
  ∀ (s : State) (i : Nat) (v : Word), s.cfg.Legal → s.mem.wf → i < s.cfg.nFsel → fselAddr s.cfg i ∈ s.mapped → ∃ t,
    exec (.wrw (fselAddr s.cfg i) v) s = .next t ∧
    t = { s with mem := t.mem, trace := s.trace ++ [.regWrite s.agent (fselAddr s.cfg i) v] } ∧
    t.fsel i = v ∧ (∀ k, k < s.cfg.nFsel → k ≠ i → t.fsel k = s.fsel k) ∧ t.mem.wf ∧
    (∀ b, b < (fselAddr s.cfg i).toNat ∨ (fselAddr s.cfg i).toNat + 4 ≤ b → t.mem.readByte b = s.mem.readByte b) ∧
    (∀ p, p < s.cfg.nPins → t.pad p =
      if p / 10 = i then
        (if v.extractLsb' (p % 10 * 3) 3 = s.cfg.fselOutput then .driven (s.level p) else .notDriven)
      else s.pad p) ∧
    exec (.wrw (fselAddr s.cfg i) v) t = .next { t with trace := t.trace ++ [.regWrite s.agent (fselAddr s.cfg i) v] }

/-- WRW of a SET or CLR word drives the pins its mask names and stores nothing; WRW anywhere else changes nothing
(R144, 20_memory.md R73, R74, R76). -/
def Obligations.WriteSetClearWord : Prop :=
  ∀ (s : State) (v : Word), s.cfg.Legal →
    (∀ j, j < s.cfg.nSet → setAddr s.cfg j ∈ s.mapped → ∃ t, exec (.wrw (setAddr s.cfg j) v) s = .next t ∧
      t = { s with latch := t.latch, trace := s.trace ++ [.regWrite s.agent (setAddr s.cfg j) v] } ∧
      t.latch.length = s.cfg.nPins ∧
      ∀ p, p < s.cfg.nPins → t.level p = if p / 32 = j ∧ v.getLsbD (p % 32) = true then true else s.level p) ∧
    (∀ j, j < s.cfg.nSet → clrAddr s.cfg j ∈ s.mapped → ∃ t, exec (.wrw (clrAddr s.cfg j) v) s = .next t ∧
      t = { s with latch := t.latch, trace := s.trace ++ [.regWrite s.agent (clrAddr s.cfg j) v] } ∧
      t.latch.length = s.cfg.nPins ∧
      ∀ p, p < s.cfg.nPins → t.level p = if p / 32 = j ∧ v.getLsbD (p % 32) = true then false else s.level p) ∧
    (∀ a, a ∈ s.mapped → (∀ i, i < s.cfg.nFsel → a ≠ fselAddr s.cfg i) →
      (∀ j, j < s.cfg.nSet → a ≠ setAddr s.cfg j ∧ a ≠ clrAddr s.cfg j) →
      exec (.wrw a v) s = .next { s with trace := s.trace ++ [.regWrite s.agent a v] })

/-- RMW of a mapped address reads the word, clears, then sets, and writes it back in the same step; every byte outside the
word stays; on an FSEL word that word takes the new value, every other word and every latch stays and no free value is
drawn; at any other address nothing is stored and the word read is a fresh free value (R145, 20_memory.md R85, R75, R76;
the free value is log 4). -/
def Obligations.ReadModifyWrite : Prop :=
  ∀ (s : State) (a clr set : Word), a ∈ s.mapped → ∃ t,
    exec (.rmw a clr set) s = .next t ∧
    t = { s with
      mem := t.mem
      latch := latchEffect s.cfg a ((s.peek a &&& ~~~clr) ||| set) s.latch
      draws := t.draws
      trace := s.trace ++ [.regRead s.agent a (s.peek a), .regWrite s.agent a ((s.peek a &&& ~~~clr) ||| set)] } ∧
    (∀ b, b < a.toNat ∨ a.toNat + 4 ≤ b → t.mem.readByte b = s.mem.readByte b) ∧
    (s.cfg.Legal → s.mem.wf → ∀ i, i < s.cfg.nFsel → a = fselAddr s.cfg i →
      s.peek a = s.fsel i ∧ t.fsel i = ((s.fsel i &&& ~~~clr) ||| set) ∧ t.latch = s.latch ∧ t.draws = s.draws ∧
      ∀ k, k < s.cfg.nFsel → k ≠ i → t.fsel k = s.fsel k) ∧
    (s.cfg.Legal → (∀ i, i < s.cfg.nFsel → a ≠ fselAddr s.cfg i) →
      s.peek a = Config.freeWord s.draws ∧ t.mem = s.mem ∧ t.draws = s.draws + 1)

/-- The isolation law of RMW, for every old word, clear mask and set mask, and for the FSEL word an RMW leaves, every
other FSEL word staying; so configuring one pin as an output changes no other pin's function bits (R146, which the spec marks as its own derivation
from R145). -/
def Obligations.RegisterWriteIsolation : Prop :=
  (∀ old clr set : Word,
    rmwWord old clr set &&& ~~~(clr ||| set) = old &&& ~~~(clr ||| set) ∧
    rmwWord old clr set &&& clr &&& ~~~set = 0 ∧ rmwWord old clr set &&& set = set) ∧
  (∀ (s t : State) (i : Nat) (clr set : Word), s.cfg.Legal → s.mem.wf → i < s.cfg.nFsel → fselAddr s.cfg i ∈ s.mapped →
    exec (.rmw (fselAddr s.cfg i) clr set) s = .next t →
    t.fsel i &&& ~~~(clr ||| set) = s.fsel i &&& ~~~(clr ||| set) ∧
    t.fsel i &&& clr &&& ~~~set = 0 ∧ t.fsel i &&& set = set ∧
    ∀ k, k < s.cfg.nFsel → k ≠ i → t.fsel k = s.fsel k) ∧
  (∀ (s t : State) (p : Byte) (q : Nat), s.cfg.Legal → s.mem.wf → exec (.cfgout p) s = .next t → q < s.cfg.nPins →
    q ≠ p.toNat → t.fselField q = s.fselField q)

/-- The contract violations: an access through an address that is not mapped, a pin or word that does not exist, the
latter checked first (R143 to R145, 41_gpio_pin.md R162 to R164, 60_exceptions.md R306, R310, R321; that they stop the
machine is log 9). -/
def Obligations.ContractFaults : Prop :=
  ∀ s : State,
    (∀ a, a ∉ s.mapped → exec (.rdw a) s = .fault (.unmappedAccess a) ∧
      (∀ v, exec (.wrw a v) s = .fault (.unmappedAccess a)) ∧
      ∀ clr set, exec (.rmw a clr set) s = .fault (.unmappedAccess a)) ∧
    (∀ p : Byte, s.cfg.nPins ≤ p.toNat → exec (.cfgout p) s = .fault (.badPin p)) ∧
    (∀ p : Byte, p.toNat < s.cfg.nPins → fselAddr s.cfg (p.toNat / 10) ∉ s.mapped →
      exec (.cfgout p) s = .fault (.unmappedAccess (fselAddr s.cfg (p.toNat / 10)))) ∧
    (∀ (w : Byte) (mask : Word), s.cfg.nSet ≤ w.toNat →
      exec (.setp w mask) s = .fault (.badPin w) ∧ exec (.clrp w mask) s = .fault (.badPin w)) ∧
    (∀ (w : Byte) (mask : Word), w.toNat < s.cfg.nSet →
      (setAddr s.cfg w.toNat ∉ s.mapped →
        exec (.setp w mask) s = .fault (.unmappedAccess (setAddr s.cfg w.toNat))) ∧
      (clrAddr s.cfg w.toNat ∉ s.mapped →
        exec (.clrp w mask) s = .fault (.unmappedAccess (clrAddr s.cfg w.toNat))))

/-! ## The GPIO Pin Configurator (41_gpio_pin.md) -/

/-- CFGOUT makes its pin an output and nothing else: the pin's field becomes the output code and its pad drives its latch;
every other pin's field and pad, bits 31 and 30 of the word, every other word, every byte outside the word and every latch
stay (R162, 30_encoding.md R101, R102, 10_state.md R37). -/
def Obligations.ConfigureOutput : Prop :=
  ∀ (s : State) (p : Byte), s.cfg.Legal → s.mem.wf → p.toNat < s.cfg.nPins →
    fselAddr s.cfg (p.toNat / 10) ∈ s.mapped → ∃ (t : State) (new : Word),
    new = (s.fsel (p.toNat / 10) &&& ~~~((7 : Word) <<< (p.toNat % 10 * 3))) |||
      (s.cfg.fselOutput.setWidth 32 <<< (p.toNat % 10 * 3)) ∧
    exec (.cfgout p) s = .next t ∧
    t = { s with
      mem := t.mem
      trace := s.trace ++ [.regRead s.agent (fselAddr s.cfg (p.toNat / 10)) (s.fsel (p.toNat / 10)),
        .regWrite s.agent (fselAddr s.cfg (p.toNat / 10)) new] } ∧
    t.fsel (p.toNat / 10) = new ∧ t.fselField p.toNat = s.cfg.fselOutput ∧
    t.pad p.toNat = .driven (s.level p.toNat) ∧
    (∀ q, q < s.cfg.nPins → q ≠ p.toNat → t.fselField q = s.fselField q ∧ t.pad q = s.pad q) ∧
    (∀ b, 30 ≤ b → b ≤ 31 → (t.fsel (p.toNat / 10)).getLsbD b = (s.fsel (p.toNat / 10)).getLsbD b) ∧
    (∀ k, k < s.cfg.nFsel → k ≠ p.toNat / 10 → t.fsel k = s.fsel k) ∧ t.mem.wf ∧
    ∀ b, b < (fselAddr s.cfg (p.toNat / 10)).toNat ∨ (fselAddr s.cfg (p.toNat / 10)).toNat + 4 ≤ b →
      t.mem.readByte b = s.mem.readByte b

/-- SETP raises, and CLRP lowers, exactly the pins below `N_PINS` that the mask names in word `w`, by one register write
(R163, R164). -/
def Obligations.SetAndClearPins : Prop :=
  ∀ (s : State) (w : Byte) (mask : Word), s.cfg.Legal → w.toNat < s.cfg.nSet →
    (setAddr s.cfg w.toNat ∈ s.mapped → ∃ t, exec (.setp w mask) s = .next t ∧
      t = { s with latch := t.latch, trace := s.trace ++ [.regWrite s.agent (setAddr s.cfg w.toNat) mask] } ∧
      t.latch.length = s.cfg.nPins ∧ ∀ p, p < s.cfg.nPins →
        t.level p = if p / 32 = w.toNat ∧ mask.getLsbD (p % 32) = true then true else s.level p) ∧
    (clrAddr s.cfg w.toNat ∈ s.mapped → ∃ t, exec (.clrp w mask) s = .next t ∧
      t = { s with latch := t.latch, trace := s.trace ++ [.regWrite s.agent (clrAddr s.cfg w.toNat) mask] } ∧
      t.latch.length = s.cfg.nPins ∧ ∀ p, p < s.cfg.nPins →
        t.level p = if p / 32 = w.toNat ∧ mask.getLsbD (p % 32) = true then false else s.level p)

/-- Two pin writes that name no common pin commute: whatever the order, the latches end the same (R169). -/
def Obligations.DisjointPinWritesCommute : Prop :=
  ∀ (s : State) (b1 b2 : Bool) (w1 w2 : Byte) (m1 m2 : Word), s.cfg.Legal →
    w1.toNat < s.cfg.nSet → w2.toNat < s.cfg.nSet →
    (if b1 then setAddr s.cfg w1.toNat else clrAddr s.cfg w1.toNat) ∈ s.mapped →
    (if b2 then setAddr s.cfg w2.toNat else clrAddr s.cfg w2.toNat) ∈ s.mapped →
    (w1 ≠ w2 ∨ m1 &&& m2 = 0) → ∃ t u,
      execAll [if b1 then .setp w1 m1 else .clrp w1 m1, if b2 then .setp w2 m2 else .clrp w2 m2] s = .next t ∧
      execAll [if b2 then .setp w2 m2 else .clrp w2 m2, if b1 then .setp w1 m1 else .clrp w1 m1] s = .next u ∧
      t.latch = u.latch ∧ t.mem = u.mem ∧ ∀ p, t.pad p = u.pad p

/-! ## The Blink Engine (42_blink.md) -/

/-- The threshold decoder (R181). -/
def Obligations.ThresholdBands : Prop :=
  ∀ t : Int, (band t = .all ↔ t = 0) ∧ (band t = .green ↔ t ≠ 0 ∧ t ≤ 25) ∧ (band t = .yellow ↔ 26 ≤ t ∧ t ≤ 30) ∧
    (band t = .red ↔ 30 < t)

/-- BTICK where BLINK is enabled: the timer fires, `blink_on` flips, one register write asserts the active set of the band
of `T` (or clears all three LEDs), the timer is armed again unless cancelled; no other pin changes (R182 to R184,
30_encoding.md R104). -/
def Obligations.BlinkTick : Prop :=
  ∀ s : State, s.cfg.Legal → s.wordsMapped → s.timerArmed = true → s.phase = .run → ∃ (t : State) (w : Event),
    exec .btick s = .next t ∧
    t = { s with
      agent := .blink
      blinkOn := !s.blinkOn
      timerArmed := !s.cancelled
      latch := t.latch
      trace := s.trace ++ [.timerFire, w] ++ (if s.cancelled then [] else [.timerArm 500000000]) } ∧
    t.latch.length = s.cfg.nPins ∧
    (s.blinkOn = false →
      w = .regWrite .blink (setAddr s.cfg (s.cfg.pinGreen / 32)) (bandMask s.cfg (band s.t.toInt)) ∧
      ∀ p, p < s.cfg.nPins → t.level p = if p ∈ activeSet s.cfg (band s.t.toInt) then true else s.level p) ∧
    (s.blinkOn = true →
      w = .regWrite .blink (clrAddr s.cfg (s.cfg.pinGreen / 32)) (maskAll s.cfg) ∧
      ∀ p, p < s.cfg.nPins → t.level p = if p ∈ s.cfg.ledPins then false else s.level p)

/-- The toggle law: of two consecutive ticks one asserts the band's set and the other clears all, by one write each, and
no other step but a reset changes which comes next (R188, which the spec marks as its own derivation from R183). -/
def Obligations.ToggleLaw : Prop :=
  (∀ (s : State) (rest : List Turn), s.Inv → s.timerArmed = true → s.schedule = .run .blink :: .run .blink :: rest →
    ∃ t, run 2 s = .next t ∧ t.blinkOn = s.blinkOn ∧ t.t = s.t ∧
      t.trace = s.trace ++
        (if s.blinkOn then
          [.timerFire, .regWrite .blink (clrAddr s.cfg (s.cfg.pinGreen / 32)) (maskAll s.cfg), .timerArm 500000000,
            .timerFire, .regWrite .blink (setAddr s.cfg (s.cfg.pinGreen / 32)) (bandMask s.cfg (band s.t.toInt)),
            .timerArm 500000000]
        else
          [.timerFire, .regWrite .blink (setAddr s.cfg (s.cfg.pinGreen / 32)) (bandMask s.cfg (band s.t.toInt)),
            .timerArm 500000000,
            .timerFire, .regWrite .blink (clrAddr s.cfg (s.cfg.pinGreen / 32)) (maskAll s.cfg),
            .timerArm 500000000])) ∧
  (∀ s t : State, s.Inv → step s = .next t → s.nextTurn ≠ .run .blink → s.nextTurn ≠ .reset → t.blinkOn = s.blinkOn)

/-! ## The Alarm Oscillator (43_alarm.md) -/

/-- AEVAL enqueues the pulse exactly when `T` is above 30, the block is not cancelled and no pulse is pending, and changes
nothing else (R201). -/
def Obligations.AlarmEvaluation : Prop :=
  ∀ s : State, exec .aeval s = .next
    { s with alarmPending := s.alarmPending || (decide (30 < s.t.toInt) && !s.cancelled) }

/-- The start of a pulse is one step with its first micro-operation: the item is running, no longer pending, at index 1,
and the alarm pin is high; no other pin changes (R202, R203, R206). -/
def Obligations.PulseStart : Prop :=
  ∀ s : State, s.cfg.Legal → s.wordsMapped → s.alarmPending = true → s.alarmRunning = false → s.phase = .run → ∃ t,
    exec .apulse s = .next t ∧
    t = { s with
      agent := .alarm
      alarmPending := false
      alarmRunning := true
      alarmPc := 1
      latch := t.latch
      trace := s.trace ++ [lineWrite s.cfg .alarm s.cfg.pinAlarm true] } ∧
    t.latch.length = s.cfg.nPins ∧
    ∀ p, p < s.cfg.nPins → t.level p = if p = s.cfg.pinAlarm then true else s.level p

/-- The other micro-steps of a running pulse, in RUN or CANCELLED: wait, lower the pin, wait, then end the run and enqueue
it again exactly when `T` is above 30, the block is not cancelled and no pulse is pending (R203, R204, R206, R207; the
index left behind is log 24). -/
def Obligations.PulseBody : Prop :=
  ∀ s : State, s.cfg.Legal → s.wordsMapped → s.alarmRunning = true → s.active →
    (s.alarmPc = 1 ∨ s.alarmPc = 3 → exec .apulse s = .next
      { s with agent := .alarm, alarmPc := s.alarmPc + 1, trace := s.trace ++ [.wait .alarm 1000000] }) ∧
    (s.alarmPc = 2 → ∃ t, exec .apulse s = .next t ∧
      t = { s with
        agent := .alarm
        alarmPc := 3
        latch := t.latch
        trace := s.trace ++ [lineWrite s.cfg .alarm s.cfg.pinAlarm false] } ∧
      t.latch.length = s.cfg.nPins ∧
      ∀ p, p < s.cfg.nPins → t.level p = if p = s.cfg.pinAlarm then false else s.level p) ∧
    (s.alarmPc = 4 → exec .apulse s = .next
      { s with
        agent := .alarm
        alarmPc := 5
        alarmRunning := false
        alarmPending := s.alarmPending || (decide (30 < s.t.toInt) && !s.cancelled) })

/-- A queued pulse that gets five turns runs to its end: it writes high, waits, writes low, waits, is running no more, and
is queued again exactly if `T` is above 30 (R203, R204, R208; that the turns are given is log 23, the index left behind is
log 24). -/
def Obligations.PulseRunsToItsEnd : Prop :=
  ∀ (s : State) (rest : List Turn), s.Inv → s.alarmPending = true → s.alarmRunning = false →
    s.schedule = List.replicate 5 (.run .alarm) ++ rest → ∃ t,
    run 5 s = .next t ∧
    t = { s with
      schedule := rest
      agent := .alarm
      alarmPc := 5
      alarmPending := decide (30 < s.t.toInt)
      latch := t.latch
      trace := s.trace ++ [lineWrite s.cfg .alarm s.cfg.pinAlarm true, .wait .alarm 1000000,
        lineWrite s.cfg .alarm s.cfg.pinAlarm false, .wait .alarm 1000000] } ∧
    ∀ p, p < s.cfg.nPins → t.level p = if p = s.cfg.pinAlarm then false else s.level p

/-! ## The Display Driver (44_lcd.md) -/

/-- LNIB: nine line writes and three waits in the order of R221's table; E is low at the end, RS at the mode, RW low, the
data lines at the nibble's bits, no other pin changed; the display latches exactly (mode, 0, nibble), after one nibble of
unspecified content where E was high before (R221, R232, 30_encoding.md R105, R106, 70_reset_and_hazards.md R373; that
one `exec` runs the whole expansion is log 10, the unspecified nibble is log 26). -/
def Obligations.NibbleTransfer : Prop :=
  ∀ (s : State) (m : Bool) (n : Nibble), s.cfg.Legal → s.wordsMapped → ∃ (t : State) (ev : List Event),
    ev = [lineWrite s.cfg s.agent s.cfg.pinE false, lineWrite s.cfg s.agent s.cfg.pinRs m,
      lineWrite s.cfg s.agent s.cfg.pinRw false, .wait s.agent s.cfg.tShortNs,
      lineWrite s.cfg s.agent s.cfg.pinE true, lineWrite s.cfg s.agent s.cfg.pinD4 (n.getLsbD 0),
      lineWrite s.cfg s.agent s.cfg.pinD5 (n.getLsbD 1), lineWrite s.cfg s.agent s.cfg.pinD6 (n.getLsbD 2),
      lineWrite s.cfg s.agent s.cfg.pinD7 (n.getLsbD 3), .wait s.agent s.cfg.tShortNs,
      lineWrite s.cfg s.agent s.cfg.pinE false, .wait s.agent 1000000] ∧
    exec (.lnib m n) s = .next t ∧ t = { s with latch := t.latch, trace := s.trace ++ ev } ∧
    t.latch.length = s.cfg.nPins ∧
    t.level s.cfg.pinE = false ∧ t.level s.cfg.pinRs = m ∧ t.level s.cfg.pinRw = false ∧
    t.level s.cfg.pinD4 = n.getLsbD 0 ∧ t.level s.cfg.pinD5 = n.getLsbD 1 ∧ t.level s.cfg.pinD6 = n.getLsbD 2 ∧
    t.level s.cfg.pinD7 = n.getLsbD 3 ∧
    (∀ p, p < s.cfg.nPins → p ∉ s.cfg.displayPins → t.level p = s.level p) ∧
    (∀ draw, latchedNibbles s.cfg draw ev s.latch =
      (if s.level s.cfg.pinE then [launchNibble draw] else []) ++ [{ rs := m, rw := false, n := n }])

/-- LINS and LCHR are two nibble transfers, high nibble first, in one mode; from E low the display receives the one byte
in that mode, and E is low again (R222, R223, R233, 30_encoding.md R107; log 10). -/
def Obligations.ByteWrites : Prop :=
  ∀ (s : State) (b : Byte), s.cfg.Legal → s.wordsMapped →
    (exec (.lins b) s = execAll [.lnib false (b.extractLsb' 4 4), .lnib false (b.extractLsb' 0 4)] s ∧
      ∃ (t : State) (ev : List Event), exec (.lins b) s = .next t ∧ ev.length = 24 ∧
        t = { s with latch := t.latch, trace := s.trace ++ ev } ∧
        (∀ p, p < s.cfg.nPins → p ∉ s.cfg.displayPins → t.level p = s.level p) ∧ t.level s.cfg.pinE = false ∧
        (s.level s.cfg.pinE = false → ∀ draw, displayBytes s.cfg draw ev s.latch = [(false, b)])) ∧
    (exec (.lchr b) s = execAll [.lnib true (b.extractLsb' 4 4), .lnib true (b.extractLsb' 0 4)] s ∧
      ∃ (t : State) (ev : List Event), exec (.lchr b) s = .next t ∧ ev.length = 24 ∧
        t = { s with latch := t.latch, trace := s.trace ++ ev } ∧
        (∀ p, p < s.cfg.nPins → p ∉ s.cfg.displayPins → t.level p = s.level p) ∧ t.level s.cfg.pinE = false ∧
        (s.level s.cfg.pinE = false → ∀ draw, displayBytes s.cfg draw ev s.latch = [(true, b)]))

/-- LSTR writes the characters before the first 0x00 (or all), one LCHR each; from E low the display receives exactly them
in data mode (R224, 30_encoding.md R112; log 10). -/
def Obligations.StringWrite : Prop :=
  ∀ (s : State) (text : List Byte), s.cfg.Legal → s.wordsMapped →
    exec (.lstr text) s = execAll ((text.takeWhile (· ≠ 0)).map Instr.lchr) s ∧
    ∃ (t : State) (ev : List Event), exec (.lstr text) s = .next t ∧
      ev.length = 24 * (text.takeWhile (· ≠ 0)).length ∧ t = { s with latch := t.latch, trace := s.trace ++ ev } ∧
      (∀ p, p < s.cfg.nPins → p ∉ s.cfg.displayPins → t.level p = s.level p) ∧
      (s.level s.cfg.pinE = false → t.level s.cfg.pinE = false ∧
        ∀ draw, displayBytes s.cfg draw ev s.latch = (text.takeWhile (· ≠ 0)).map fun b => (true, b))

/-- LINIT is the list of R226, and from E low the display receives the five instruction bytes and the placeholder (R226,
R233; log 10). -/
def Obligations.DisplayInitialisation : Prop :=
  ∀ s : State, s.cfg.Legal → s.wordsMapped →
    exec .linit s = execAll [.wait 50000000, .lins s.cfg.cmdFunctionSet, .lins s.cfg.cmdDisplayOn,
      .lins s.cfg.cmdEntryMode, .lins s.cfg.cmdClear, .wait 50000000, .lins s.cfg.cmdLine1, .lstr s.cfg.placeholder] s ∧
    ∃ (t : State) (ev : List Event), exec .linit s = .next t ∧ t = { s with latch := t.latch, trace := s.trace ++ ev } ∧
      (∀ p, p < s.cfg.nPins → p ∉ s.cfg.displayPins → t.level p = s.level p) ∧
      (s.level s.cfg.pinE = false → t.level s.cfg.pinE = false ∧
        ∀ draw, displayBytes s.cfg draw ev s.latch =
          [(false, s.cfg.cmdFunctionSet), (false, s.cfg.cmdDisplayOn), (false, s.cfg.cmdEntryMode),
            (false, s.cfg.cmdClear), (false, s.cfg.cmdLine1)] ++ s.cfg.placeholder.map fun b => (true, b))

/-- LSCHED enqueues a redraw exactly when the block is not cancelled and none is pending, and changes nothing else
(R227). -/
def Obligations.ScheduleRedraw : Prop :=
  ∀ s : State, exec .lsched s = .next { s with redrawPending := s.redrawPending || !s.cancelled }

/-- `dec` writes a reading as its decimal digits, most significant first, with a minus sign exactly for a negative one;
the two lines are the labels and the readings, hold no 0x00 and fit every legal buffer (R225, 30_encoding.md R110, R111,
10_state.md R31). -/
def Obligations.LineText : Prop :=
  (∀ v : Word, (v.toInt = 0 → dec v = [0x30]) ∧
    (0 < v.toInt → dec v = (Nat.digits 10 v.toInt.toNat).reverse.map fun d => BitVec.ofNat 8 (0x30 + d)) ∧
    (v.toInt < 0 → dec v = 0x2D :: (Nat.digits 10 (-v.toInt).toNat).reverse.map fun d => BitVec.ofNat 8 (0x30 + d))) ∧
  (∀ (c : Config) (t h : Word), c.Legal →
    composeLine1 t = [0x54, 0x65, 0x6D, 0x70, 0x65, 0x72, 0x61, 0x74, 0x75, 0x72, 0x65, 0x3A, 0x20] ++ dec t ∧
    composeLine2 h = [0x48, 0x75, 0x6D, 0x69, 0x64, 0x69, 0x74, 0x79, 0x3A, 0x20] ++ dec h ∧
    (composeLine1 t).length < c.lineBufWidth ∧ (composeLine2 h).length < c.lineBufWidth ∧
    (0 : Byte) ∉ composeLine1 t ∧ (0 : Byte) ∉ composeLine2 h)

/-- The start step of a redraw: pending cleared, running set, both readings sampled, the lines composed, the sequence
loaded, no register access (R228, R236). -/
def Obligations.RedrawStart : Prop :=
  ∀ s : State, s.redrawPending = true → s.redrawRunning = false → s.phase = .run →
    exec .lredraw s = .next
      { s with
        agent := .display
        redrawPending := false
        redrawRunning := true
        line1 := composeLine1 s.t
        line2 := composeLine2 s.h
        lcdSeq := expand s.cfg (redrawList s.cfg (composeLine1 s.t) (composeLine2 s.h))
        lcdPc := 0 }

/-- A body micro-step of a redraw, in RUN or CANCELLED, runs the primitive at `lcd_pc`, advances it by one, and ends the
run with the last primitive; nothing else changes (R229, R231, R235, R236). -/
def Obligations.RedrawBody : Prop :=
  ∀ s : State, s.Inv → s.redrawRunning = true → ∃ p, s.lcdSeq[s.lcdPc]? = some p ∧
    exec .lredraw s = .next
      { s with
        agent := .display
        lcdPc := s.lcdPc + 1
        redrawRunning := decide (s.lcdPc + 1 < s.lcdSeq.length)
        latch := p.latch s.cfg s.latch
        trace := s.trace ++ [p.event s.cfg .display] }

/-- The redraw's list: its waits, commands and lines in R229's order, how many primitives and register writes it has, and
the least time it takes (R229, R230, 70_reset_and_hazards.md R376). -/
def Obligations.RedrawCounts : Prop :=
  ∀ (c : Config) (t h : Word), c.Legal →
    expand c (redrawList c (composeLine1 t) (composeLine2 h)) =
      [.wait 1000000] ++ expand c [.lins c.cmdClear] ++ [.wait 50000000] ++ expand c [.lins c.cmdLine1] ++
        expand c ((composeLine1 t).map DisplayOp.lchr) ++ expand c [.lins c.cmdLine2] ++
        expand c ((composeLine2 h).map DisplayOp.lchr) ∧
    (expand c (redrawList c (composeLine1 t) (composeLine2 h))).length =
      2 + 24 * (3 + (composeLine1 t).length + (composeLine2 h).length) ∧
    (expand c (redrawList c (composeLine1 t) (composeLine2 h))).countP Prim.isWrite =
      18 * (3 + (composeLine1 t).length + (composeLine2 h).length) ∧
    totalWaitNs (expand c (redrawList c (composeLine1 t) (composeLine2 h))) =
      1000000 + 50000000 +
        (3 + (composeLine1 t).length + (composeLine2 h).length) * (2 * (2 * c.tShortNs.toNat + 1000000))

/-- Redraw completeness: a queued redraw that gets its turns runs to its end and, from E low, sends the display clear,
line 1, the temperature line, line 2, the humidity line, of the readings at its start step (R234, R229, R233; that the
turns are given is log 23, the index left behind is log 24). -/
def Obligations.RedrawByteStream : Prop :=
  ∀ (s : State) (rest : List Turn) (n : Nat), s.Inv → s.redrawPending = true → s.redrawRunning = false →
    s.level s.cfg.pinE = false →
    n = 2 + 24 * (3 + (composeLine1 s.t).length + (composeLine2 s.h).length) →
    s.schedule = List.replicate (n + 1) (.run .display) ++ rest → ∃ (t : State) (ev : List Event),
    run (n + 1) s = .next t ∧
    t = { s with
      schedule := rest
      agent := .display
      redrawPending := false
      line1 := composeLine1 s.t
      line2 := composeLine2 s.h
      lcdSeq := expand s.cfg (redrawList s.cfg (composeLine1 s.t) (composeLine2 s.h))
      lcdPc := n
      latch := t.latch
      trace := s.trace ++ ev } ∧
    t.level s.cfg.pinE = false ∧
    ev.countP Event.isWrite = 18 * (3 + (composeLine1 s.t).length + (composeLine2 s.h).length) ∧
    ∀ draw, displayBytes s.cfg draw ev s.latch =
      [(false, s.cfg.cmdClear), (false, s.cfg.cmdLine1)] ++ (composeLine1 s.t).map (fun b => (true, b)) ++
        [(false, s.cfg.cmdLine2)] ++ (composeLine2 s.h).map fun b => (true, b)

/-- WAIT leaves its event and changes no state (R237; that time itself is not modelled is log 15). -/
def Obligations.DelayResult : Prop :=
  ∀ (s : State) (ns : Word), exec (.wait ns) s = .next { s with trace := s.trace ++ [.wait s.agent ns] }

/-! ## The Control Surface (45_control_surface.md) -/

/-- ATTACH in RESET with no attach running loads the INIT agent's sequencer with ATTACH_LIST: MAP of AttachWords in
ascending order without duplicates, the eleven CFGOUT, the initialisation, the finish (R261, 10_state.md R42; log 11). -/
def Obligations.AttachAccepted : Prop :=
  (∀ s : State, s.phase = .reset → s.initRunning = false →
    exec .attach s = .next { s with initRunning := true, initPc := 0, initSeq := attachList s.cfg }) ∧
  (∀ c : Config, attachList c =
    (attachWords c).map (fun a => InitOp.op (.map a)) ++
    [c.pinGreen, c.pinYellow, c.pinRed, c.pinAlarm, c.pinRs, c.pinRw, c.pinE, c.pinD4, c.pinD5, c.pinD6, c.pinD7].map
      (fun p => InitOp.op (.cfgout (BitVec.ofNat 8 p))) ++
    (expand c [.wait 50000000, .lins c.cmdFunctionSet, .lins c.cmdDisplayOn, .lins c.cmdEntryMode, .lins c.cmdClear,
      .wait 50000000, .lins c.cmdLine1, .lstr c.placeholder]).map (fun p => InitOp.op p.toInstr) ++ [InitOp.finish]) ∧
  (∀ c : Config, (attachWords c).Pairwise (fun a b => a.toNat < b.toNat) ∧ ∀ a, a ∈ attachWords c ↔
    ∃ p ∈ c.pins, a = fselAddr c (p / 10) ∨ a = setAddr c (p / 32) ∨ a = clrAddr c (p / 32))

/-- An accepted attach whose words all map runs to its end in as many INIT turns as its list is long: the phase is RUN,
exactly AttachWords are mapped, the eleven pins are outputs and drive their latches, every other pin's field and every LED
and alarm latch is as it was, the timer is armed, E is low, and the display has taken the nibbles of LINIT's bytes, after
one nibble of unspecified content where E was high before, which shifts every pair (R261, 70_reset_and_hazards.md R355,
R357, R373; the unspecified nibble is log 26, that the turns are given is log 23, the index left behind is log 24). -/
def Obligations.AttachCompletes : Prop :=
  ∀ (s : State) (rest : List Turn), s.Inv → s.initRunning = true → s.initPc = 0 →
    (∀ a ∈ attachWords s.cfg, a ∉ s.cfg.unmappable) →
    s.schedule = List.replicate (attachList s.cfg).length (.run .init) ++ rest → ∃ (t : State) (ev : List Event),
    run (attachList s.cfg).length s = .next t ∧
    t = { s with
      schedule := rest
      agent := .init
      phase := .run
      initRunning := false
      initPc := (attachList s.cfg).length
      timerArmed := true
      mapped := attachWords s.cfg
      mem := t.mem
      latch := t.latch
      trace := s.trace ++ ev ++ [.timerArm 500000000, .status 0x01 (.ok none)] } ∧
    (∀ p ∈ s.cfg.pins, t.fselField p = s.cfg.fselOutput ∧ t.pad p = .driven (t.level p)) ∧
    (∀ p, p < s.cfg.nPins → p ∉ s.cfg.pins → t.fselField p = s.fselField p) ∧
    (∀ p, p < s.cfg.nPins → p ∉ s.cfg.displayPins → t.level p = s.level p) ∧
    t.level s.cfg.pinE = false ∧
    ∀ draw, ∃ nibbles : List Latched,
      latchedNibbles s.cfg draw ev s.latch =
        (if s.level s.cfg.pinE then [launchNibble draw] else []) ++ nibbles ∧
      nibbles.length = 2 * (5 + s.cfg.placeholder.length) ∧
      pairNibbles nibbles =
        [(false, s.cfg.cmdFunctionSet), (false, s.cfg.cmdDisplayOn), (false, s.cfg.cmdEntryMode),
          (false, s.cfg.cmdClear), (false, s.cfg.cmdLine1)] ++ s.cfg.placeholder.map fun b => (true, b)

/-- SETT in RUN stores the reading, then evaluates the alarm on it, in one step; no LED, no redraw (R262,
43_alarm.md R201, 42_blink.md R187; the status event is log 8). -/
def Obligations.SetTemperature : Prop :=
  ∀ (s : State) (v : Word), s.phase = .run →
    exec (.sett v) s = .next
      { s with
        t := v
        alarmPending := s.alarmPending || (decide (30 < v.toInt) && !s.cancelled)
        trace := s.trace ++ [.status 0x02 (.ok none)] }

/-- SETTX in RUN: a text that parses has SETT's effect and counts all its bytes; any other changes nothing but the trace
(R263, R266, R267, 60_exceptions.md R303, R327; log 8). -/
def Obligations.SetTemperatureText : Prop :=
  ∀ (s : State) (text : List Byte), s.phase = .run →
    (∀ v, parseDec text = some v → exec (.settx text) s = .next
      { s with
        t := v
        alarmPending := s.alarmPending || (decide (30 < v.toInt) && !s.cancelled)
        trace := s.trace ++ [.status 0x06 (.ok (some text.length))] }) ∧
    (parseDec text = none →
      exec (.settx text) s = .next { s with trace := s.trace ++ [.status 0x06 .invalidInput] })

/-- SETH in RUN stores the reading, then schedules a redraw, in one step; no alarm, no LED (R264, 44_lcd.md R227;
log 8). -/
def Obligations.SetHumidity : Prop :=
  ∀ (s : State) (v : Word), s.phase = .run →
    exec (.seth v) s = .next
      { s with
        h := v
        redrawPending := s.redrawPending || !s.cancelled
        trace := s.trace ++ [.status 0x03 (.ok none)] }

/-- SETHX in RUN: a text that parses has SETH's effect and counts all its bytes; any other changes nothing but the trace
(R265 to R267, 60_exceptions.md R303, R327; log 8). -/
def Obligations.SetHumidityText : Prop :=
  ∀ (s : State) (text : List Byte), s.phase = .run →
    (∀ v, parseDec text = some v → exec (.sethx text) s = .next
      { s with
        h := v
        redrawPending := s.redrawPending || !s.cancelled
        trace := s.trace ++ [.status 0x07 (.ok (some text.length))] }) ∧
    (parseDec text = none →
      exec (.sethx text) s = .next { s with trace := s.trace ++ [.status 0x07 .invalidInput] })

/-- ParseDec accepts exactly: an optional sign, one or more digits, at most one trailing newline, with a value a reading
can hold; the result is that value (R266). -/
def Obligations.ParseGrammar : Prop :=
  ∀ (text : List Byte) (v : Word), parseDec text = some v ↔ ∃ sign digits newline : List Byte,
    text = sign ++ digits ++ newline ∧ (sign = [] ∨ sign = [0x2B] ∨ sign = [0x2D]) ∧
    (newline = [] ∨ newline = [0x0A]) ∧ digits ≠ [] ∧ (∀ d ∈ digits, 0x30 ≤ d.toNat ∧ d.toNat ≤ 0x39) ∧
    v.toInt = if sign = [0x2D] then -digitsValue digits else digitsValue digits

/-- What the block displays of a reading parses back to that reading (R266, 30_encoding.md R110). -/
def Obligations.ParseOfDec : Prop :=
  ∀ v : Word, parseDec (dec v) = some v ∧ parseDec (dec v ++ [0x0A]) = some v

/-- CANCEL sets `cancelled`, leaves RUN, stops the timer and drops queued work, and touches nothing else (R269). -/
def Obligations.CancelSignal : Prop :=
  ∀ s : State, exec .cancel s = .next
    { s with cancelled := true, phase := .cancelled, timerArmed := false, alarmPending := false, redrawPending := false }

/-- DETACH in RUN takes the cancel step at once; no pin, word or running item is touched, and the status comes later
(R268, R269). -/
def Obligations.DetachCancels : Prop :=
  ∀ s : State, s.phase = .run → exec .detach s = .next
    { s with cancelled := true, phase := .cancelled, timerArmed := false, alarmPending := false, redrawPending := false }

/-- UNMAPALL in CANCELLED with nothing running unmaps AttachWords in descending order, ends in DETACHED and reports
DETACH's OK; the FSEL words and the latches stay (R270, 40_register_access.md R142, 10_state.md R41 d). -/
def Obligations.Teardown : Prop :=
  ∀ s : State, s.phase = .cancelled → s.alarmRunning = false → s.redrawRunning = false → s.mapped = attachWords s.cfg →
    exec .unmapall s = .next
      { s with
        agent := .teardown
        mapped := []
        phase := .detached
        trace := s.trace ++ (attachWords s.cfg).reverse.map Event.unmap ++ [.status 0x04 (.ok none)] }

/-- A host command in a phase that does not accept it ends with NotReady and changes nothing but the trace (R271,
60_exceptions.md R305; log 8). -/
def Obligations.WrongPhaseIsNotReady : Prop :=
  ∀ s : State,
    (¬(s.phase = .reset ∧ s.initRunning = false) →
      exec .attach s = .next { s with trace := s.trace ++ [.status 0x01 (.notReady s.phase)] }) ∧
    (s.phase ≠ .run →
      (∀ v, exec (.sett v) s = .next { s with trace := s.trace ++ [.status 0x02 (.notReady s.phase)] }) ∧
      (∀ v, exec (.seth v) s = .next { s with trace := s.trace ++ [.status 0x03 (.notReady s.phase)] }) ∧
      exec .detach s = .next { s with trace := s.trace ++ [.status 0x04 (.notReady s.phase)] } ∧
      (∀ text, exec (.settx text) s = .next { s with trace := s.trace ++ [.status 0x06 (.notReady s.phase)] }) ∧
      ∀ text, exec (.sethx text) s = .next { s with trace := s.trace ++ [.status 0x07 (.notReady s.phase)] })

/-! ## The whole machine -/

/-- No operation but WRW, RMW and CFGOUT changes a byte of the register space, and no operation changes the parameters
(20_memory.md R72 to R76, 10_state.md R39); nor does any change the schedule, the model's own field (log 5). -/
def Obligations.OtherFormsStoreNothing : Prop :=
  ∀ (i : Instr) (s t : State), s.cfg.Legal → exec i s = .next t →
    t.cfg = s.cfg ∧ t.schedule = s.schedule ∧
    ((∀ a v, i ≠ .wrw a v) → (∀ a clr set, i ≠ .rmw a clr set) → (∀ p, i ≠ .cfgout p) →
      ∀ a, t.mem.readByte a = s.mem.readByte a)

/-- The invariant of 10_state.md R41 (a) to (e), with R32, R42 and the canonical register space, holds after a reset of any
legal configuration with any launch contents (R40, R351), and of the model's own reset state (log 1, log 2). -/
def Obligations.InvariantAtReset : Prop :=
  (∀ (c : Config) (fsel0 : Memory) (latch0 : List Bool), c.Legal → fsel0.wf → latch0.length = c.nPins →
    (State.resetWith c fsel0 latch0).Inv) ∧ State.reset.Inv

/-- Every step keeps that invariant, whatever turn it takes (10_state.md R41, R32, R42). -/
def Obligations.InvariantKept : Prop :=
  ∀ s t : State, s.Inv → step s = .next t → t.Inv

/-- From a state with that invariant no run ever stops: the block's own sequences raise no UnmappedAccess, DoubleMap,
BadUnmap or BadPin, whatever the host presents and whatever the schedule (60_exceptions.md R306 to R310, R328,
70_reset_and_hazards.md R361). -/
def Obligations.NeverStops : Prop :=
  ∀ s : State, s.Inv → SafeFrom s

/-- The four transitions of the phase happen at the steps R337 names, there is no other, and a reset leads to RESET from
anywhere (R337). -/
def Obligations.PhaseTransitions : Prop :=
  ∀ s t : State, s.Inv → step s = .next t →
    (s.nextTurn = .reset → t.phase = .reset) ∧
    (s.nextTurn = .run .init → s.initRunning = true → s.initSeq[s.initPc]? = some .finish →
      s.phase = .reset ∧ t.phase = .run) ∧
    (s.nextTurn = .run .init → s.initRunning = true → ∀ a, s.initSeq[s.initPc]? = some (.op (.map a)) →
      a ∈ s.cfg.unmappable → s.phase = .reset ∧ t.phase = .failed) ∧
    (s.nextTurn = .command 0x04 [] → s.phase = .run → t.phase = .cancelled) ∧
    (s.nextTurn = .run .teardown → s.phase = .cancelled → s.alarmRunning = false → s.redrawRunning = false →
      t.phase = .detached) ∧
    (t.phase ≠ s.phase →
      s.nextTurn = .reset ∨
      (s.nextTurn = .run .init ∧ s.initRunning = true ∧ s.phase = .reset ∧ s.initSeq[s.initPc]? = some .finish ∧
        t.phase = .run) ∨
      (s.nextTurn = .run .init ∧ s.initRunning = true ∧ s.phase = .reset ∧ t.phase = .failed ∧
        ∃ a, s.initSeq[s.initPc]? = some (.op (.map a)) ∧ t.trace.getLast? = some (.status 0x01 (.mapError a))) ∨
      (s.nextTurn = .command 0x04 [] ∧ s.phase = .run ∧ t.phase = .cancelled) ∨
      (s.nextTurn = .run .teardown ∧ s.phase = .cancelled ∧ t.phase = .detached))

/-- After the cancel signal nothing re-arms: until a reset the timer stays stopped, no work becomes pending, `cancelled`
stays and no step arms the timer (10_state.md R32, 42_blink.md R186, 43_alarm.md R207, 44_lcd.md R235,
45_control_surface.md R269). -/
def Obligations.NothingRearmsAfterCancel : Prop :=
  ∀ s t : State, s.Inv → s.cancelled = true → s.nextTurn ≠ .reset → step s = .next t →
    t.cancelled = true ∧ t.timerArmed = false ∧ t.alarmPending = false ∧ t.redrawPending = false ∧
    (s.alarmRunning = false → t.alarmRunning = false) ∧ (s.redrawRunning = false → t.redrawRunning = false) ∧
    ∃ ev, t.trace = s.trace ++ ev ∧ ∀ ns, Event.timerArm ns ∉ ev

/-- Every step but a reset only appends to the trace, and no step changes the parameters (10_state.md R38, R39). -/
def Obligations.TraceOnlyGrows : Prop :=
  ∀ s t : State, step s = .next t → t.cfg = s.cfg ∧ (s.nextTurn ≠ .reset → ∃ ev, t.trace = s.trace ++ ev)

/-- Outside a running attach no step reads a register or touches a function-select word (41_gpio_pin.md R168,
60_exceptions.md R346, 70_reset_and_hazards.md R360, R362). -/
def Obligations.FselOnlyDuringAttach : Prop :=
  ∀ s t : State, s.Inv → s.initRunning = false → step s = .next t →
    t.mem = s.mem ∧ (s.nextTurn ≠ .reset → ∃ ev, t.trace = s.trace ++ ev ∧
      ∀ (g : Agent) (a v : Word), Event.regRead g a v ∉ ev ∧
        (Event.regWrite g a v ∈ ev → ∀ i, i < s.cfg.nFsel → a ≠ fselAddr s.cfg i))

/-- Each agent drives only its own pins: BLINK the LEDs, ALARM the alarm pin, DISPLAY and INIT the display pins, and no
other step changes a latch (41_gpio_pin.md R169, 44_lcd.md R231, 60_exceptions.md R346). -/
def Obligations.AgentsDriveOwnPins : Prop :=
  ∀ (s t : State) (p : Nat), s.Inv → step s = .next t → p < s.cfg.nPins → t.level p ≠ s.level p →
    (s.nextTurn = .run .blink ∧ p ∈ s.cfg.ledPins) ∨ (s.nextTurn = .run .alarm ∧ p = s.cfg.pinAlarm) ∨
    ((s.nextTurn = .run .display ∨ s.nextTurn = .run .init) ∧ p ∈ s.cfg.displayPins)

/-- The alarm pin is high only between index 0 and index 2 of a pulse: after a reset with that latch low, and kept by every
step but a reset (10_state.md R41 f). -/
def Obligations.AlarmPinOnlyInPulse : Prop :=
  (∀ (c : Config) (fsel0 : Memory) (latch0 : List Bool), levelOf latch0 c.pinAlarm = false →
    (State.resetWith c fsel0 latch0).AlarmPinInv) ∧
  (∀ s t : State, s.Inv → s.AlarmPinInv → s.nextTurn ≠ .reset → step s = .next t → t.AlarmPinInv)
end

