-- ==== Sys2Proof/Laws/Addresses.lean ====
section
/-! SUPPORT. The register map under a legal configuration: where each word stands, what `target` says of it, and the set of
words an attach maps. -/

namespace Sys2Proof.Machine

/-! ## Pins and words -/

theorem fselWord_lt {c : Config} {p : Nat} (h : p < c.nPins) : fselWord p < c.nFsel := by
  unfold fselWord Config.nFsel; omega

theorem scWord_lt {c : Config} {p : Nat} (h : p < c.nPins) : scWord p < c.nSet := by
  unfold scWord Config.nSet; omega

theorem scBit_lt (p : Nat) : scBit p < 32 := by unfold scBit; omega

theorem fselShift_le (p : Nat) : fselShift p ≤ 27 := by unfold fselShift; omega

/-- Two pins with one word and one bit are one pin. -/
theorem pin_eq_of_sc {p q : Nat} (hw : scWord p = scWord q) (hb : scBit p = scBit q) : p = q := by
  unfold scWord at hw; unfold scBit at hb; omega

theorem scIndex_toNat {c : Config} (h : c.Legal) {p : Nat} (hp : p < c.nPins) : (scIndex p).toNat = scWord p := by
  have := h.nPins_le
  simp only [scIndex, BitVec.toNat_ofNat, scWord]
  omega

theorem pin_toNat {c : Config} (h : c.Legal) {p : Nat} (hp : p < c.nPins) : (BitVec.ofNat 8 p).toNat = p := by
  have := h.nPins_le
  simp only [BitVec.toNat_ofNat]
  omega

/-! ## Addresses (20_memory.md R61) -/

theorem fselAddr_toNat {c : Config} (h : c.Legal) {i : Nat} (hi : i < c.nFsel) :
    (fselAddr c i).toNat = c.fselFirst + 4 * i := by
  have := h.fsel_fits
  simp only [fselAddr, BitVec.toNat_ofNat]
  omega

theorem setAddr_toNat {c : Config} (h : c.Legal) {j : Nat} (hj : j < c.nSet) : (setAddr c j).toNat = c.setFirst + 4 * j := by
  have := h.set_fits
  simp only [setAddr, BitVec.toNat_ofNat]
  omega

theorem clrAddr_toNat {c : Config} (h : c.Legal) {j : Nat} (hj : j < c.nSet) : (clrAddr c j).toNat = c.clrFirst + 4 * j := by
  have := h.clr_fits
  simp only [clrAddr, BitVec.toNat_ofNat]
  omega

theorem fselAddr_aligned {c : Config} (h : c.Legal) {i : Nat} (hi : i < c.nFsel) : (fselAddr c i).toNat % 4 = 0 := by
  have := h.base_aligned
  have := h.fsel_aligned
  rw [fselAddr_toNat h hi, Config.fselFirst]
  omega

theorem setAddr_aligned {c : Config} (h : c.Legal) {j : Nat} (hj : j < c.nSet) : (setAddr c j).toNat % 4 = 0 := by
  have := h.base_aligned
  have := h.set_aligned
  rw [setAddr_toNat h hj, Config.setFirst]
  omega

theorem clrAddr_aligned {c : Config} (h : c.Legal) {j : Nat} (hj : j < c.nSet) : (clrAddr c j).toNat % 4 = 0 := by
  have := h.base_aligned
  have := h.clr_aligned
  rw [clrAddr_toNat h hj, Config.clrFirst]
  omega

/-- Two function-select words stand at two addresses. -/
theorem fselAddr_inj {c : Config} (h : c.Legal) {i k : Nat} (hi : i < c.nFsel) (hk : k < c.nFsel)
    (he : fselAddr c i = fselAddr c k) : i = k := by
  have := congrArg BitVec.toNat he
  rw [fselAddr_toNat h hi, fselAddr_toNat h hk] at this
  omega

/-! ## What stands at an address (20_memory.md R70) -/

theorem bankIndex_at (first n i : Nat) (h : i < n) : bankIndex first n (first + 4 * i) = some i := by
  unfold bankIndex
  rw [if_pos (by omega)]
  congr 1
  omega

theorem bankIndex_none {first n addr : Nat} (h : addr < first ∨ first + 4 * n ≤ addr) : bankIndex first n addr = none := by
  unfold bankIndex
  rw [if_neg (by omega)]

theorem bankIndex_some {first n addr i : Nat} (h : bankIndex first n addr = some i) : i < n ∧ addr = first + 4 * i := by
  unfold bankIndex at h
  split at h
  · simp only [Option.some.injEq] at h
    omega
  · cases h

theorem target_fselAddr {c : Config} (h : c.Legal) {i : Nat} (hi : i < c.nFsel) : target c (fselAddr c i) = .fsel i := by
  unfold target
  rw [fselAddr_toNat h hi, bankIndex_at _ _ _ hi]

theorem target_setAddr {c : Config} (h : c.Legal) {j : Nat} (hj : j < c.nSet) : target c (setAddr c j) = .set j := by
  have := h.fsel_set_apart
  unfold Config.banksApart at this
  unfold target
  rw [setAddr_toNat h hj, bankIndex_none (by omega), bankIndex_at _ _ _ hj]

theorem target_clrAddr {c : Config} (h : c.Legal) {j : Nat} (hj : j < c.nSet) : target c (clrAddr c j) = .clr j := by
  have h1 := h.fsel_clr_apart
  have h2 := h.set_clr_apart
  unfold Config.banksApart at h1 h2
  unfold target
  rw [clrAddr_toNat h hj, bankIndex_none (by omega), bankIndex_none (by omega), bankIndex_at _ _ _ hj]

/-- Only a function-select word's own address leads to it. -/
theorem target_eq_fsel {c : Config} (h : c.Legal) {a : Word} {i : Nat} (ht : target c a = .fsel i) :
    i < c.nFsel ∧ a = fselAddr c i := by
  unfold target at ht
  split at ht
  · next k hk =>
    obtain ⟨h1, h2⟩ := bankIndex_some hk
    cases ht
    exact ⟨h1, BitVec.eq_of_toNat_eq (by rw [fselAddr_toNat h h1, h2])⟩
  · split at ht
    · cases ht
    · split at ht <;> cases ht

/-! ## The set of mapped words (10_state.md R33) -/

theorem mem_insertAddr {a b : Word} {l : List Word} : b ∈ insertAddr a l ↔ b = a ∨ b ∈ l := by
  induction l with
  | nil => simp [insertAddr]
  | cons x l ih =>
    simp only [insertAddr]
    split
    · simp
    · split
      · next h => subst h; simp
      · simp only [List.mem_cons, ih]
        tauto

/-- The rising order of a set of addresses. -/
abbrev Rising (l : List Word) : Prop := List.Pairwise (fun a b => a.toNat < b.toNat) l

theorem Rising.nodup {l : List Word} (h : Rising l) : l.Nodup :=
  h.imp fun {a b} hab he => by rw [he] at hab; exact lt_irrefl _ hab

theorem rising_insertAddr {a : Word} {l : List Word} (h : Rising l) : Rising (insertAddr a l) := by
  induction l with
  | nil => simp [insertAddr]
  | cons x l ih =>
    have hx := (List.pairwise_cons.mp h).1
    simp only [insertAddr]
    split
    · next hlt =>
      refine List.pairwise_cons.mpr ⟨fun b hb => ?_, h⟩
      rcases List.mem_cons.mp hb with rfl | hb
      · exact hlt
      · exact lt_trans hlt (hx b hb)
    · split
      · exact h
      · next hnlt hne =>
        refine List.pairwise_cons.mpr ⟨fun b hb => ?_, ih (List.pairwise_cons.mp h).2⟩
        rcases mem_insertAddr.mp hb with rfl | hb
        · have : x.toNat ≠ b.toNat := fun he => hne (BitVec.eq_of_toNat_eq he).symm
          omega
        · exact hx b hb

/-- An address above all others goes to the end. -/
theorem insertAddr_above {a : Word} {l : List Word} (h : ∀ b ∈ l, b.toNat < a.toNat) : insertAddr a l = l ++ [a] := by
  induction l with
  | nil => rfl
  | cons x l ih =>
    have hx := h x (by simp)
    rw [insertAddr, if_neg (by omega), if_neg (by rintro rfl; omega), ih fun b hb => h b (by simp [hb])]
    rfl

theorem mem_removeAddr {a b : Word} {l : List Word} : b ∈ removeAddr a l ↔ b ∈ l ∧ b ≠ a := by
  simp [removeAddr]

/-- Taking the last address of a rising list out of it. -/
theorem removeAddr_append_last {a : Word} {l : List Word} (h : a ∉ l) : removeAddr a (l ++ [a]) = l := by
  unfold removeAddr
  rw [List.filter_append]
  have : l.filter (fun b => decide (b ≠ a)) = l :=
    List.filter_eq_self.mpr fun b hb => by
      have : b ≠ a := fun he => h (he ▸ hb)
      simp [this]
  rw [this]
  simp

/-! ## AttachWords (45_control_surface.md R261) -/

theorem mem_foldr_insertAddr {a : Word} {l : List Word} : a ∈ l.foldr insertAddr [] ↔ a ∈ l := by
  induction l with
  | nil => simp
  | cons x l ih => simp [mem_insertAddr, ih]

theorem mem_attachWords {c : Config} {a : Word} : a ∈ attachWords c ↔ ∃ p ∈ c.pins, a ∈ pinAddrs c p := by
  unfold attachWords
  rw [mem_foldr_insertAddr, List.mem_flatMap]

theorem rising_attachWords (c : Config) : Rising (attachWords c) := by
  unfold attachWords
  induction c.pins.flatMap (pinAddrs c) with
  | nil => simp
  | cons x l ih => exact rising_insertAddr ih

theorem fselAddr_mem_attachWords {c : Config} {p : Nat} (hp : p ∈ c.pins) : fselAddr c (fselWord p) ∈ attachWords c :=
  mem_attachWords.mpr ⟨p, hp, by simp [pinAddrs]⟩

theorem setAddr_mem_attachWords {c : Config} {p : Nat} (hp : p ∈ c.pins) : setAddr c (scWord p) ∈ attachWords c :=
  mem_attachWords.mpr ⟨p, hp, by simp [pinAddrs]⟩

theorem clrAddr_mem_attachWords {c : Config} {p : Nat} (hp : p ∈ c.pins) : clrAddr c (scWord p) ∈ attachWords c :=
  mem_attachWords.mpr ⟨p, hp, by simp [pinAddrs]⟩

/-- Every word an attach maps is aligned (20_memory.md R64). -/
theorem attachWords_aligned {c : Config} (h : c.Legal) {a : Word} (ha : a ∈ attachWords c) : a.toNat % 4 = 0 := by
  obtain ⟨p, hp, ha⟩ := mem_attachWords.mp ha
  have hlt := h.pins_lt p hp
  simp only [pinAddrs, List.mem_cons, List.not_mem_nil, or_false] at ha
  rcases ha with rfl | rfl | rfl
  · exact fselAddr_aligned h (fselWord_lt hlt)
  · exact setAddr_aligned h (scWord_lt hlt)
  · exact clrAddr_aligned h (scWord_lt hlt)

end Sys2Proof.Machine
end

