-- ==== Sys2Proof/Laws/Decode.lean ====
section
/-! SUPPORT. The fields of an operation word: reading one back after writing it, and writing one back after reading it
(30_encoding.md R120 to R125). -/

namespace Sys2Proof

/-- The four bytes of a word, put together again. -/
theorem word_of_bytes (v : Word) :
    (v.extractLsb' 24 8 ++ v.extractLsb' 16 8 ++ v.extractLsb' 8 8 ++ v.extractLsb' 0 8 : BitVec 32) = v := by
  apply BitVec.eq_of_getLsbD_eq
  intro i hi
  simp only [BitVec.getLsbD_append, BitVec.getLsbD_extractLsb']
  by_cases h1 : i < 8
  · simp [h1]
  · by_cases h2 : i - 8 < 8
    · simp [h1, h2, show 8 + (i - 8) = i by omega]
    · by_cases h3 : i - 8 - 8 < 8
      · simp [h1, h2, h3, show 16 + (i - 8 - 8) = i by omega]
      · simp [h1, h2, h3, show 24 + (i - 8 - 8 - 8) = i by omega, show i - 8 - 8 - 8 < 8 by omega]

theorem takeWord_wordBytes (w : Word) (rest : List Byte) : takeWord (wordBytes w ++ rest) = some (w, rest) := by
  simp only [wordBytes, takeWord, List.cons_append, List.nil_append]
  rw [word_of_bytes]

theorem takeByte_cons (b : Byte) (rest : List Byte) : takeByte (b :: rest) = some (b, rest) := rfl

theorem takeText_textBytes {text : List Byte} (rest : List Byte) : takeText text.length (text ++ rest) = some (text, rest) := by
  induction text with
  | nil => rfl
  | cons b text ih => simp [takeText, ih]

/-- The length byte of a text that fits says its length. -/
theorem lengthByte_toNat {text : List Byte} (h : textFits text = true) : (BitVec.ofNat 8 text.length).toNat = text.length := by
  have : text.length ≤ 255 := by simpa [textFits] using h
  simp only [BitVec.toNat_ofNat]
  omega

theorem readNibbleOperand_nibbleByte (build : Bool → Nibble → Instr) (op : Byte) (m : Bool) (n : Nibble) (rest : List Byte) :
    readNibbleOperand build op (nibbleByte m n) rest = .ok (build m n, rest) := by
  have h1 : (nibbleByte m n).extractLsb' 5 3 = 0 := by revert m n; decide
  have h2 : (nibbleByte m n).getLsbD 4 = m := by revert m n; decide
  have h3 : (nibbleByte m n).extractLsb' 0 4 = n := by revert m n; decide
  rw [readNibbleOperand, if_pos h1, h2, h3]

/-- Four bytes read as a word are that word's bytes. -/
theorem takeWord_eq_some {bytes rest : List Byte} {w : Word} (h : takeWord bytes = some (w, rest)) :
    bytes = wordBytes w ++ rest := by
  match bytes, h with
  | b3 :: b2 :: b1 :: b0 :: tail, h =>
    simp only [takeWord, Option.some.injEq, Prod.mk.injEq] at h
    obtain ⟨rfl, rfl⟩ := h
    have e (k : Nat) (hk : k + 8 ≤ 32) (b : Byte)
        (hb : ∀ i, i < 8 → (b3 ++ b2 ++ b1 ++ b0 : BitVec 32).getLsbD (k + i) = b.getLsbD i) :
        (b3 ++ b2 ++ b1 ++ b0 : BitVec 32).extractLsb' k 8 = b := by
      apply BitVec.eq_of_getLsbD_eq
      intro i hi
      rw [BitVec.getLsbD_extractLsb', hb i hi]
      simp [hi]
    simp only [wordBytes, List.cons_append, List.nil_append, List.cons.injEq, and_true]
    refine ⟨(e 24 (by omega) b3 fun i hi => ?_).symm, (e 16 (by omega) b2 fun i hi => ?_).symm,
      (e 8 (by omega) b1 fun i hi => ?_).symm, (e 0 (by omega) b0 fun i hi => ?_).symm⟩ <;>
    simp only [BitVec.getLsbD_append]
    · rw [if_neg (by omega), if_neg (by omega), if_neg (by omega)]
      congr 1; omega
    · rw [if_neg (by omega), if_neg (by omega), if_pos (by omega)]
      congr 1; omega
    · rw [if_neg (by omega), if_pos (by omega)]
      congr 1; omega
    · rw [if_pos (by omega)]
      congr 1; omega

theorem takeByte_eq_some {bytes rest : List Byte} {b : Byte} (h : takeByte bytes = some (b, rest)) : bytes = b :: rest := by
  cases bytes with
  | nil => cases h
  | cons x tail =>
    simp only [takeByte, Option.some.injEq, Prod.mk.injEq] at h
    rw [h.1, h.2]

theorem takeText_eq_some {len : Nat} {bytes rest text : List Byte} (h : takeText len bytes = some (text, rest)) :
    text.length = len ∧ bytes = text ++ rest := by
  induction len generalizing bytes text with
  | zero => cases h; exact ⟨rfl, rfl⟩
  | succ len ih =>
    cases bytes with
    | nil => cases h
    | cons b bytes =>
      simp only [takeText] at h
      split at h
      · next he =>
        cases h
        obtain ⟨hl, rfl⟩ := ih he
        exact ⟨by simp [hl], rfl⟩
      · cases h

/-- A format N byte without reserved bits is the one its mode and nibble make. -/
theorem nibbleByte_of_fields (b : Byte) (h : b.extractLsb' 5 3 = 0) :
    nibbleByte (b.getLsbD 4) (b.extractLsb' 0 4) = b := by
  revert b; decide

/-! ## Rows of the opcode map (30_encoding.md R128) -/

/-- The row of every operation's opcode, and that no other row shares it. -/
theorem lookup_opcode (i : Instr) : opcodeRows.lookup i.opcode = some (match i with
    | .attach => .z .attach
    | .sett _ => .w .sett
    | .seth _ => .w .seth
    | .detach => .z .detach
    | .cancel => .z .cancel
    | .settx _ => .t .settx
    | .sethx _ => .t .sethx
    | .unmapall => .z .unmapall
    | .map _ => .w .map
    | .unmap _ => .w .unmap
    | .rdw _ => .w .rdw
    | .wrw _ _ => .ww .wrw
    | .rmw _ _ _ => .www .rmw
    | .cfgout _ => .p .cfgout
    | .setp _ _ => .m .setp
    | .clrp _ _ => .m .clrp
    | .btick => .z .btick
    | .aeval => .z .aeval
    | .apulse => .z .apulse
    | .lnib _ _ => .n .lnib
    | .lins _ => .b .lins
    | .lchr _ => .b .lchr
    | .lstr _ => .t .lstr
    | .linit => .z .linit
    | .lsched => .z .lsched
    | .lredraw => .z .lredraw
    | .wait _ => .w .wait) := by
  cases i <;> rfl

theorem decodeWhole_eq_ok {op : Byte} {operands : List Byte} {i : Instr} (h : decodeWhole op operands = .ok i) :
    decode (op :: operands) = .ok (i, []) := by
  unfold decodeWhole at h
  split at h
  · next j hj => cases h; exact hj
  · cases h
  · cases h

/-- What decodes does so by a row of the opcode map. -/
theorem decode_eq_ok {op : Byte} {bytes rest : List Byte} {i : Instr} (h : decode (op :: bytes) = .ok (i, rest)) :
    ∃ f, (op, f) ∈ opcodeRows ∧ decodeOperands op bytes f = .ok (i, rest) := by
  simp only [decode] at h
  split at h
  · next f hf =>
    obtain ⟨l1, l2, he, -⟩ := List.lookup_eq_some_iff.mp hf
    exact ⟨f, by rw [he]; simp, h⟩
  · cases h

/-- DETACH's word is its opcode byte. -/
theorem detach_word {op : Byte} {operands : List Byte} (h : decodeWhole op operands = .ok .detach) :
    op = 0x04 ∧ operands = [] := by
  obtain ⟨f, hmem, hf⟩ := decode_eq_ok (decodeWhole_eq_ok h)
  simp only [opcodeRows, controlRows, registerRows, actuatorRows, List.cons_append, List.nil_append, List.mem_cons,
    Prod.mk.injEq, List.not_mem_nil, or_false] at hmem
  casesm* _ ∨ _ <;> obtain ⟨rfl, rfl⟩ := ‹_ ∧ _› <;> simp only [decodeOperands, readNibbleOperand] at hf <;>
    (repeat' split at hf) <;> simp_all

end Sys2Proof
end

