-- ==== Sys2Proof/Laws/Latch.lean ====
section
/-! SUPPORT. What a register write does to each latch (20_memory.md R72 to R74). -/

namespace Sys2Proof.Machine

@[simp] theorem driveMasked_length (n j : Nat) (mask : Word) (v : Bool) (l : List Bool) :
    (driveMasked n j mask v l).length = n := by simp [driveMasked]

/-- A pin below the bound takes the level if the mask names it and keeps its own otherwise. -/
theorem levelOf_driveMasked {n p : Nat} (hp : p < n) (j : Nat) (mask : Word) (v : Bool) (l : List Bool) :
    levelOf (driveMasked n j mask v l) p = if scWord p = j ∧ mask.getLsbD (scBit p) then v else levelOf l p := by
  simp [levelOf, driveMasked, List.getD_eq_getElem?_getD, hp]

theorem levelOf_of_length_le {l : List Bool} {p : Nat} (h : l.length ≤ p) : levelOf l p = false := by
  simp [levelOf, List.getD_eq_getElem?_getD, List.getElem?_eq_none h]

/-- Latches of one length with the same levels are the same. -/
theorem latch_ext {l m : List Bool} (hlen : l.length = m.length) (h : ∀ p, p < l.length → levelOf l p = levelOf m p) :
    l = m := by
  apply List.ext_getElem hlen
  intro p h1 h2
  have := h p h1
  simpa [levelOf, List.getD_eq_getElem?_getD, h1, h2] using this

/-- The one bit of a pin's mask. -/
theorem pinMask_getLsbD (p b : Nat) : (pinMask p).getLsbD b = decide (b = scBit p) := by
  have hb := scBit_lt p
  unfold pinMask
  rw [BitVec.getLsbD_shiftLeft]
  by_cases h : b = scBit p
  · subst h; simp [hb]
  · by_cases h2 : b < scBit p
    · simp [h2, h]
    · have : b - scBit p ≠ 0 := by omega
      simp [h, h2, BitVec.getLsbD_one, this]

/-- Driving one pin changes that pin's level and no other's (41_gpio_pin.md R167, R169). -/
theorem levelOf_drive_pin {n p q : Nat} (hq : q < n) (v : Bool) (l : List Bool) :
    levelOf (driveMasked n (scWord p) (pinMask p) v l) q = if q = p then v else levelOf l q := by
  rw [levelOf_driveMasked hq]
  by_cases h : q = p
  · subst h; simp [pinMask_getLsbD]
  · rw [if_neg h, if_neg]
    rintro ⟨hw, hb⟩
    rw [pinMask_getLsbD] at hb
    exact h (pin_eq_of_sc hw (of_decide_eq_true hb))

theorem latchEffect_setAddr {c : Config} (h : c.Legal) {j : Nat} (hj : j < c.nSet) (v : Word) (l : List Bool) :
    latchEffect c (setAddr c j) v l = driveMasked c.nPins j v true l := by
  unfold latchEffect; rw [target_setAddr h hj]

theorem latchEffect_clrAddr {c : Config} (h : c.Legal) {j : Nat} (hj : j < c.nSet) (v : Word) (l : List Bool) :
    latchEffect c (clrAddr c j) v l = driveMasked c.nPins j v false l := by
  unfold latchEffect; rw [target_clrAddr h hj]

theorem latchEffect_fselAddr {c : Config} (h : c.Legal) {i : Nat} (hi : i < c.nFsel) (v : Word) (l : List Bool) :
    latchEffect c (fselAddr c i) v l = l := by
  unfold latchEffect; rw [target_fselAddr h hi]

theorem latchEffect_length {c : Config} {l : List Bool} (hl : l.length = c.nPins) (a v : Word) :
    (latchEffect c a v l).length = c.nPins := by
  unfold latchEffect
  split <;> simp [hl]

/-- The alarm and display pins are driven one at a time (41_gpio_pin.md R167). -/
theorem levelOf_set_pin {c : Config} (h : c.Legal) {p q : Nat} (hp : p < c.nPins) (hq : q < c.nPins) (l : List Bool) :
    levelOf (latchEffect c (setAddr c (scWord p)) (pinMask p) l) q = if q = p then true else levelOf l q := by
  rw [latchEffect_setAddr h (scWord_lt hp), levelOf_drive_pin hq]

theorem levelOf_clr_pin {c : Config} (h : c.Legal) {p q : Nat} (hp : p < c.nPins) (hq : q < c.nPins) (l : List Bool) :
    levelOf (latchEffect c (clrAddr c (scWord p)) (pinMask p) l) q = if q = p then false else levelOf l q := by
  rw [latchEffect_clrAddr h (scWord_lt hp), levelOf_drive_pin hq]

end Sys2Proof.Machine
end

