-- ==== Sys2Proof/Laws/Memory.lean ====
section
/-! SUPPORT. The byte cells: a read after a write, what a write leaves alone, and that every write keeps the canonical
form. -/

namespace Sys2Proof.Machine

@[simp] theorem Memory.readByte_nil (a : Nat) : Memory.readByte [] a = 0 := rfl

theorem Memory.readByte_cons (c : Host.Cell) (m : Memory) (a : Nat) :
    Memory.readByte (c :: m) a = if c.1 = a then c.2 else Memory.readByte m a := rfl

@[simp] theorem Memory.wf_nil : Memory.wf [] := ⟨List.Pairwise.nil, by simp⟩

theorem Memory.wf_tail {c : Host.Cell} {m : Memory} (h : Memory.wf (c :: m)) : Memory.wf m :=
  ⟨(List.pairwise_cons.mp h.1).2, fun d hd => h.2 d (List.mem_cons_of_mem _ hd)⟩

/-- A byte below every listed address reads as unlisted. -/
theorem Memory.readByte_of_lt {m : Memory} {a : Nat} (h : ∀ c ∈ m, a < c.1) : m.readByte a = 0 := by
  induction m with
  | nil => rfl
  | cons c m ih =>
    rw [Memory.readByte_cons, if_neg (by have := h c (by simp); omega)]
    exact ih fun d hd => h d (by simp [hd])

theorem Memory.writeByte_mem {m : Memory} {a : Nat} {v : Byte} {c : Host.Cell} (h : c ∈ m.writeByte a v) :
    c ∈ m ∨ c = (a, v) ∧ v ≠ 0 := by
  induction m with
  | nil =>
    by_cases hv : v = Memory.unlisted
    · simp [Memory.writeByte, hv] at h
    · simp [Memory.writeByte, hv] at h; exact .inr ⟨h, hv⟩
  | cons d m ih =>
    obtain ⟨k, b⟩ := d
    simp only [Memory.writeByte] at h
    split at h
    · split at h
      · exact .inl h
      · next hv =>
        rcases List.mem_cons.mp h with h | h
        · exact .inr ⟨h, hv⟩
        · exact .inl h
    · split at h
      · split at h
        · exact .inl (List.mem_cons_of_mem _ h)
        · next hv =>
          rcases List.mem_cons.mp h with h | h
          · exact .inr ⟨h, hv⟩
          · exact .inl (List.mem_cons_of_mem _ h)
      · rcases List.mem_cons.mp h with h | h
        · exact .inl (by simp [h])
        · rcases ih h with h | h
          · exact .inl (List.mem_cons_of_mem _ h)
          · exact .inr h

/-- A write keeps the canonical form. -/
theorem Memory.wf_writeByte {m : Memory} (h : m.wf) (a : Nat) (v : Byte) : (m.writeByte a v).wf := by
  refine ⟨?_, fun c hc => ?_⟩
  · induction m with
    | nil => simp only [Memory.writeByte]; split <;> simp
    | cons d m ih =>
      obtain ⟨k, b⟩ := d
      have hk := (List.pairwise_cons.mp h.1).1
      have hm := (List.pairwise_cons.mp h.1).2
      simp only [Memory.writeByte]
      split
      · next hlt =>
        split
        · exact h.1
        · refine List.pairwise_cons.mpr ⟨fun c hc => ?_, h.1⟩
          rcases List.mem_cons.mp hc with rfl | hc
          · exact hlt
          · exact lt_trans hlt (hk c hc)
      · split
        · next heq =>
          split
          · exact hm
          · exact List.pairwise_cons.mpr ⟨fun c hc => heq ▸ hk c hc, hm⟩
        · next hlt hne =>
          refine List.pairwise_cons.mpr ⟨fun c hc => ?_, ih (Memory.wf_tail h)⟩
          rcases Memory.writeByte_mem hc with hc | ⟨rfl, -⟩
          · exact hk c hc
          · simp; omega
  · rcases Memory.writeByte_mem hc with hc | ⟨rfl, hv⟩
    · exact h.2 c hc
    · exact hv

/-- A byte reads as written. -/
theorem Memory.readByte_writeByte_same {m : Memory} (h : m.wf) (a : Nat) (v : Byte) : (m.writeByte a v).readByte a = v := by
  induction m with
  | nil =>
    simp only [Memory.writeByte]
    split
    · next hv => simp [hv, Memory.readByte]
    · simp [Memory.readByte]
  | cons d m ih =>
    obtain ⟨k, b⟩ := d
    have hk := (List.pairwise_cons.mp h.1).1
    simp only [Memory.writeByte]
    split
    · next hlt =>
      split
      · next hv =>
        rw [Memory.readByte_of_lt, hv]; · rfl
        intro c hc
        rcases List.mem_cons.mp hc with rfl | hc
        · exact hlt
        · exact lt_trans hlt (hk c hc)
      · simp [Memory.readByte]
    · split
      · next heq =>
        split
        · next hv => rw [Memory.readByte_of_lt fun c hc => heq ▸ hk c hc, hv]; rfl
        · simp [Memory.readByte]
      · next hne =>
        rw [Memory.readByte_cons, if_neg (by simp; omega)]
        exact ih (Memory.wf_tail h)

/-- Every other byte reads as before. -/
theorem Memory.readByte_writeByte_other (m : Memory) {a b : Nat} (v : Byte) (hne : b ≠ a) :
    (m.writeByte a v).readByte b = m.readByte b := by
  induction m with
  | nil => simp only [Memory.writeByte]; split <;> simp [Memory.readByte, hne.symm]
  | cons d m ih =>
    obtain ⟨k, w⟩ := d
    simp only [Memory.writeByte]
    split
    · split <;> simp [Memory.readByte, hne.symm]
    · split
      · next heq =>
        subst heq
        split
        · rw [Memory.readByte_cons, if_neg (fun h => hne h.symm)]
        · rw [Memory.readByte_cons, Memory.readByte_cons, if_neg (fun h => hne h.symm), if_neg (fun h => hne h.symm)]
      · simp only [Memory.readByte]; rw [ih]

/-- A word write keeps the canonical form. -/
theorem Memory.wf_writeWord {m : Memory} (h : m.wf) (a : Nat) (v : Word) : (m.writeWord a v).wf :=
  Memory.wf_writeByte (Memory.wf_writeByte (Memory.wf_writeByte (Memory.wf_writeByte h _ _) _ _) _ _) _ _

/-- A word write leaves every byte outside its four alone. -/
theorem Memory.readByte_writeWord_other (m : Memory) {a b : Nat} (v : Word) (h : b < a ∨ a + 4 ≤ b) :
    (m.writeWord a v).readByte b = m.readByte b := by
  unfold Memory.writeWord
  rw [Memory.readByte_writeByte_other _ _ (by omega), Memory.readByte_writeByte_other _ _ (by omega),
    Memory.readByte_writeByte_other _ _ (by omega), Memory.readByte_writeByte_other _ _ (by omega)]

/-- A word reads as written. -/
theorem Memory.readWord_writeWord_same {m : Memory} (h : m.wf) (a : Nat) (v : Word) : (m.writeWord a v).readWord a = v := by
  have h1 := Memory.wf_writeByte h a (v.extractLsb' 0 8)
  have h2 := Memory.wf_writeByte h1 (a + 1) (v.extractLsb' 8 8)
  have h3 := Memory.wf_writeByte h2 (a + 2) (v.extractLsb' 16 8)
  unfold Memory.readWord Memory.writeWord
  rw [Memory.readByte_writeByte_same h3,
    Memory.readByte_writeByte_other _ _ (by omega : a + 2 ≠ a + 3), Memory.readByte_writeByte_same h2,
    Memory.readByte_writeByte_other _ _ (by omega : a + 1 ≠ a + 3),
    Memory.readByte_writeByte_other _ _ (by omega : a + 1 ≠ a + 2), Memory.readByte_writeByte_same h1,
    Memory.readByte_writeByte_other _ _ (by omega : a ≠ a + 3),
    Memory.readByte_writeByte_other _ _ (by omega : a ≠ a + 2),
    Memory.readByte_writeByte_other _ _ (by omega : a ≠ a + 1), Memory.readByte_writeByte_same h]
  exact word_of_bytes v

/-- Words that share no byte do not disturb each other. -/
theorem Memory.readWord_writeWord_other (m : Memory) {a b : Nat} (v : Word) (h : b + 4 ≤ a ∨ a + 4 ≤ b) :
    (m.writeWord a v).readWord b = m.readWord b := by
  unfold Memory.readWord
  rw [Memory.readByte_writeWord_other m v (by omega : b < a ∨ a + 4 ≤ b),
    Memory.readByte_writeWord_other m v (by omega : b + 1 < a ∨ a + 4 ≤ b + 1),
    Memory.readByte_writeWord_other m v (by omega : b + 2 < a ∨ a + 4 ≤ b + 2),
    Memory.readByte_writeWord_other m v (by omega : b + 3 < a ∨ a + 4 ≤ b + 3)]

/-- Two canonical memories that read alike are the same data. -/
theorem Memory.ext_of_readByte {m n : Memory} (hm : m.wf) (hn : n.wf) (h : ∀ a, m.readByte a = n.readByte a) : m = n := by
  induction m generalizing n with
  | nil =>
    cases n with
    | nil => rfl
    | cons d n =>
      have := h d.1
      rw [Memory.readByte_nil, Memory.readByte_cons, if_pos rfl] at this
      exact absurd this.symm (hn.2 d (by simp))
  | cons c m ih =>
    have hc := h c.1
    rw [Memory.readByte_cons, if_pos rfl] at hc
    have hc0 := hm.2 c (by simp)
    cases n with
    | nil => exact absurd hc hc0
    | cons d n =>
      have hd := h d.1
      rw [Memory.readByte_cons d n d.1, if_pos rfl] at hd
      have hd0 := hn.2 d (by simp)
      have hmlt := (List.pairwise_cons.mp hm.1).1
      have hnlt := (List.pairwise_cons.mp hn.1).1
      have hkey : c.1 = d.1 := by
        rcases Nat.lt_trichotomy c.1 d.1 with hlt | heq | hgt
        · rw [Memory.readByte_cons, if_neg (by omega),
            Memory.readByte_of_lt fun e he => Nat.lt_trans hlt (hnlt e he)] at hc
          exact absurd hc hc0
        · exact heq
        · rw [Memory.readByte_cons, if_neg (by omega),
            Memory.readByte_of_lt fun e he => Nat.lt_trans hgt (hmlt e he)] at hd
          exact absurd hd.symm hd0
      rw [Memory.readByte_cons, if_pos hkey.symm] at hc
      have hcd : c = d := Prod.ext hkey hc
      subst hcd
      rw [ih (Memory.wf_tail hm) (Memory.wf_tail hn) fun a => ?_]
      have ha := h a
      rw [Memory.readByte_cons, Memory.readByte_cons] at ha
      split at ha
      · next he => rw [Memory.readByte_of_lt fun e hm => he ▸ hmlt e hm, Memory.readByte_of_lt fun e hm => he ▸ hnlt e hm]
      · exact ha

/-- What a byte reads as after a byte was written. -/
theorem Memory.readByte_writeByte {m : Memory} (h : m.wf) (a b : Nat) (v : Byte) :
    (m.writeByte a v).readByte b = if b = a then v else m.readByte b := by
  split
  · next he => rw [he, Memory.readByte_writeByte_same h]
  · next hne => rw [Memory.readByte_writeByte_other _ _ hne]

/-- Writing a word twice is writing it once (20_memory.md R72). -/
theorem Memory.writeWord_writeWord {m : Memory} (h : m.wf) (a : Nat) (v : Word) :
    (m.writeWord a v).writeWord a v = m.writeWord a v := by
  have hw := Memory.wf_writeWord h a v
  refine Memory.ext_of_readByte (Memory.wf_writeWord hw a v) hw fun b => ?_
  by_cases hb : b < a ∨ a + 4 ≤ b
  · exact Memory.readByte_writeWord_other _ v hb
  · have inside {m : Memory} (h : m.wf) : (m.writeWord a v).readByte b =
        if b = a + 3 then v.extractLsb' 24 8 else if b = a + 2 then v.extractLsb' 16 8
        else if b = a + 1 then v.extractLsb' 8 8 else v.extractLsb' 0 8 := by
      have h1 := Memory.wf_writeByte h a (v.extractLsb' 0 8)
      have h2 := Memory.wf_writeByte h1 (a + 1) (v.extractLsb' 8 8)
      have h3 := Memory.wf_writeByte h2 (a + 2) (v.extractLsb' 16 8)
      unfold Memory.writeWord
      rw [Memory.readByte_writeByte h3, Memory.readByte_writeByte h2, Memory.readByte_writeByte h1, Memory.readByte_writeByte h]
      repeat' split
      all_goals first | rfl | (exfalso; omega)
    rw [inside hw, inside h]

/-- No register write spoils the canonical form. -/
theorem wf_memEffect {m : Memory} (c : Config) (a v : Word) (h : m.wf) : (memEffect c a v m).wf := by
  unfold memEffect
  split
  · exact Memory.wf_writeWord h _ _
  · exact h
  · exact h
  · exact h

end Sys2Proof.Machine
end

