-- ==== Sys2Proof/Laws/State.lean ====
section
/-! SUPPORT. One lemma for each field and each named update of the state, true by `rfl`: no later proof unfolds a record
update. -/

namespace Sys2Proof.Machine

variable (s : State)

/-! ## `emit` -/

@[simp] theorem State.emit_cfg (e : Event) : (s.emit e).cfg = s.cfg := rfl
@[simp] theorem State.emit_t (e : Event) : (s.emit e).t = s.t := rfl
@[simp] theorem State.emit_h (e : Event) : (s.emit e).h = s.h := rfl
@[simp] theorem State.emit_phase (e : Event) : (s.emit e).phase = s.phase := rfl
@[simp] theorem State.emit_blinkOn (e : Event) : (s.emit e).blinkOn = s.blinkOn := rfl
@[simp] theorem State.emit_timerArmed (e : Event) : (s.emit e).timerArmed = s.timerArmed := rfl
@[simp] theorem State.emit_alarmPending (e : Event) : (s.emit e).alarmPending = s.alarmPending := rfl
@[simp] theorem State.emit_alarmRunning (e : Event) : (s.emit e).alarmRunning = s.alarmRunning := rfl
@[simp] theorem State.emit_alarmPc (e : Event) : (s.emit e).alarmPc = s.alarmPc := rfl
@[simp] theorem State.emit_redrawPending (e : Event) : (s.emit e).redrawPending = s.redrawPending := rfl
@[simp] theorem State.emit_redrawRunning (e : Event) : (s.emit e).redrawRunning = s.redrawRunning := rfl
@[simp] theorem State.emit_line1 (e : Event) : (s.emit e).line1 = s.line1 := rfl
@[simp] theorem State.emit_line2 (e : Event) : (s.emit e).line2 = s.line2 := rfl
@[simp] theorem State.emit_lcdSeq (e : Event) : (s.emit e).lcdSeq = s.lcdSeq := rfl
@[simp] theorem State.emit_lcdPc (e : Event) : (s.emit e).lcdPc = s.lcdPc := rfl
@[simp] theorem State.emit_cancelled (e : Event) : (s.emit e).cancelled = s.cancelled := rfl
@[simp] theorem State.emit_mapped (e : Event) : (s.emit e).mapped = s.mapped := rfl
@[simp] theorem State.emit_initRunning (e : Event) : (s.emit e).initRunning = s.initRunning := rfl
@[simp] theorem State.emit_initSeq (e : Event) : (s.emit e).initSeq = s.initSeq := rfl
@[simp] theorem State.emit_initPc (e : Event) : (s.emit e).initPc = s.initPc := rfl
@[simp] theorem State.emit_mem (e : Event) : (s.emit e).mem = s.mem := rfl
@[simp] theorem State.emit_latch (e : Event) : (s.emit e).latch = s.latch := rfl
@[simp] theorem State.emit_trace (e : Event) : (s.emit e).trace = s.trace ++ [e] := rfl
@[simp] theorem State.emit_agent (e : Event) : (s.emit e).agent = s.agent := rfl
@[simp] theorem State.emit_schedule (e : Event) : (s.emit e).schedule = s.schedule := rfl
@[simp] theorem State.emit_draws (e : Event) : (s.emit e).draws = s.draws := rfl

/-! ## `withAgent` -/

@[simp] theorem State.withAgent_cfg (a : Agent) : (s.withAgent a).cfg = s.cfg := rfl
@[simp] theorem State.withAgent_t (a : Agent) : (s.withAgent a).t = s.t := rfl
@[simp] theorem State.withAgent_h (a : Agent) : (s.withAgent a).h = s.h := rfl
@[simp] theorem State.withAgent_phase (a : Agent) : (s.withAgent a).phase = s.phase := rfl
@[simp] theorem State.withAgent_blinkOn (a : Agent) : (s.withAgent a).blinkOn = s.blinkOn := rfl
@[simp] theorem State.withAgent_timerArmed (a : Agent) : (s.withAgent a).timerArmed = s.timerArmed := rfl
@[simp] theorem State.withAgent_alarmPending (a : Agent) : (s.withAgent a).alarmPending = s.alarmPending := rfl
@[simp] theorem State.withAgent_alarmRunning (a : Agent) : (s.withAgent a).alarmRunning = s.alarmRunning := rfl
@[simp] theorem State.withAgent_alarmPc (a : Agent) : (s.withAgent a).alarmPc = s.alarmPc := rfl
@[simp] theorem State.withAgent_redrawPending (a : Agent) : (s.withAgent a).redrawPending = s.redrawPending := rfl
@[simp] theorem State.withAgent_redrawRunning (a : Agent) : (s.withAgent a).redrawRunning = s.redrawRunning := rfl
@[simp] theorem State.withAgent_line1 (a : Agent) : (s.withAgent a).line1 = s.line1 := rfl
@[simp] theorem State.withAgent_line2 (a : Agent) : (s.withAgent a).line2 = s.line2 := rfl
@[simp] theorem State.withAgent_lcdSeq (a : Agent) : (s.withAgent a).lcdSeq = s.lcdSeq := rfl
@[simp] theorem State.withAgent_lcdPc (a : Agent) : (s.withAgent a).lcdPc = s.lcdPc := rfl
@[simp] theorem State.withAgent_cancelled (a : Agent) : (s.withAgent a).cancelled = s.cancelled := rfl
@[simp] theorem State.withAgent_mapped (a : Agent) : (s.withAgent a).mapped = s.mapped := rfl
@[simp] theorem State.withAgent_initRunning (a : Agent) : (s.withAgent a).initRunning = s.initRunning := rfl
@[simp] theorem State.withAgent_initSeq (a : Agent) : (s.withAgent a).initSeq = s.initSeq := rfl
@[simp] theorem State.withAgent_initPc (a : Agent) : (s.withAgent a).initPc = s.initPc := rfl
@[simp] theorem State.withAgent_mem (a : Agent) : (s.withAgent a).mem = s.mem := rfl
@[simp] theorem State.withAgent_latch (a : Agent) : (s.withAgent a).latch = s.latch := rfl
@[simp] theorem State.withAgent_trace (a : Agent) : (s.withAgent a).trace = s.trace := rfl
@[simp] theorem State.withAgent_agent (a : Agent) : (s.withAgent a).agent = a := rfl
@[simp] theorem State.withAgent_schedule (a : Agent) : (s.withAgent a).schedule = s.schedule := rfl
@[simp] theorem State.withAgent_draws (a : Agent) : (s.withAgent a).draws = s.draws := rfl

/-! ## `startAlarm` -/

@[simp] theorem State.startAlarm_cfg : (s.startAlarm).cfg = s.cfg := rfl
@[simp] theorem State.startAlarm_t : (s.startAlarm).t = s.t := rfl
@[simp] theorem State.startAlarm_h : (s.startAlarm).h = s.h := rfl
@[simp] theorem State.startAlarm_phase : (s.startAlarm).phase = s.phase := rfl
@[simp] theorem State.startAlarm_blinkOn : (s.startAlarm).blinkOn = s.blinkOn := rfl
@[simp] theorem State.startAlarm_timerArmed : (s.startAlarm).timerArmed = s.timerArmed := rfl
@[simp] theorem State.startAlarm_alarmPending : (s.startAlarm).alarmPending = false := rfl
@[simp] theorem State.startAlarm_alarmRunning : (s.startAlarm).alarmRunning = true := rfl
@[simp] theorem State.startAlarm_alarmPc : (s.startAlarm).alarmPc = 0 := rfl
@[simp] theorem State.startAlarm_redrawPending : (s.startAlarm).redrawPending = s.redrawPending := rfl
@[simp] theorem State.startAlarm_redrawRunning : (s.startAlarm).redrawRunning = s.redrawRunning := rfl
@[simp] theorem State.startAlarm_line1 : (s.startAlarm).line1 = s.line1 := rfl
@[simp] theorem State.startAlarm_line2 : (s.startAlarm).line2 = s.line2 := rfl
@[simp] theorem State.startAlarm_lcdSeq : (s.startAlarm).lcdSeq = s.lcdSeq := rfl
@[simp] theorem State.startAlarm_lcdPc : (s.startAlarm).lcdPc = s.lcdPc := rfl
@[simp] theorem State.startAlarm_cancelled : (s.startAlarm).cancelled = s.cancelled := rfl
@[simp] theorem State.startAlarm_mapped : (s.startAlarm).mapped = s.mapped := rfl
@[simp] theorem State.startAlarm_initRunning : (s.startAlarm).initRunning = s.initRunning := rfl
@[simp] theorem State.startAlarm_initSeq : (s.startAlarm).initSeq = s.initSeq := rfl
@[simp] theorem State.startAlarm_initPc : (s.startAlarm).initPc = s.initPc := rfl
@[simp] theorem State.startAlarm_mem : (s.startAlarm).mem = s.mem := rfl
@[simp] theorem State.startAlarm_latch : (s.startAlarm).latch = s.latch := rfl
@[simp] theorem State.startAlarm_trace : (s.startAlarm).trace = s.trace := rfl
@[simp] theorem State.startAlarm_agent : (s.startAlarm).agent = s.agent := rfl
@[simp] theorem State.startAlarm_schedule : (s.startAlarm).schedule = s.schedule := rfl
@[simp] theorem State.startAlarm_draws : (s.startAlarm).draws = s.draws := rfl

/-! ## `cancelSignal` -/

@[simp] theorem State.cancelSignal_cfg : (s.cancelSignal).cfg = s.cfg := rfl
@[simp] theorem State.cancelSignal_t : (s.cancelSignal).t = s.t := rfl
@[simp] theorem State.cancelSignal_h : (s.cancelSignal).h = s.h := rfl
@[simp] theorem State.cancelSignal_phase : (s.cancelSignal).phase = .cancelled := rfl
@[simp] theorem State.cancelSignal_blinkOn : (s.cancelSignal).blinkOn = s.blinkOn := rfl
@[simp] theorem State.cancelSignal_timerArmed : (s.cancelSignal).timerArmed = false := rfl
@[simp] theorem State.cancelSignal_alarmPending : (s.cancelSignal).alarmPending = false := rfl
@[simp] theorem State.cancelSignal_alarmRunning : (s.cancelSignal).alarmRunning = s.alarmRunning := rfl
@[simp] theorem State.cancelSignal_alarmPc : (s.cancelSignal).alarmPc = s.alarmPc := rfl
@[simp] theorem State.cancelSignal_redrawPending : (s.cancelSignal).redrawPending = false := rfl
@[simp] theorem State.cancelSignal_redrawRunning : (s.cancelSignal).redrawRunning = s.redrawRunning := rfl
@[simp] theorem State.cancelSignal_line1 : (s.cancelSignal).line1 = s.line1 := rfl
@[simp] theorem State.cancelSignal_line2 : (s.cancelSignal).line2 = s.line2 := rfl
@[simp] theorem State.cancelSignal_lcdSeq : (s.cancelSignal).lcdSeq = s.lcdSeq := rfl
@[simp] theorem State.cancelSignal_lcdPc : (s.cancelSignal).lcdPc = s.lcdPc := rfl
@[simp] theorem State.cancelSignal_cancelled : (s.cancelSignal).cancelled = true := rfl
@[simp] theorem State.cancelSignal_mapped : (s.cancelSignal).mapped = s.mapped := rfl
@[simp] theorem State.cancelSignal_initRunning : (s.cancelSignal).initRunning = s.initRunning := rfl
@[simp] theorem State.cancelSignal_initSeq : (s.cancelSignal).initSeq = s.initSeq := rfl
@[simp] theorem State.cancelSignal_initPc : (s.cancelSignal).initPc = s.initPc := rfl
@[simp] theorem State.cancelSignal_mem : (s.cancelSignal).mem = s.mem := rfl
@[simp] theorem State.cancelSignal_latch : (s.cancelSignal).latch = s.latch := rfl
@[simp] theorem State.cancelSignal_trace : (s.cancelSignal).trace = s.trace := rfl
@[simp] theorem State.cancelSignal_agent : (s.cancelSignal).agent = s.agent := rfl
@[simp] theorem State.cancelSignal_schedule : (s.cancelSignal).schedule = s.schedule := rfl
@[simp] theorem State.cancelSignal_draws : (s.cancelSignal).draws = s.draws := rfl

/-! ## `fireTimer` -/

@[simp] theorem State.fireTimer_cfg : (s.fireTimer).cfg = s.cfg := rfl
@[simp] theorem State.fireTimer_t : (s.fireTimer).t = s.t := rfl
@[simp] theorem State.fireTimer_h : (s.fireTimer).h = s.h := rfl
@[simp] theorem State.fireTimer_phase : (s.fireTimer).phase = s.phase := rfl
@[simp] theorem State.fireTimer_blinkOn : (s.fireTimer).blinkOn = !s.blinkOn := rfl
@[simp] theorem State.fireTimer_timerArmed : (s.fireTimer).timerArmed = false := rfl
@[simp] theorem State.fireTimer_alarmPending : (s.fireTimer).alarmPending = s.alarmPending := rfl
@[simp] theorem State.fireTimer_alarmRunning : (s.fireTimer).alarmRunning = s.alarmRunning := rfl
@[simp] theorem State.fireTimer_alarmPc : (s.fireTimer).alarmPc = s.alarmPc := rfl
@[simp] theorem State.fireTimer_redrawPending : (s.fireTimer).redrawPending = s.redrawPending := rfl
@[simp] theorem State.fireTimer_redrawRunning : (s.fireTimer).redrawRunning = s.redrawRunning := rfl
@[simp] theorem State.fireTimer_line1 : (s.fireTimer).line1 = s.line1 := rfl
@[simp] theorem State.fireTimer_line2 : (s.fireTimer).line2 = s.line2 := rfl
@[simp] theorem State.fireTimer_lcdSeq : (s.fireTimer).lcdSeq = s.lcdSeq := rfl
@[simp] theorem State.fireTimer_lcdPc : (s.fireTimer).lcdPc = s.lcdPc := rfl
@[simp] theorem State.fireTimer_cancelled : (s.fireTimer).cancelled = s.cancelled := rfl
@[simp] theorem State.fireTimer_mapped : (s.fireTimer).mapped = s.mapped := rfl
@[simp] theorem State.fireTimer_initRunning : (s.fireTimer).initRunning = s.initRunning := rfl
@[simp] theorem State.fireTimer_initSeq : (s.fireTimer).initSeq = s.initSeq := rfl
@[simp] theorem State.fireTimer_initPc : (s.fireTimer).initPc = s.initPc := rfl
@[simp] theorem State.fireTimer_mem : (s.fireTimer).mem = s.mem := rfl
@[simp] theorem State.fireTimer_latch : (s.fireTimer).latch = s.latch := rfl
@[simp] theorem State.fireTimer_trace : (s.fireTimer).trace = s.trace ++ [.timerFire] := rfl
@[simp] theorem State.fireTimer_agent : (s.fireTimer).agent = .blink := rfl
@[simp] theorem State.fireTimer_schedule : (s.fireTimer).schedule = s.schedule := rfl
@[simp] theorem State.fireTimer_draws : (s.fireTimer).draws = s.draws := rfl

/-! ## `armTimer` -/

@[simp] theorem State.armTimer_cfg : (s.armTimer).cfg = s.cfg := rfl
@[simp] theorem State.armTimer_t : (s.armTimer).t = s.t := rfl
@[simp] theorem State.armTimer_h : (s.armTimer).h = s.h := rfl
@[simp] theorem State.armTimer_phase : (s.armTimer).phase = s.phase := rfl
@[simp] theorem State.armTimer_blinkOn : (s.armTimer).blinkOn = s.blinkOn := rfl
@[simp] theorem State.armTimer_timerArmed : (s.armTimer).timerArmed = true := rfl
@[simp] theorem State.armTimer_alarmPending : (s.armTimer).alarmPending = s.alarmPending := rfl
@[simp] theorem State.armTimer_alarmRunning : (s.armTimer).alarmRunning = s.alarmRunning := rfl
@[simp] theorem State.armTimer_alarmPc : (s.armTimer).alarmPc = s.alarmPc := rfl
@[simp] theorem State.armTimer_redrawPending : (s.armTimer).redrawPending = s.redrawPending := rfl
@[simp] theorem State.armTimer_redrawRunning : (s.armTimer).redrawRunning = s.redrawRunning := rfl
@[simp] theorem State.armTimer_line1 : (s.armTimer).line1 = s.line1 := rfl
@[simp] theorem State.armTimer_line2 : (s.armTimer).line2 = s.line2 := rfl
@[simp] theorem State.armTimer_lcdSeq : (s.armTimer).lcdSeq = s.lcdSeq := rfl
@[simp] theorem State.armTimer_lcdPc : (s.armTimer).lcdPc = s.lcdPc := rfl
@[simp] theorem State.armTimer_cancelled : (s.armTimer).cancelled = s.cancelled := rfl
@[simp] theorem State.armTimer_mapped : (s.armTimer).mapped = s.mapped := rfl
@[simp] theorem State.armTimer_initRunning : (s.armTimer).initRunning = s.initRunning := rfl
@[simp] theorem State.armTimer_initSeq : (s.armTimer).initSeq = s.initSeq := rfl
@[simp] theorem State.armTimer_initPc : (s.armTimer).initPc = s.initPc := rfl
@[simp] theorem State.armTimer_mem : (s.armTimer).mem = s.mem := rfl
@[simp] theorem State.armTimer_latch : (s.armTimer).latch = s.latch := rfl
@[simp] theorem State.armTimer_trace : (s.armTimer).trace = s.trace ++ [.timerArm blinkPeriodNs] := rfl
@[simp] theorem State.armTimer_agent : (s.armTimer).agent = s.agent := rfl
@[simp] theorem State.armTimer_schedule : (s.armTimer).schedule = s.schedule := rfl
@[simp] theorem State.armTimer_draws : (s.armTimer).draws = s.draws := rfl

/-! ## `startAttach` -/

@[simp] theorem State.startAttach_cfg : (s.startAttach).cfg = s.cfg := rfl
@[simp] theorem State.startAttach_t : (s.startAttach).t = s.t := rfl
@[simp] theorem State.startAttach_h : (s.startAttach).h = s.h := rfl
@[simp] theorem State.startAttach_phase : (s.startAttach).phase = s.phase := rfl
@[simp] theorem State.startAttach_blinkOn : (s.startAttach).blinkOn = s.blinkOn := rfl
@[simp] theorem State.startAttach_timerArmed : (s.startAttach).timerArmed = s.timerArmed := rfl
@[simp] theorem State.startAttach_alarmPending : (s.startAttach).alarmPending = s.alarmPending := rfl
@[simp] theorem State.startAttach_alarmRunning : (s.startAttach).alarmRunning = s.alarmRunning := rfl
@[simp] theorem State.startAttach_alarmPc : (s.startAttach).alarmPc = s.alarmPc := rfl
@[simp] theorem State.startAttach_redrawPending : (s.startAttach).redrawPending = s.redrawPending := rfl
@[simp] theorem State.startAttach_redrawRunning : (s.startAttach).redrawRunning = s.redrawRunning := rfl
@[simp] theorem State.startAttach_line1 : (s.startAttach).line1 = s.line1 := rfl
@[simp] theorem State.startAttach_line2 : (s.startAttach).line2 = s.line2 := rfl
@[simp] theorem State.startAttach_lcdSeq : (s.startAttach).lcdSeq = s.lcdSeq := rfl
@[simp] theorem State.startAttach_lcdPc : (s.startAttach).lcdPc = s.lcdPc := rfl
@[simp] theorem State.startAttach_cancelled : (s.startAttach).cancelled = s.cancelled := rfl
@[simp] theorem State.startAttach_mapped : (s.startAttach).mapped = s.mapped := rfl
@[simp] theorem State.startAttach_initRunning : (s.startAttach).initRunning = true := rfl
@[simp] theorem State.startAttach_initSeq : (s.startAttach).initSeq = attachList s.cfg := rfl
@[simp] theorem State.startAttach_initPc : (s.startAttach).initPc = 0 := rfl
@[simp] theorem State.startAttach_mem : (s.startAttach).mem = s.mem := rfl
@[simp] theorem State.startAttach_latch : (s.startAttach).latch = s.latch := rfl
@[simp] theorem State.startAttach_trace : (s.startAttach).trace = s.trace := rfl
@[simp] theorem State.startAttach_agent : (s.startAttach).agent = s.agent := rfl
@[simp] theorem State.startAttach_schedule : (s.startAttach).schedule = s.schedule := rfl
@[simp] theorem State.startAttach_draws : (s.startAttach).draws = s.draws := rfl

/-! ## `startRedraw` -/

@[simp] theorem State.startRedraw_cfg : (s.startRedraw).cfg = s.cfg := rfl
@[simp] theorem State.startRedraw_t : (s.startRedraw).t = s.t := rfl
@[simp] theorem State.startRedraw_h : (s.startRedraw).h = s.h := rfl
@[simp] theorem State.startRedraw_phase : (s.startRedraw).phase = s.phase := rfl
@[simp] theorem State.startRedraw_blinkOn : (s.startRedraw).blinkOn = s.blinkOn := rfl
@[simp] theorem State.startRedraw_timerArmed : (s.startRedraw).timerArmed = s.timerArmed := rfl
@[simp] theorem State.startRedraw_alarmPending : (s.startRedraw).alarmPending = s.alarmPending := rfl
@[simp] theorem State.startRedraw_alarmRunning : (s.startRedraw).alarmRunning = s.alarmRunning := rfl
@[simp] theorem State.startRedraw_alarmPc : (s.startRedraw).alarmPc = s.alarmPc := rfl
@[simp] theorem State.startRedraw_redrawPending : (s.startRedraw).redrawPending = false := rfl
@[simp] theorem State.startRedraw_redrawRunning : (s.startRedraw).redrawRunning = true := rfl
@[simp] theorem State.startRedraw_line1 : (s.startRedraw).line1 = composeLine1 s.t := rfl
@[simp] theorem State.startRedraw_line2 : (s.startRedraw).line2 = composeLine2 s.h := rfl
@[simp] theorem State.startRedraw_lcdSeq : (s.startRedraw).lcdSeq = expand s.cfg (redrawList s.cfg (composeLine1 s.t) (composeLine2 s.h)) := rfl
@[simp] theorem State.startRedraw_lcdPc : (s.startRedraw).lcdPc = 0 := rfl
@[simp] theorem State.startRedraw_cancelled : (s.startRedraw).cancelled = s.cancelled := rfl
@[simp] theorem State.startRedraw_mapped : (s.startRedraw).mapped = s.mapped := rfl
@[simp] theorem State.startRedraw_initRunning : (s.startRedraw).initRunning = s.initRunning := rfl
@[simp] theorem State.startRedraw_initSeq : (s.startRedraw).initSeq = s.initSeq := rfl
@[simp] theorem State.startRedraw_initPc : (s.startRedraw).initPc = s.initPc := rfl
@[simp] theorem State.startRedraw_mem : (s.startRedraw).mem = s.mem := rfl
@[simp] theorem State.startRedraw_latch : (s.startRedraw).latch = s.latch := rfl
@[simp] theorem State.startRedraw_trace : (s.startRedraw).trace = s.trace := rfl
@[simp] theorem State.startRedraw_agent : (s.startRedraw).agent = s.agent := rfl
@[simp] theorem State.startRedraw_schedule : (s.startRedraw).schedule = s.schedule := rfl
@[simp] theorem State.startRedraw_draws : (s.startRedraw).draws = s.draws := rfl

/-! ## `advanceLcd` -/

@[simp] theorem State.advanceLcd_cfg : (s.advanceLcd).cfg = s.cfg := rfl
@[simp] theorem State.advanceLcd_t : (s.advanceLcd).t = s.t := rfl
@[simp] theorem State.advanceLcd_h : (s.advanceLcd).h = s.h := rfl
@[simp] theorem State.advanceLcd_phase : (s.advanceLcd).phase = s.phase := rfl
@[simp] theorem State.advanceLcd_blinkOn : (s.advanceLcd).blinkOn = s.blinkOn := rfl
@[simp] theorem State.advanceLcd_timerArmed : (s.advanceLcd).timerArmed = s.timerArmed := rfl
@[simp] theorem State.advanceLcd_alarmPending : (s.advanceLcd).alarmPending = s.alarmPending := rfl
@[simp] theorem State.advanceLcd_alarmRunning : (s.advanceLcd).alarmRunning = s.alarmRunning := rfl
@[simp] theorem State.advanceLcd_alarmPc : (s.advanceLcd).alarmPc = s.alarmPc := rfl
@[simp] theorem State.advanceLcd_redrawPending : (s.advanceLcd).redrawPending = s.redrawPending := rfl
@[simp] theorem State.advanceLcd_redrawRunning : (s.advanceLcd).redrawRunning = decide (s.lcdPc + 1 < s.lcdSeq.length) := rfl
@[simp] theorem State.advanceLcd_line1 : (s.advanceLcd).line1 = s.line1 := rfl
@[simp] theorem State.advanceLcd_line2 : (s.advanceLcd).line2 = s.line2 := rfl
@[simp] theorem State.advanceLcd_lcdSeq : (s.advanceLcd).lcdSeq = s.lcdSeq := rfl
@[simp] theorem State.advanceLcd_lcdPc : (s.advanceLcd).lcdPc = s.lcdPc + 1 := rfl
@[simp] theorem State.advanceLcd_cancelled : (s.advanceLcd).cancelled = s.cancelled := rfl
@[simp] theorem State.advanceLcd_mapped : (s.advanceLcd).mapped = s.mapped := rfl
@[simp] theorem State.advanceLcd_initRunning : (s.advanceLcd).initRunning = s.initRunning := rfl
@[simp] theorem State.advanceLcd_initSeq : (s.advanceLcd).initSeq = s.initSeq := rfl
@[simp] theorem State.advanceLcd_initPc : (s.advanceLcd).initPc = s.initPc := rfl
@[simp] theorem State.advanceLcd_mem : (s.advanceLcd).mem = s.mem := rfl
@[simp] theorem State.advanceLcd_latch : (s.advanceLcd).latch = s.latch := rfl
@[simp] theorem State.advanceLcd_trace : (s.advanceLcd).trace = s.trace := rfl
@[simp] theorem State.advanceLcd_agent : (s.advanceLcd).agent = s.agent := rfl
@[simp] theorem State.advanceLcd_schedule : (s.advanceLcd).schedule = s.schedule := rfl
@[simp] theorem State.advanceLcd_draws : (s.advanceLcd).draws = s.draws := rfl

/-! ## `memRead` -/

@[simp] theorem State.memRead_cfg (a : Word) : (s.memRead a).cfg = s.cfg := rfl
@[simp] theorem State.memRead_t (a : Word) : (s.memRead a).t = s.t := rfl
@[simp] theorem State.memRead_h (a : Word) : (s.memRead a).h = s.h := rfl
@[simp] theorem State.memRead_phase (a : Word) : (s.memRead a).phase = s.phase := rfl
@[simp] theorem State.memRead_blinkOn (a : Word) : (s.memRead a).blinkOn = s.blinkOn := rfl
@[simp] theorem State.memRead_timerArmed (a : Word) : (s.memRead a).timerArmed = s.timerArmed := rfl
@[simp] theorem State.memRead_alarmPending (a : Word) : (s.memRead a).alarmPending = s.alarmPending := rfl
@[simp] theorem State.memRead_alarmRunning (a : Word) : (s.memRead a).alarmRunning = s.alarmRunning := rfl
@[simp] theorem State.memRead_alarmPc (a : Word) : (s.memRead a).alarmPc = s.alarmPc := rfl
@[simp] theorem State.memRead_redrawPending (a : Word) : (s.memRead a).redrawPending = s.redrawPending := rfl
@[simp] theorem State.memRead_redrawRunning (a : Word) : (s.memRead a).redrawRunning = s.redrawRunning := rfl
@[simp] theorem State.memRead_line1 (a : Word) : (s.memRead a).line1 = s.line1 := rfl
@[simp] theorem State.memRead_line2 (a : Word) : (s.memRead a).line2 = s.line2 := rfl
@[simp] theorem State.memRead_lcdSeq (a : Word) : (s.memRead a).lcdSeq = s.lcdSeq := rfl
@[simp] theorem State.memRead_lcdPc (a : Word) : (s.memRead a).lcdPc = s.lcdPc := rfl
@[simp] theorem State.memRead_cancelled (a : Word) : (s.memRead a).cancelled = s.cancelled := rfl
@[simp] theorem State.memRead_mapped (a : Word) : (s.memRead a).mapped = s.mapped := rfl
@[simp] theorem State.memRead_initRunning (a : Word) : (s.memRead a).initRunning = s.initRunning := rfl
@[simp] theorem State.memRead_initSeq (a : Word) : (s.memRead a).initSeq = s.initSeq := rfl
@[simp] theorem State.memRead_initPc (a : Word) : (s.memRead a).initPc = s.initPc := rfl
@[simp] theorem State.memRead_mem (a : Word) : (s.memRead a).mem = s.mem := rfl
@[simp] theorem State.memRead_latch (a : Word) : (s.memRead a).latch = s.latch := rfl
@[simp] theorem State.memRead_trace (a : Word) : (s.memRead a).trace = s.trace ++ [.regRead s.agent a (s.peek a)] := rfl
@[simp] theorem State.memRead_agent (a : Word) : (s.memRead a).agent = s.agent := rfl
@[simp] theorem State.memRead_schedule (a : Word) : (s.memRead a).schedule = s.schedule := rfl
@[simp] theorem State.memRead_draws (a : Word) : (s.memRead a).draws = s.draws + drawsOfRead s.cfg a := rfl

/-! ## `memWrite` -/

@[simp] theorem State.memWrite_cfg (a v : Word) : (s.memWrite a v).cfg = s.cfg := rfl
@[simp] theorem State.memWrite_t (a v : Word) : (s.memWrite a v).t = s.t := rfl
@[simp] theorem State.memWrite_h (a v : Word) : (s.memWrite a v).h = s.h := rfl
@[simp] theorem State.memWrite_phase (a v : Word) : (s.memWrite a v).phase = s.phase := rfl
@[simp] theorem State.memWrite_blinkOn (a v : Word) : (s.memWrite a v).blinkOn = s.blinkOn := rfl
@[simp] theorem State.memWrite_timerArmed (a v : Word) : (s.memWrite a v).timerArmed = s.timerArmed := rfl
@[simp] theorem State.memWrite_alarmPending (a v : Word) : (s.memWrite a v).alarmPending = s.alarmPending := rfl
@[simp] theorem State.memWrite_alarmRunning (a v : Word) : (s.memWrite a v).alarmRunning = s.alarmRunning := rfl
@[simp] theorem State.memWrite_alarmPc (a v : Word) : (s.memWrite a v).alarmPc = s.alarmPc := rfl
@[simp] theorem State.memWrite_redrawPending (a v : Word) : (s.memWrite a v).redrawPending = s.redrawPending := rfl
@[simp] theorem State.memWrite_redrawRunning (a v : Word) : (s.memWrite a v).redrawRunning = s.redrawRunning := rfl
@[simp] theorem State.memWrite_line1 (a v : Word) : (s.memWrite a v).line1 = s.line1 := rfl
@[simp] theorem State.memWrite_line2 (a v : Word) : (s.memWrite a v).line2 = s.line2 := rfl
@[simp] theorem State.memWrite_lcdSeq (a v : Word) : (s.memWrite a v).lcdSeq = s.lcdSeq := rfl
@[simp] theorem State.memWrite_lcdPc (a v : Word) : (s.memWrite a v).lcdPc = s.lcdPc := rfl
@[simp] theorem State.memWrite_cancelled (a v : Word) : (s.memWrite a v).cancelled = s.cancelled := rfl
@[simp] theorem State.memWrite_mapped (a v : Word) : (s.memWrite a v).mapped = s.mapped := rfl
@[simp] theorem State.memWrite_initRunning (a v : Word) : (s.memWrite a v).initRunning = s.initRunning := rfl
@[simp] theorem State.memWrite_initSeq (a v : Word) : (s.memWrite a v).initSeq = s.initSeq := rfl
@[simp] theorem State.memWrite_initPc (a v : Word) : (s.memWrite a v).initPc = s.initPc := rfl
@[simp] theorem State.memWrite_mem (a v : Word) : (s.memWrite a v).mem = memEffect s.cfg a v s.mem := rfl
@[simp] theorem State.memWrite_latch (a v : Word) : (s.memWrite a v).latch = latchEffect s.cfg a v s.latch := rfl
@[simp] theorem State.memWrite_trace (a v : Word) : (s.memWrite a v).trace = s.trace ++ [.regWrite s.agent a v] := rfl
@[simp] theorem State.memWrite_agent (a v : Word) : (s.memWrite a v).agent = s.agent := rfl
@[simp] theorem State.memWrite_schedule (a v : Word) : (s.memWrite a v).schedule = s.schedule := rfl
@[simp] theorem State.memWrite_draws (a v : Word) : (s.memWrite a v).draws = s.draws := rfl

/-! ## `endWith` -/

@[simp] theorem State.endWith_cfg (op : Byte) (st : Status) : (s.endWith op st).cfg = s.cfg := rfl
@[simp] theorem State.endWith_t (op : Byte) (st : Status) : (s.endWith op st).t = s.t := rfl
@[simp] theorem State.endWith_h (op : Byte) (st : Status) : (s.endWith op st).h = s.h := rfl
@[simp] theorem State.endWith_phase (op : Byte) (st : Status) : (s.endWith op st).phase = s.phase := rfl
@[simp] theorem State.endWith_blinkOn (op : Byte) (st : Status) : (s.endWith op st).blinkOn = s.blinkOn := rfl
@[simp] theorem State.endWith_timerArmed (op : Byte) (st : Status) : (s.endWith op st).timerArmed = s.timerArmed := rfl
@[simp] theorem State.endWith_alarmPending (op : Byte) (st : Status) : (s.endWith op st).alarmPending = s.alarmPending := rfl
@[simp] theorem State.endWith_alarmRunning (op : Byte) (st : Status) : (s.endWith op st).alarmRunning = s.alarmRunning := rfl
@[simp] theorem State.endWith_alarmPc (op : Byte) (st : Status) : (s.endWith op st).alarmPc = s.alarmPc := rfl
@[simp] theorem State.endWith_redrawPending (op : Byte) (st : Status) : (s.endWith op st).redrawPending = s.redrawPending := rfl
@[simp] theorem State.endWith_redrawRunning (op : Byte) (st : Status) : (s.endWith op st).redrawRunning = s.redrawRunning := rfl
@[simp] theorem State.endWith_line1 (op : Byte) (st : Status) : (s.endWith op st).line1 = s.line1 := rfl
@[simp] theorem State.endWith_line2 (op : Byte) (st : Status) : (s.endWith op st).line2 = s.line2 := rfl
@[simp] theorem State.endWith_lcdSeq (op : Byte) (st : Status) : (s.endWith op st).lcdSeq = s.lcdSeq := rfl
@[simp] theorem State.endWith_lcdPc (op : Byte) (st : Status) : (s.endWith op st).lcdPc = s.lcdPc := rfl
@[simp] theorem State.endWith_cancelled (op : Byte) (st : Status) : (s.endWith op st).cancelled = s.cancelled := rfl
@[simp] theorem State.endWith_mapped (op : Byte) (st : Status) : (s.endWith op st).mapped = s.mapped := rfl
@[simp] theorem State.endWith_initRunning (op : Byte) (st : Status) : (s.endWith op st).initRunning = s.initRunning := rfl
@[simp] theorem State.endWith_initSeq (op : Byte) (st : Status) : (s.endWith op st).initSeq = s.initSeq := rfl
@[simp] theorem State.endWith_initPc (op : Byte) (st : Status) : (s.endWith op st).initPc = s.initPc := rfl
@[simp] theorem State.endWith_mem (op : Byte) (st : Status) : (s.endWith op st).mem = s.mem := rfl
@[simp] theorem State.endWith_latch (op : Byte) (st : Status) : (s.endWith op st).latch = s.latch := rfl
@[simp] theorem State.endWith_trace (op : Byte) (st : Status) : (s.endWith op st).trace = s.trace ++ [.status op st] := rfl
@[simp] theorem State.endWith_agent (op : Byte) (st : Status) : (s.endWith op st).agent = s.agent := rfl
@[simp] theorem State.endWith_schedule (op : Byte) (st : Status) : (s.endWith op st).schedule = s.schedule := rfl
@[simp] theorem State.endWith_draws (op : Byte) (st : Status) : (s.endWith op st).draws = s.draws := rfl

/-! ## `notReady` -/

@[simp] theorem State.notReady_cfg (op : Byte) : (s.notReady op).cfg = s.cfg := rfl
@[simp] theorem State.notReady_t (op : Byte) : (s.notReady op).t = s.t := rfl
@[simp] theorem State.notReady_h (op : Byte) : (s.notReady op).h = s.h := rfl
@[simp] theorem State.notReady_phase (op : Byte) : (s.notReady op).phase = s.phase := rfl
@[simp] theorem State.notReady_blinkOn (op : Byte) : (s.notReady op).blinkOn = s.blinkOn := rfl
@[simp] theorem State.notReady_timerArmed (op : Byte) : (s.notReady op).timerArmed = s.timerArmed := rfl
@[simp] theorem State.notReady_alarmPending (op : Byte) : (s.notReady op).alarmPending = s.alarmPending := rfl
@[simp] theorem State.notReady_alarmRunning (op : Byte) : (s.notReady op).alarmRunning = s.alarmRunning := rfl
@[simp] theorem State.notReady_alarmPc (op : Byte) : (s.notReady op).alarmPc = s.alarmPc := rfl
@[simp] theorem State.notReady_redrawPending (op : Byte) : (s.notReady op).redrawPending = s.redrawPending := rfl
@[simp] theorem State.notReady_redrawRunning (op : Byte) : (s.notReady op).redrawRunning = s.redrawRunning := rfl
@[simp] theorem State.notReady_line1 (op : Byte) : (s.notReady op).line1 = s.line1 := rfl
@[simp] theorem State.notReady_line2 (op : Byte) : (s.notReady op).line2 = s.line2 := rfl
@[simp] theorem State.notReady_lcdSeq (op : Byte) : (s.notReady op).lcdSeq = s.lcdSeq := rfl
@[simp] theorem State.notReady_lcdPc (op : Byte) : (s.notReady op).lcdPc = s.lcdPc := rfl
@[simp] theorem State.notReady_cancelled (op : Byte) : (s.notReady op).cancelled = s.cancelled := rfl
@[simp] theorem State.notReady_mapped (op : Byte) : (s.notReady op).mapped = s.mapped := rfl
@[simp] theorem State.notReady_initRunning (op : Byte) : (s.notReady op).initRunning = s.initRunning := rfl
@[simp] theorem State.notReady_initSeq (op : Byte) : (s.notReady op).initSeq = s.initSeq := rfl
@[simp] theorem State.notReady_initPc (op : Byte) : (s.notReady op).initPc = s.initPc := rfl
@[simp] theorem State.notReady_mem (op : Byte) : (s.notReady op).mem = s.mem := rfl
@[simp] theorem State.notReady_latch (op : Byte) : (s.notReady op).latch = s.latch := rfl
@[simp] theorem State.notReady_trace (op : Byte) : (s.notReady op).trace = s.trace ++ [.status op (.notReady s.phase)] := rfl
@[simp] theorem State.notReady_agent (op : Byte) : (s.notReady op).agent = s.agent := rfl
@[simp] theorem State.notReady_schedule (op : Byte) : (s.notReady op).schedule = s.schedule := rfl
@[simp] theorem State.notReady_draws (op : Byte) : (s.notReady op).draws = s.draws := rfl

/-! ## `finishAttach` -/

@[simp] theorem State.finishAttach_cfg : (s.finishAttach).cfg = s.cfg := rfl
@[simp] theorem State.finishAttach_t : (s.finishAttach).t = s.t := rfl
@[simp] theorem State.finishAttach_h : (s.finishAttach).h = s.h := rfl
@[simp] theorem State.finishAttach_phase : (s.finishAttach).phase = .run := rfl
@[simp] theorem State.finishAttach_blinkOn : (s.finishAttach).blinkOn = s.blinkOn := rfl
@[simp] theorem State.finishAttach_timerArmed : (s.finishAttach).timerArmed = true := rfl
@[simp] theorem State.finishAttach_alarmPending : (s.finishAttach).alarmPending = s.alarmPending := rfl
@[simp] theorem State.finishAttach_alarmRunning : (s.finishAttach).alarmRunning = s.alarmRunning := rfl
@[simp] theorem State.finishAttach_alarmPc : (s.finishAttach).alarmPc = s.alarmPc := rfl
@[simp] theorem State.finishAttach_redrawPending : (s.finishAttach).redrawPending = s.redrawPending := rfl
@[simp] theorem State.finishAttach_redrawRunning : (s.finishAttach).redrawRunning = s.redrawRunning := rfl
@[simp] theorem State.finishAttach_line1 : (s.finishAttach).line1 = s.line1 := rfl
@[simp] theorem State.finishAttach_line2 : (s.finishAttach).line2 = s.line2 := rfl
@[simp] theorem State.finishAttach_lcdSeq : (s.finishAttach).lcdSeq = s.lcdSeq := rfl
@[simp] theorem State.finishAttach_lcdPc : (s.finishAttach).lcdPc = s.lcdPc := rfl
@[simp] theorem State.finishAttach_cancelled : (s.finishAttach).cancelled = s.cancelled := rfl
@[simp] theorem State.finishAttach_mapped : (s.finishAttach).mapped = s.mapped := rfl
@[simp] theorem State.finishAttach_initRunning : (s.finishAttach).initRunning = false := rfl
@[simp] theorem State.finishAttach_initSeq : (s.finishAttach).initSeq = s.initSeq := rfl
@[simp] theorem State.finishAttach_initPc : (s.finishAttach).initPc = s.initPc := rfl
@[simp] theorem State.finishAttach_mem : (s.finishAttach).mem = s.mem := rfl
@[simp] theorem State.finishAttach_latch : (s.finishAttach).latch = s.latch := rfl
@[simp] theorem State.finishAttach_trace : (s.finishAttach).trace = s.trace ++ [.timerArm blinkPeriodNs] ++ [.status Instr.attach.opcode (.ok none)] := rfl
@[simp] theorem State.finishAttach_agent : (s.finishAttach).agent = s.agent := rfl
@[simp] theorem State.finishAttach_schedule : (s.finishAttach).schedule = s.schedule := rfl
@[simp] theorem State.finishAttach_draws : (s.finishAttach).draws = s.draws := rfl

/-! ## `pushTurn` -/

@[simp] theorem State.pushTurn_cfg (turn : Turn) : (s.pushTurn turn).cfg = s.cfg := rfl
@[simp] theorem State.pushTurn_t (turn : Turn) : (s.pushTurn turn).t = s.t := rfl
@[simp] theorem State.pushTurn_h (turn : Turn) : (s.pushTurn turn).h = s.h := rfl
@[simp] theorem State.pushTurn_phase (turn : Turn) : (s.pushTurn turn).phase = s.phase := rfl
@[simp] theorem State.pushTurn_blinkOn (turn : Turn) : (s.pushTurn turn).blinkOn = s.blinkOn := rfl
@[simp] theorem State.pushTurn_timerArmed (turn : Turn) : (s.pushTurn turn).timerArmed = s.timerArmed := rfl
@[simp] theorem State.pushTurn_alarmPending (turn : Turn) : (s.pushTurn turn).alarmPending = s.alarmPending := rfl
@[simp] theorem State.pushTurn_alarmRunning (turn : Turn) : (s.pushTurn turn).alarmRunning = s.alarmRunning := rfl
@[simp] theorem State.pushTurn_alarmPc (turn : Turn) : (s.pushTurn turn).alarmPc = s.alarmPc := rfl
@[simp] theorem State.pushTurn_redrawPending (turn : Turn) : (s.pushTurn turn).redrawPending = s.redrawPending := rfl
@[simp] theorem State.pushTurn_redrawRunning (turn : Turn) : (s.pushTurn turn).redrawRunning = s.redrawRunning := rfl
@[simp] theorem State.pushTurn_line1 (turn : Turn) : (s.pushTurn turn).line1 = s.line1 := rfl
@[simp] theorem State.pushTurn_line2 (turn : Turn) : (s.pushTurn turn).line2 = s.line2 := rfl
@[simp] theorem State.pushTurn_lcdSeq (turn : Turn) : (s.pushTurn turn).lcdSeq = s.lcdSeq := rfl
@[simp] theorem State.pushTurn_lcdPc (turn : Turn) : (s.pushTurn turn).lcdPc = s.lcdPc := rfl
@[simp] theorem State.pushTurn_cancelled (turn : Turn) : (s.pushTurn turn).cancelled = s.cancelled := rfl
@[simp] theorem State.pushTurn_mapped (turn : Turn) : (s.pushTurn turn).mapped = s.mapped := rfl
@[simp] theorem State.pushTurn_initRunning (turn : Turn) : (s.pushTurn turn).initRunning = s.initRunning := rfl
@[simp] theorem State.pushTurn_initSeq (turn : Turn) : (s.pushTurn turn).initSeq = s.initSeq := rfl
@[simp] theorem State.pushTurn_initPc (turn : Turn) : (s.pushTurn turn).initPc = s.initPc := rfl
@[simp] theorem State.pushTurn_mem (turn : Turn) : (s.pushTurn turn).mem = s.mem := rfl
@[simp] theorem State.pushTurn_latch (turn : Turn) : (s.pushTurn turn).latch = s.latch := rfl
@[simp] theorem State.pushTurn_trace (turn : Turn) : (s.pushTurn turn).trace = s.trace := rfl
@[simp] theorem State.pushTurn_agent (turn : Turn) : (s.pushTurn turn).agent = s.agent := rfl
@[simp] theorem State.pushTurn_schedule (turn : Turn) : (s.pushTurn turn).schedule = turn :: s.schedule := rfl
@[simp] theorem State.pushTurn_draws (turn : Turn) : (s.pushTurn turn).draws = s.draws := rfl

/-! ## `delay` -/

@[simp] theorem State.delay_cfg (ns : Word) : (delay ns s).cfg = s.cfg := rfl
@[simp] theorem State.delay_t (ns : Word) : (delay ns s).t = s.t := rfl
@[simp] theorem State.delay_h (ns : Word) : (delay ns s).h = s.h := rfl
@[simp] theorem State.delay_phase (ns : Word) : (delay ns s).phase = s.phase := rfl
@[simp] theorem State.delay_blinkOn (ns : Word) : (delay ns s).blinkOn = s.blinkOn := rfl
@[simp] theorem State.delay_timerArmed (ns : Word) : (delay ns s).timerArmed = s.timerArmed := rfl
@[simp] theorem State.delay_alarmPending (ns : Word) : (delay ns s).alarmPending = s.alarmPending := rfl
@[simp] theorem State.delay_alarmRunning (ns : Word) : (delay ns s).alarmRunning = s.alarmRunning := rfl
@[simp] theorem State.delay_alarmPc (ns : Word) : (delay ns s).alarmPc = s.alarmPc := rfl
@[simp] theorem State.delay_redrawPending (ns : Word) : (delay ns s).redrawPending = s.redrawPending := rfl
@[simp] theorem State.delay_redrawRunning (ns : Word) : (delay ns s).redrawRunning = s.redrawRunning := rfl
@[simp] theorem State.delay_line1 (ns : Word) : (delay ns s).line1 = s.line1 := rfl
@[simp] theorem State.delay_line2 (ns : Word) : (delay ns s).line2 = s.line2 := rfl
@[simp] theorem State.delay_lcdSeq (ns : Word) : (delay ns s).lcdSeq = s.lcdSeq := rfl
@[simp] theorem State.delay_lcdPc (ns : Word) : (delay ns s).lcdPc = s.lcdPc := rfl
@[simp] theorem State.delay_cancelled (ns : Word) : (delay ns s).cancelled = s.cancelled := rfl
@[simp] theorem State.delay_mapped (ns : Word) : (delay ns s).mapped = s.mapped := rfl
@[simp] theorem State.delay_initRunning (ns : Word) : (delay ns s).initRunning = s.initRunning := rfl
@[simp] theorem State.delay_initSeq (ns : Word) : (delay ns s).initSeq = s.initSeq := rfl
@[simp] theorem State.delay_initPc (ns : Word) : (delay ns s).initPc = s.initPc := rfl
@[simp] theorem State.delay_mem (ns : Word) : (delay ns s).mem = s.mem := rfl
@[simp] theorem State.delay_latch (ns : Word) : (delay ns s).latch = s.latch := rfl
@[simp] theorem State.delay_trace (ns : Word) : (delay ns s).trace = s.trace ++ [.wait s.agent ns] := rfl
@[simp] theorem State.delay_agent (ns : Word) : (delay ns s).agent = s.agent := rfl
@[simp] theorem State.delay_schedule (ns : Word) : (delay ns s).schedule = s.schedule := rfl
@[simp] theorem State.delay_draws (ns : Word) : (delay ns s).draws = s.draws := rfl

/-! ## `abortAttach` -/

@[simp] theorem State.abortAttach_cfg (a : Word) : (s.abortAttach a).cfg = s.cfg := rfl
@[simp] theorem State.abortAttach_t (a : Word) : (s.abortAttach a).t = s.t := rfl
@[simp] theorem State.abortAttach_h (a : Word) : (s.abortAttach a).h = s.h := rfl
@[simp] theorem State.abortAttach_phase (a : Word) : (s.abortAttach a).phase = .failed := rfl
@[simp] theorem State.abortAttach_blinkOn (a : Word) : (s.abortAttach a).blinkOn = s.blinkOn := rfl
@[simp] theorem State.abortAttach_timerArmed (a : Word) : (s.abortAttach a).timerArmed = s.timerArmed := rfl
@[simp] theorem State.abortAttach_alarmPending (a : Word) : (s.abortAttach a).alarmPending = s.alarmPending := rfl
@[simp] theorem State.abortAttach_alarmRunning (a : Word) : (s.abortAttach a).alarmRunning = s.alarmRunning := rfl
@[simp] theorem State.abortAttach_alarmPc (a : Word) : (s.abortAttach a).alarmPc = s.alarmPc := rfl
@[simp] theorem State.abortAttach_redrawPending (a : Word) : (s.abortAttach a).redrawPending = s.redrawPending := rfl
@[simp] theorem State.abortAttach_redrawRunning (a : Word) : (s.abortAttach a).redrawRunning = s.redrawRunning := rfl
@[simp] theorem State.abortAttach_line1 (a : Word) : (s.abortAttach a).line1 = s.line1 := rfl
@[simp] theorem State.abortAttach_line2 (a : Word) : (s.abortAttach a).line2 = s.line2 := rfl
@[simp] theorem State.abortAttach_lcdSeq (a : Word) : (s.abortAttach a).lcdSeq = s.lcdSeq := rfl
@[simp] theorem State.abortAttach_lcdPc (a : Word) : (s.abortAttach a).lcdPc = s.lcdPc := rfl
@[simp] theorem State.abortAttach_cancelled (a : Word) : (s.abortAttach a).cancelled = s.cancelled := rfl
@[simp] theorem State.abortAttach_mapped (a : Word) : (s.abortAttach a).mapped = [] := rfl
@[simp] theorem State.abortAttach_initRunning (a : Word) : (s.abortAttach a).initRunning = false := rfl
@[simp] theorem State.abortAttach_initSeq (a : Word) : (s.abortAttach a).initSeq = s.initSeq := rfl
@[simp] theorem State.abortAttach_initPc (a : Word) : (s.abortAttach a).initPc = s.initPc := rfl
@[simp] theorem State.abortAttach_mem (a : Word) : (s.abortAttach a).mem = s.mem := rfl
@[simp] theorem State.abortAttach_latch (a : Word) : (s.abortAttach a).latch = s.latch := rfl
@[simp] theorem State.abortAttach_trace (a : Word) : (s.abortAttach a).trace = s.trace ++ s.mapped.reverse.map Event.unmap ++ [.status Instr.attach.opcode (.mapError a)] := rfl
@[simp] theorem State.abortAttach_agent (a : Word) : (s.abortAttach a).agent = s.agent := rfl
@[simp] theorem State.abortAttach_schedule (a : Word) : (s.abortAttach a).schedule = s.schedule := rfl
@[simp] theorem State.abortAttach_draws (a : Word) : (s.abortAttach a).draws = s.draws := rfl

/-! ## `hardwareReset` -/

@[simp] theorem State.hardwareReset_cfg : (s.hardwareReset).cfg = s.cfg := rfl
@[simp] theorem State.hardwareReset_t : (s.hardwareReset).t = 0 := rfl
@[simp] theorem State.hardwareReset_h : (s.hardwareReset).h = 0 := rfl
@[simp] theorem State.hardwareReset_phase : (s.hardwareReset).phase = .reset := rfl
@[simp] theorem State.hardwareReset_blinkOn : (s.hardwareReset).blinkOn = false := rfl
@[simp] theorem State.hardwareReset_timerArmed : (s.hardwareReset).timerArmed = false := rfl
@[simp] theorem State.hardwareReset_alarmPending : (s.hardwareReset).alarmPending = false := rfl
@[simp] theorem State.hardwareReset_alarmRunning : (s.hardwareReset).alarmRunning = false := rfl
@[simp] theorem State.hardwareReset_alarmPc : (s.hardwareReset).alarmPc = 0 := rfl
@[simp] theorem State.hardwareReset_redrawPending : (s.hardwareReset).redrawPending = false := rfl
@[simp] theorem State.hardwareReset_redrawRunning : (s.hardwareReset).redrawRunning = false := rfl
@[simp] theorem State.hardwareReset_line1 : (s.hardwareReset).line1 = [] := rfl
@[simp] theorem State.hardwareReset_line2 : (s.hardwareReset).line2 = [] := rfl
@[simp] theorem State.hardwareReset_lcdSeq : (s.hardwareReset).lcdSeq = [] := rfl
@[simp] theorem State.hardwareReset_lcdPc : (s.hardwareReset).lcdPc = 0 := rfl
@[simp] theorem State.hardwareReset_cancelled : (s.hardwareReset).cancelled = false := rfl
@[simp] theorem State.hardwareReset_mapped : (s.hardwareReset).mapped = [] := rfl
@[simp] theorem State.hardwareReset_initRunning : (s.hardwareReset).initRunning = false := rfl
@[simp] theorem State.hardwareReset_initSeq : (s.hardwareReset).initSeq = [] := rfl
@[simp] theorem State.hardwareReset_initPc : (s.hardwareReset).initPc = 0 := rfl
@[simp] theorem State.hardwareReset_mem : (s.hardwareReset).mem = s.mem := rfl
@[simp] theorem State.hardwareReset_latch : (s.hardwareReset).latch = s.latch := rfl
@[simp] theorem State.hardwareReset_trace : (s.hardwareReset).trace = [] := rfl
@[simp] theorem State.hardwareReset_agent : (s.hardwareReset).agent = .host := rfl
@[simp] theorem State.hardwareReset_schedule : (s.hardwareReset).schedule = s.schedule := rfl
@[simp] theorem State.hardwareReset_draws : (s.hardwareReset).draws = s.draws + 1 := rfl

/-! ## `enqueueAlarm` -/

@[simp] theorem State.enqueueAlarm_cfg : (s.enqueueAlarm).cfg = s.cfg := by
  unfold State.enqueueAlarm; split <;> rfl
@[simp] theorem State.enqueueAlarm_t : (s.enqueueAlarm).t = s.t := by
  unfold State.enqueueAlarm; split <;> rfl
@[simp] theorem State.enqueueAlarm_h : (s.enqueueAlarm).h = s.h := by
  unfold State.enqueueAlarm; split <;> rfl
@[simp] theorem State.enqueueAlarm_phase : (s.enqueueAlarm).phase = s.phase := by
  unfold State.enqueueAlarm; split <;> rfl
@[simp] theorem State.enqueueAlarm_blinkOn : (s.enqueueAlarm).blinkOn = s.blinkOn := by
  unfold State.enqueueAlarm; split <;> rfl
@[simp] theorem State.enqueueAlarm_timerArmed : (s.enqueueAlarm).timerArmed = s.timerArmed := by
  unfold State.enqueueAlarm; split <;> rfl
@[simp] theorem State.enqueueAlarm_alarmPending : (s.enqueueAlarm).alarmPending = true := by
  unfold State.enqueueAlarm; split <;> simp_all
@[simp] theorem State.enqueueAlarm_alarmRunning : (s.enqueueAlarm).alarmRunning = s.alarmRunning := by
  unfold State.enqueueAlarm; split <;> rfl
@[simp] theorem State.enqueueAlarm_alarmPc : (s.enqueueAlarm).alarmPc = s.alarmPc := by
  unfold State.enqueueAlarm; split <;> rfl
@[simp] theorem State.enqueueAlarm_redrawPending : (s.enqueueAlarm).redrawPending = s.redrawPending := by
  unfold State.enqueueAlarm; split <;> rfl
@[simp] theorem State.enqueueAlarm_redrawRunning : (s.enqueueAlarm).redrawRunning = s.redrawRunning := by
  unfold State.enqueueAlarm; split <;> rfl
@[simp] theorem State.enqueueAlarm_line1 : (s.enqueueAlarm).line1 = s.line1 := by
  unfold State.enqueueAlarm; split <;> rfl
@[simp] theorem State.enqueueAlarm_line2 : (s.enqueueAlarm).line2 = s.line2 := by
  unfold State.enqueueAlarm; split <;> rfl
@[simp] theorem State.enqueueAlarm_lcdSeq : (s.enqueueAlarm).lcdSeq = s.lcdSeq := by
  unfold State.enqueueAlarm; split <;> rfl
@[simp] theorem State.enqueueAlarm_lcdPc : (s.enqueueAlarm).lcdPc = s.lcdPc := by
  unfold State.enqueueAlarm; split <;> rfl
@[simp] theorem State.enqueueAlarm_cancelled : (s.enqueueAlarm).cancelled = s.cancelled := by
  unfold State.enqueueAlarm; split <;> rfl
@[simp] theorem State.enqueueAlarm_mapped : (s.enqueueAlarm).mapped = s.mapped := by
  unfold State.enqueueAlarm; split <;> rfl
@[simp] theorem State.enqueueAlarm_initRunning : (s.enqueueAlarm).initRunning = s.initRunning := by
  unfold State.enqueueAlarm; split <;> rfl
@[simp] theorem State.enqueueAlarm_initSeq : (s.enqueueAlarm).initSeq = s.initSeq := by
  unfold State.enqueueAlarm; split <;> rfl
@[simp] theorem State.enqueueAlarm_initPc : (s.enqueueAlarm).initPc = s.initPc := by
  unfold State.enqueueAlarm; split <;> rfl
@[simp] theorem State.enqueueAlarm_mem : (s.enqueueAlarm).mem = s.mem := by
  unfold State.enqueueAlarm; split <;> rfl
@[simp] theorem State.enqueueAlarm_latch : (s.enqueueAlarm).latch = s.latch := by
  unfold State.enqueueAlarm; split <;> rfl
@[simp] theorem State.enqueueAlarm_trace : (s.enqueueAlarm).trace = s.trace := by
  unfold State.enqueueAlarm; split <;> rfl
@[simp] theorem State.enqueueAlarm_agent : (s.enqueueAlarm).agent = s.agent := by
  unfold State.enqueueAlarm; split <;> rfl
@[simp] theorem State.enqueueAlarm_schedule : (s.enqueueAlarm).schedule = s.schedule := by
  unfold State.enqueueAlarm; split <;> rfl
@[simp] theorem State.enqueueAlarm_draws : (s.enqueueAlarm).draws = s.draws := by
  unfold State.enqueueAlarm; split <;> rfl

/-! ## `enqueueRedraw` -/

@[simp] theorem State.enqueueRedraw_cfg : (s.enqueueRedraw).cfg = s.cfg := by
  unfold State.enqueueRedraw; split <;> rfl
@[simp] theorem State.enqueueRedraw_t : (s.enqueueRedraw).t = s.t := by
  unfold State.enqueueRedraw; split <;> rfl
@[simp] theorem State.enqueueRedraw_h : (s.enqueueRedraw).h = s.h := by
  unfold State.enqueueRedraw; split <;> rfl
@[simp] theorem State.enqueueRedraw_phase : (s.enqueueRedraw).phase = s.phase := by
  unfold State.enqueueRedraw; split <;> rfl
@[simp] theorem State.enqueueRedraw_blinkOn : (s.enqueueRedraw).blinkOn = s.blinkOn := by
  unfold State.enqueueRedraw; split <;> rfl
@[simp] theorem State.enqueueRedraw_timerArmed : (s.enqueueRedraw).timerArmed = s.timerArmed := by
  unfold State.enqueueRedraw; split <;> rfl
@[simp] theorem State.enqueueRedraw_alarmPending : (s.enqueueRedraw).alarmPending = s.alarmPending := by
  unfold State.enqueueRedraw; split <;> rfl
@[simp] theorem State.enqueueRedraw_alarmRunning : (s.enqueueRedraw).alarmRunning = s.alarmRunning := by
  unfold State.enqueueRedraw; split <;> rfl
@[simp] theorem State.enqueueRedraw_alarmPc : (s.enqueueRedraw).alarmPc = s.alarmPc := by
  unfold State.enqueueRedraw; split <;> rfl
@[simp] theorem State.enqueueRedraw_redrawPending : (s.enqueueRedraw).redrawPending = true := by
  unfold State.enqueueRedraw; split <;> simp_all
@[simp] theorem State.enqueueRedraw_redrawRunning : (s.enqueueRedraw).redrawRunning = s.redrawRunning := by
  unfold State.enqueueRedraw; split <;> rfl
@[simp] theorem State.enqueueRedraw_line1 : (s.enqueueRedraw).line1 = s.line1 := by
  unfold State.enqueueRedraw; split <;> rfl
@[simp] theorem State.enqueueRedraw_line2 : (s.enqueueRedraw).line2 = s.line2 := by
  unfold State.enqueueRedraw; split <;> rfl
@[simp] theorem State.enqueueRedraw_lcdSeq : (s.enqueueRedraw).lcdSeq = s.lcdSeq := by
  unfold State.enqueueRedraw; split <;> rfl
@[simp] theorem State.enqueueRedraw_lcdPc : (s.enqueueRedraw).lcdPc = s.lcdPc := by
  unfold State.enqueueRedraw; split <;> rfl
@[simp] theorem State.enqueueRedraw_cancelled : (s.enqueueRedraw).cancelled = s.cancelled := by
  unfold State.enqueueRedraw; split <;> rfl
@[simp] theorem State.enqueueRedraw_mapped : (s.enqueueRedraw).mapped = s.mapped := by
  unfold State.enqueueRedraw; split <;> rfl
@[simp] theorem State.enqueueRedraw_initRunning : (s.enqueueRedraw).initRunning = s.initRunning := by
  unfold State.enqueueRedraw; split <;> rfl
@[simp] theorem State.enqueueRedraw_initSeq : (s.enqueueRedraw).initSeq = s.initSeq := by
  unfold State.enqueueRedraw; split <;> rfl
@[simp] theorem State.enqueueRedraw_initPc : (s.enqueueRedraw).initPc = s.initPc := by
  unfold State.enqueueRedraw; split <;> rfl
@[simp] theorem State.enqueueRedraw_mem : (s.enqueueRedraw).mem = s.mem := by
  unfold State.enqueueRedraw; split <;> rfl
@[simp] theorem State.enqueueRedraw_latch : (s.enqueueRedraw).latch = s.latch := by
  unfold State.enqueueRedraw; split <;> rfl
@[simp] theorem State.enqueueRedraw_trace : (s.enqueueRedraw).trace = s.trace := by
  unfold State.enqueueRedraw; split <;> rfl
@[simp] theorem State.enqueueRedraw_agent : (s.enqueueRedraw).agent = s.agent := by
  unfold State.enqueueRedraw; split <;> rfl
@[simp] theorem State.enqueueRedraw_schedule : (s.enqueueRedraw).schedule = s.schedule := by
  unfold State.enqueueRedraw; split <;> rfl
@[simp] theorem State.enqueueRedraw_draws : (s.enqueueRedraw).draws = s.draws := by
  unfold State.enqueueRedraw; split <;> rfl

/-! ## `evalAlarm`, `scheduleRedraw` -/

@[simp] theorem State.evalAlarm_cfg : s.evalAlarm.cfg = s.cfg := by
  unfold State.evalAlarm; split <;> simp
@[simp] theorem State.evalAlarm_t : s.evalAlarm.t = s.t := by
  unfold State.evalAlarm; split <;> simp
@[simp] theorem State.evalAlarm_h : s.evalAlarm.h = s.h := by
  unfold State.evalAlarm; split <;> simp
@[simp] theorem State.evalAlarm_phase : s.evalAlarm.phase = s.phase := by
  unfold State.evalAlarm; split <;> simp
@[simp] theorem State.evalAlarm_blinkOn : s.evalAlarm.blinkOn = s.blinkOn := by
  unfold State.evalAlarm; split <;> simp
@[simp] theorem State.evalAlarm_timerArmed : s.evalAlarm.timerArmed = s.timerArmed := by
  unfold State.evalAlarm; split <;> simp
@[simp] theorem State.evalAlarm_alarmPending : s.evalAlarm.alarmPending = (s.alarmPending || s.alarmWanted) := by
  unfold State.evalAlarm; split <;> simp_all
@[simp] theorem State.evalAlarm_alarmRunning : s.evalAlarm.alarmRunning = s.alarmRunning := by
  unfold State.evalAlarm; split <;> simp
@[simp] theorem State.evalAlarm_alarmPc : s.evalAlarm.alarmPc = s.alarmPc := by
  unfold State.evalAlarm; split <;> simp
@[simp] theorem State.evalAlarm_redrawPending : s.evalAlarm.redrawPending = s.redrawPending := by
  unfold State.evalAlarm; split <;> simp
@[simp] theorem State.evalAlarm_redrawRunning : s.evalAlarm.redrawRunning = s.redrawRunning := by
  unfold State.evalAlarm; split <;> simp
@[simp] theorem State.evalAlarm_line1 : s.evalAlarm.line1 = s.line1 := by
  unfold State.evalAlarm; split <;> simp
@[simp] theorem State.evalAlarm_line2 : s.evalAlarm.line2 = s.line2 := by
  unfold State.evalAlarm; split <;> simp
@[simp] theorem State.evalAlarm_lcdSeq : s.evalAlarm.lcdSeq = s.lcdSeq := by
  unfold State.evalAlarm; split <;> simp
@[simp] theorem State.evalAlarm_lcdPc : s.evalAlarm.lcdPc = s.lcdPc := by
  unfold State.evalAlarm; split <;> simp
@[simp] theorem State.evalAlarm_cancelled : s.evalAlarm.cancelled = s.cancelled := by
  unfold State.evalAlarm; split <;> simp
@[simp] theorem State.evalAlarm_mapped : s.evalAlarm.mapped = s.mapped := by
  unfold State.evalAlarm; split <;> simp
@[simp] theorem State.evalAlarm_initRunning : s.evalAlarm.initRunning = s.initRunning := by
  unfold State.evalAlarm; split <;> simp
@[simp] theorem State.evalAlarm_initSeq : s.evalAlarm.initSeq = s.initSeq := by
  unfold State.evalAlarm; split <;> simp
@[simp] theorem State.evalAlarm_initPc : s.evalAlarm.initPc = s.initPc := by
  unfold State.evalAlarm; split <;> simp
@[simp] theorem State.evalAlarm_mem : s.evalAlarm.mem = s.mem := by
  unfold State.evalAlarm; split <;> simp
@[simp] theorem State.evalAlarm_latch : s.evalAlarm.latch = s.latch := by
  unfold State.evalAlarm; split <;> simp
@[simp] theorem State.evalAlarm_trace : s.evalAlarm.trace = s.trace := by
  unfold State.evalAlarm; split <;> simp
@[simp] theorem State.evalAlarm_agent : s.evalAlarm.agent = s.agent := by
  unfold State.evalAlarm; split <;> simp
@[simp] theorem State.evalAlarm_schedule : s.evalAlarm.schedule = s.schedule := by
  unfold State.evalAlarm; split <;> simp
@[simp] theorem State.evalAlarm_draws : s.evalAlarm.draws = s.draws := by
  unfold State.evalAlarm; split <;> simp

@[simp] theorem State.scheduleRedraw_cfg : s.scheduleRedraw.cfg = s.cfg := by
  unfold State.scheduleRedraw; split <;> simp
@[simp] theorem State.scheduleRedraw_t : s.scheduleRedraw.t = s.t := by
  unfold State.scheduleRedraw; split <;> simp
@[simp] theorem State.scheduleRedraw_h : s.scheduleRedraw.h = s.h := by
  unfold State.scheduleRedraw; split <;> simp
@[simp] theorem State.scheduleRedraw_phase : s.scheduleRedraw.phase = s.phase := by
  unfold State.scheduleRedraw; split <;> simp
@[simp] theorem State.scheduleRedraw_blinkOn : s.scheduleRedraw.blinkOn = s.blinkOn := by
  unfold State.scheduleRedraw; split <;> simp
@[simp] theorem State.scheduleRedraw_timerArmed : s.scheduleRedraw.timerArmed = s.timerArmed := by
  unfold State.scheduleRedraw; split <;> simp
@[simp] theorem State.scheduleRedraw_alarmPending : s.scheduleRedraw.alarmPending = s.alarmPending := by
  unfold State.scheduleRedraw; split <;> simp
@[simp] theorem State.scheduleRedraw_alarmRunning : s.scheduleRedraw.alarmRunning = s.alarmRunning := by
  unfold State.scheduleRedraw; split <;> simp
@[simp] theorem State.scheduleRedraw_alarmPc : s.scheduleRedraw.alarmPc = s.alarmPc := by
  unfold State.scheduleRedraw; split <;> simp
@[simp] theorem State.scheduleRedraw_redrawPending : s.scheduleRedraw.redrawPending = (s.redrawPending || !s.cancelled) := by
  unfold State.scheduleRedraw; split <;> simp_all
@[simp] theorem State.scheduleRedraw_redrawRunning : s.scheduleRedraw.redrawRunning = s.redrawRunning := by
  unfold State.scheduleRedraw; split <;> simp
@[simp] theorem State.scheduleRedraw_line1 : s.scheduleRedraw.line1 = s.line1 := by
  unfold State.scheduleRedraw; split <;> simp
@[simp] theorem State.scheduleRedraw_line2 : s.scheduleRedraw.line2 = s.line2 := by
  unfold State.scheduleRedraw; split <;> simp
@[simp] theorem State.scheduleRedraw_lcdSeq : s.scheduleRedraw.lcdSeq = s.lcdSeq := by
  unfold State.scheduleRedraw; split <;> simp
@[simp] theorem State.scheduleRedraw_lcdPc : s.scheduleRedraw.lcdPc = s.lcdPc := by
  unfold State.scheduleRedraw; split <;> simp
@[simp] theorem State.scheduleRedraw_cancelled : s.scheduleRedraw.cancelled = s.cancelled := by
  unfold State.scheduleRedraw; split <;> simp
@[simp] theorem State.scheduleRedraw_mapped : s.scheduleRedraw.mapped = s.mapped := by
  unfold State.scheduleRedraw; split <;> simp
@[simp] theorem State.scheduleRedraw_initRunning : s.scheduleRedraw.initRunning = s.initRunning := by
  unfold State.scheduleRedraw; split <;> simp
@[simp] theorem State.scheduleRedraw_initSeq : s.scheduleRedraw.initSeq = s.initSeq := by
  unfold State.scheduleRedraw; split <;> simp
@[simp] theorem State.scheduleRedraw_initPc : s.scheduleRedraw.initPc = s.initPc := by
  unfold State.scheduleRedraw; split <;> simp
@[simp] theorem State.scheduleRedraw_mem : s.scheduleRedraw.mem = s.mem := by
  unfold State.scheduleRedraw; split <;> simp
@[simp] theorem State.scheduleRedraw_latch : s.scheduleRedraw.latch = s.latch := by
  unfold State.scheduleRedraw; split <;> simp
@[simp] theorem State.scheduleRedraw_trace : s.scheduleRedraw.trace = s.trace := by
  unfold State.scheduleRedraw; split <;> simp
@[simp] theorem State.scheduleRedraw_agent : s.scheduleRedraw.agent = s.agent := by
  unfold State.scheduleRedraw; split <;> simp
@[simp] theorem State.scheduleRedraw_schedule : s.scheduleRedraw.schedule = s.schedule := by
  unfold State.scheduleRedraw; split <;> simp
@[simp] theorem State.scheduleRedraw_draws : s.scheduleRedraw.draws = s.draws := by
  unfold State.scheduleRedraw; split <;> simp

/-! ## `rearmTimer`, `popTurn` -/

@[simp] theorem State.rearmTimer_cfg : s.rearmTimer.cfg = s.cfg := by
  unfold State.rearmTimer; split <;> simp
@[simp] theorem State.rearmTimer_t : s.rearmTimer.t = s.t := by
  unfold State.rearmTimer; split <;> simp
@[simp] theorem State.rearmTimer_h : s.rearmTimer.h = s.h := by
  unfold State.rearmTimer; split <;> simp
@[simp] theorem State.rearmTimer_phase : s.rearmTimer.phase = s.phase := by
  unfold State.rearmTimer; split <;> simp
@[simp] theorem State.rearmTimer_blinkOn : s.rearmTimer.blinkOn = s.blinkOn := by
  unfold State.rearmTimer; split <;> simp
@[simp] theorem State.rearmTimer_timerArmed : s.rearmTimer.timerArmed = (s.timerArmed || !s.cancelled) := by
  unfold State.rearmTimer; split <;> simp_all
@[simp] theorem State.rearmTimer_alarmPending : s.rearmTimer.alarmPending = s.alarmPending := by
  unfold State.rearmTimer; split <;> simp
@[simp] theorem State.rearmTimer_alarmRunning : s.rearmTimer.alarmRunning = s.alarmRunning := by
  unfold State.rearmTimer; split <;> simp
@[simp] theorem State.rearmTimer_alarmPc : s.rearmTimer.alarmPc = s.alarmPc := by
  unfold State.rearmTimer; split <;> simp
@[simp] theorem State.rearmTimer_redrawPending : s.rearmTimer.redrawPending = s.redrawPending := by
  unfold State.rearmTimer; split <;> simp
@[simp] theorem State.rearmTimer_redrawRunning : s.rearmTimer.redrawRunning = s.redrawRunning := by
  unfold State.rearmTimer; split <;> simp
@[simp] theorem State.rearmTimer_line1 : s.rearmTimer.line1 = s.line1 := by
  unfold State.rearmTimer; split <;> simp
@[simp] theorem State.rearmTimer_line2 : s.rearmTimer.line2 = s.line2 := by
  unfold State.rearmTimer; split <;> simp
@[simp] theorem State.rearmTimer_lcdSeq : s.rearmTimer.lcdSeq = s.lcdSeq := by
  unfold State.rearmTimer; split <;> simp
@[simp] theorem State.rearmTimer_lcdPc : s.rearmTimer.lcdPc = s.lcdPc := by
  unfold State.rearmTimer; split <;> simp
@[simp] theorem State.rearmTimer_cancelled : s.rearmTimer.cancelled = s.cancelled := by
  unfold State.rearmTimer; split <;> simp
@[simp] theorem State.rearmTimer_mapped : s.rearmTimer.mapped = s.mapped := by
  unfold State.rearmTimer; split <;> simp
@[simp] theorem State.rearmTimer_initRunning : s.rearmTimer.initRunning = s.initRunning := by
  unfold State.rearmTimer; split <;> simp
@[simp] theorem State.rearmTimer_initSeq : s.rearmTimer.initSeq = s.initSeq := by
  unfold State.rearmTimer; split <;> simp
@[simp] theorem State.rearmTimer_initPc : s.rearmTimer.initPc = s.initPc := by
  unfold State.rearmTimer; split <;> simp
@[simp] theorem State.rearmTimer_mem : s.rearmTimer.mem = s.mem := by
  unfold State.rearmTimer; split <;> simp
@[simp] theorem State.rearmTimer_latch : s.rearmTimer.latch = s.latch := by
  unfold State.rearmTimer; split <;> simp
theorem State.rearmTimer_trace :
    s.rearmTimer.trace = if s.cancelled then s.trace else s.trace ++ [.timerArm blinkPeriodNs] := by
  unfold State.rearmTimer; split <;> simp
@[simp] theorem State.rearmTimer_agent : s.rearmTimer.agent = s.agent := by
  unfold State.rearmTimer; split <;> simp
@[simp] theorem State.rearmTimer_schedule : s.rearmTimer.schedule = s.schedule := by
  unfold State.rearmTimer; split <;> simp
@[simp] theorem State.rearmTimer_draws : s.rearmTimer.draws = s.draws := by
  unfold State.rearmTimer; split <;> simp

@[simp] theorem State.popTurn_cfg : s.popTurn.cfg = s.cfg := by
  unfold State.popTurn; split <;> rfl
@[simp] theorem State.popTurn_t : s.popTurn.t = s.t := by
  unfold State.popTurn; split <;> rfl
@[simp] theorem State.popTurn_h : s.popTurn.h = s.h := by
  unfold State.popTurn; split <;> rfl
@[simp] theorem State.popTurn_phase : s.popTurn.phase = s.phase := by
  unfold State.popTurn; split <;> rfl
@[simp] theorem State.popTurn_blinkOn : s.popTurn.blinkOn = s.blinkOn := by
  unfold State.popTurn; split <;> rfl
@[simp] theorem State.popTurn_timerArmed : s.popTurn.timerArmed = s.timerArmed := by
  unfold State.popTurn; split <;> rfl
@[simp] theorem State.popTurn_alarmPending : s.popTurn.alarmPending = s.alarmPending := by
  unfold State.popTurn; split <;> rfl
@[simp] theorem State.popTurn_alarmRunning : s.popTurn.alarmRunning = s.alarmRunning := by
  unfold State.popTurn; split <;> rfl
@[simp] theorem State.popTurn_alarmPc : s.popTurn.alarmPc = s.alarmPc := by
  unfold State.popTurn; split <;> rfl
@[simp] theorem State.popTurn_redrawPending : s.popTurn.redrawPending = s.redrawPending := by
  unfold State.popTurn; split <;> rfl
@[simp] theorem State.popTurn_redrawRunning : s.popTurn.redrawRunning = s.redrawRunning := by
  unfold State.popTurn; split <;> rfl
@[simp] theorem State.popTurn_line1 : s.popTurn.line1 = s.line1 := by
  unfold State.popTurn; split <;> rfl
@[simp] theorem State.popTurn_line2 : s.popTurn.line2 = s.line2 := by
  unfold State.popTurn; split <;> rfl
@[simp] theorem State.popTurn_lcdSeq : s.popTurn.lcdSeq = s.lcdSeq := by
  unfold State.popTurn; split <;> rfl
@[simp] theorem State.popTurn_lcdPc : s.popTurn.lcdPc = s.lcdPc := by
  unfold State.popTurn; split <;> rfl
@[simp] theorem State.popTurn_cancelled : s.popTurn.cancelled = s.cancelled := by
  unfold State.popTurn; split <;> rfl
@[simp] theorem State.popTurn_mapped : s.popTurn.mapped = s.mapped := by
  unfold State.popTurn; split <;> rfl
@[simp] theorem State.popTurn_initRunning : s.popTurn.initRunning = s.initRunning := by
  unfold State.popTurn; split <;> rfl
@[simp] theorem State.popTurn_initSeq : s.popTurn.initSeq = s.initSeq := by
  unfold State.popTurn; split <;> rfl
@[simp] theorem State.popTurn_initPc : s.popTurn.initPc = s.initPc := by
  unfold State.popTurn; split <;> rfl
@[simp] theorem State.popTurn_mem : s.popTurn.mem = s.mem := by
  unfold State.popTurn; split <;> rfl
@[simp] theorem State.popTurn_latch : s.popTurn.latch = s.latch := by
  unfold State.popTurn; split <;> rfl
@[simp] theorem State.popTurn_trace : s.popTurn.trace = s.trace := by
  unfold State.popTurn; split <;> rfl
@[simp] theorem State.popTurn_agent : s.popTurn.agent = s.agent := by
  unfold State.popTurn; split <;> rfl

/-! ## The conditional updates in closed form -/

theorem State.evalAlarm_eq : s.evalAlarm = { s with alarmPending := s.alarmPending || s.alarmWanted } := by
  unfold State.evalAlarm State.enqueueAlarm
  cases s
  split
  · split <;> simp_all
  · simp_all

theorem State.scheduleRedraw_eq : s.scheduleRedraw = { s with redrawPending := s.redrawPending || !s.cancelled } := by
  unfold State.scheduleRedraw State.enqueueRedraw
  cases s
  split
  · simp_all
  · split <;> simp_all

theorem State.rearmTimer_eq :
    s.rearmTimer =
      { s with
        timerArmed := s.timerArmed || !s.cancelled
        trace := s.trace ++ (if s.cancelled then [] else [.timerArm blinkPeriodNs]) } := by
  unfold State.rearmTimer State.armTimer State.emit
  cases s
  split <;> simp_all

/-! ## When an operation is accepted or an agent enabled -/

theorem State.attachAccepted_iff : s.attachAccepted = true ↔ s.phase = .reset ∧ s.initRunning = false := by
  simp [State.attachAccepted]

theorem State.commandAccepted_iff : s.commandAccepted = true ↔ s.phase = .run := by simp [State.commandAccepted]

theorem State.blinkEnabled_iff : s.blinkEnabled = true ↔ s.timerArmed = true ∧ s.phase = .run := by
  simp [State.blinkEnabled]

theorem State.alarmMayStart_iff :
    s.alarmMayStart = true ↔ s.alarmPending = true ∧ s.alarmRunning = false ∧ s.phase = .run := by
  simp [State.alarmMayStart, and_assoc]

theorem State.redrawMayStart_iff :
    s.redrawMayStart = true ↔ s.redrawPending = true ∧ s.redrawRunning = false ∧ s.phase = .run := by
  simp [State.redrawMayStart, and_assoc]

theorem State.itemMayGoOn_iff : s.itemMayGoOn = true ↔ s.phase = .run ∨ s.phase = .cancelled := by
  simp [State.itemMayGoOn]

theorem State.teardownEnabled_iff :
    s.teardownEnabled = true ↔ s.phase = .cancelled ∧ s.alarmRunning = false ∧ s.redrawRunning = false := by
  simp [State.teardownEnabled, and_assoc]

end Sys2Proof.Machine
end

