-- ==== Sys2Proof/Laws/Ports.lean ====
section
/-! SUPPORT. The register port: what the accesses, the pin operations and a list of primitives answer, and all that they
change. -/

namespace Sys2Proof.Machine

/-! ## Going on -/

@[simp] theorem andThen_next (s : State) (f : State → Host.Outcome State Fault Refusal) : andThen (.next s) f = f s := rfl

/-- Two parts that end in a next state went through one in between. -/
theorem andThen_eq_next {o : Host.Outcome State Fault Refusal} {f : State → Host.Outcome State Fault Refusal} {t : State} :
    andThen o f = .next t ↔ ∃ u, o = .next u ∧ f u = .next t := by
  cases o <;> simp [andThen]

/-! ## The words behind the addresses -/

theorem memEffect_fselAddr {c : Config} (h : c.Legal) {i : Nat} (hi : i < c.nFsel) (v : Word) (m : Memory) :
    memEffect c (fselAddr c i) v m = m.writeWord (fselAddr c i).toNat v := by
  unfold memEffect; rw [target_fselAddr h hi]

theorem memEffect_setAddr {c : Config} (h : c.Legal) {j : Nat} (hj : j < c.nSet) (v : Word) (m : Memory) :
    memEffect c (setAddr c j) v m = m := by
  unfold memEffect; rw [target_setAddr h hj]

theorem memEffect_clrAddr {c : Config} (h : c.Legal) {j : Nat} (hj : j < c.nSet) (v : Word) (m : Memory) :
    memEffect c (clrAddr c j) v m = m := by
  unfold memEffect; rw [target_clrAddr h hj]

/-- A register write leaves every byte outside its word alone. -/
theorem readByte_memEffect_other (c : Config) (a v : Word) (m : Memory) {b : Nat} (hb : b < a.toNat ∨ a.toNat + 4 ≤ b) :
    (memEffect c a v m).readByte b = m.readByte b := by
  unfold memEffect
  split
  · exact Memory.readByte_writeWord_other m v hb
  · rfl
  · rfl
  · rfl

theorem peek_fselAddr {s : State} (h : s.cfg.Legal) {i : Nat} (hi : i < s.cfg.nFsel) :
    s.peek (fselAddr s.cfg i) = s.fsel i := by
  unfold State.peek State.fsel; rw [target_fselAddr h hi]

theorem drawsOfRead_fselAddr {c : Config} (h : c.Legal) {i : Nat} (hi : i < c.nFsel) : drawsOfRead c (fselAddr c i) = 0 := by
  unfold drawsOfRead; rw [target_fselAddr h hi]

/-- A function-select word reads as it was written (20_memory.md R71, R72). -/
theorem fsel_memWrite_same {s : State} (h : s.cfg.Legal) (hm : s.mem.wf) {i : Nat} (hi : i < s.cfg.nFsel) (v : Word) :
    (s.memWrite (fselAddr s.cfg i) v).fsel i = v := by
  unfold State.fsel
  rw [State.memWrite_mem, State.memWrite_cfg, memEffect_fselAddr h hi, Memory.readWord_writeWord_same hm]

/-- The other function-select words stay. -/
theorem fsel_memWrite_other {s : State} (h : s.cfg.Legal) {i k : Nat} (hi : i < s.cfg.nFsel) (hk : k < s.cfg.nFsel)
    (hne : k ≠ i) (v : Word) : (s.memWrite (fselAddr s.cfg i) v).fsel k = s.fsel k := by
  unfold State.fsel
  rw [State.memWrite_mem, State.memWrite_cfg, memEffect_fselAddr h hi, Memory.readWord_writeWord_other]
  rw [fselAddr_toNat h hi, fselAddr_toNat h hk]
  omega

/-! ## The operations -/

theorem writeReg_mapped {s : State} {a : Word} (h : a ∈ s.mapped) (v : Word) : writeReg a v s = .next (s.memWrite a v) := by
  rw [writeReg, if_pos h]

theorem readReg_mapped {s : State} {a : Word} (h : a ∈ s.mapped) : readReg a s = .next (s.memRead a) := by
  rw [readReg, if_pos h]

theorem modifyReg_mapped {s : State} {a : Word} (h : a ∈ s.mapped) (clr set : Word) :
    modifyReg a clr set s = .next ((s.memRead a).memWrite a (rmwWord (s.peek a) clr set)) := by
  rw [modifyReg, if_pos h]

theorem setPins_mapped {s : State} {w : Byte} (hw : w.toNat < s.cfg.nSet) (h : setAddr s.cfg w.toNat ∈ s.mapped)
    (mask : Word) : setPins w mask s = .next (s.memWrite (setAddr s.cfg w.toNat) mask) := by
  rw [setPins, if_pos hw, writeReg_mapped h]

theorem clearPins_mapped {s : State} {w : Byte} (hw : w.toNat < s.cfg.nSet) (h : clrAddr s.cfg w.toNat ∈ s.mapped)
    (mask : Word) : clearPins w mask s = .next (s.memWrite (clrAddr s.cfg w.toNat) mask) := by
  rw [clearPins, if_pos hw, writeReg_mapped h]

/-- A write of a SET word, all of it (20_memory.md R73). -/
theorem memWrite_setAddr {s : State} (h : s.cfg.Legal) {j : Nat} (hj : j < s.cfg.nSet) (mask : Word) :
    s.memWrite (setAddr s.cfg j) mask =
      { s with
        latch := driveMasked s.cfg.nPins j mask true s.latch
        trace := s.trace ++ [.regWrite s.agent (setAddr s.cfg j) mask] } := by
  unfold State.memWrite State.emit
  rw [memEffect_setAddr h hj, latchEffect_setAddr h hj]

/-- A write of a CLR word, all of it (20_memory.md R74). -/
theorem memWrite_clrAddr {s : State} (h : s.cfg.Legal) {j : Nat} (hj : j < s.cfg.nSet) (mask : Word) :
    s.memWrite (clrAddr s.cfg j) mask =
      { s with
        latch := driveMasked s.cfg.nPins j mask false s.latch
        trace := s.trace ++ [.regWrite s.agent (clrAddr s.cfg j) mask] } := by
  unfold State.memWrite State.emit
  rw [memEffect_clrAddr h hj, latchEffect_clrAddr h hj]

/-- A write of an FSEL word, all of it (20_memory.md R72). -/
theorem memWrite_fselAddr {s : State} (h : s.cfg.Legal) {i : Nat} (hi : i < s.cfg.nFsel) (v : Word) :
    s.memWrite (fselAddr s.cfg i) v =
      { s with
        mem := s.mem.writeWord (fselAddr s.cfg i).toNat v
        trace := s.trace ++ [.regWrite s.agent (fselAddr s.cfg i) v] } := by
  unfold State.memWrite State.emit
  rw [memEffect_fselAddr h hi, latchEffect_fselAddr h hi]

/-! ## Primitives -/

/-- The word a primitive writes exists and is mapped. -/
def Prim.Ready (c : Config) (mapped : List Word) : Prim → Prop
  | .setp w _ => w.toNat < c.nSet ∧ setAddr c w.toNat ∈ mapped
  | .clrp w _ => w.toNat < c.nSet ∧ clrAddr c w.toNat ∈ mapped
  | .wait _ => True

theorem runPrim_ready {s : State} (h : s.cfg.Legal) {p : Prim} (hp : p.Ready s.cfg s.mapped) :
    runPrim p s = .next (s.afterPrims [p]) := by
  cases p with
  | setp w mask => rw [runPrim, setPins_mapped hp.1 hp.2, memWrite_setAddr h hp.1]; rfl
  | clrp w mask => rw [runPrim, clearPins_mapped hp.1 hp.2, memWrite_clrAddr h hp.1]; rfl
  | wait ns => rfl

theorem latchAfter_append (c : Config) (p q : List Prim) (l : List Bool) :
    latchAfter c (p ++ q) l = latchAfter c q (latchAfter c p l) := by simp [latchAfter]

theorem State.afterPrims_append (p q : List Prim) (s : State) : s.afterPrims (p ++ q) = (s.afterPrims p).afterPrims q := by
  simp [State.afterPrims, latchAfter_append]

@[simp] theorem State.afterPrims_nil (s : State) : s.afterPrims [] = s := by simp [State.afterPrims, latchAfter]

/-- Primitives that are ready all run, and change the latches and the trace alone. -/
theorem runPrims_ready {ps : List Prim} {s : State} (h : s.cfg.Legal) (hp : ∀ p ∈ ps, p.Ready s.cfg s.mapped) :
    runPrims ps s = .next (s.afterPrims ps) := by
  induction ps generalizing s with
  | nil => simp [runPrims]
  | cons p ps ih =>
    rw [runPrims, runPrim_ready h (hp p (by simp)), andThen_next,
      ih (s := s.afterPrims [p]) h fun q hq => hp q (by simp [hq]), ← State.afterPrims_append]
    rfl

theorem setp1_ready {c : Config} (h : c.Legal) {p : Nat} (hp : p ∈ c.pins) {mapped : List Word}
    (hm : ∀ a ∈ attachWords c, a ∈ mapped) : (setp1 p).Ready c mapped := by
  have hlt := h.pins_lt p hp
  simp only [setp1, Prim.Ready, scIndex_toNat h hlt]
  exact ⟨scWord_lt hlt, hm _ (setAddr_mem_attachWords hp)⟩

theorem clrp1_ready {c : Config} (h : c.Legal) {p : Nat} (hp : p ∈ c.pins) {mapped : List Word}
    (hm : ∀ a ∈ attachWords c, a ∈ mapped) : (clrp1 p).Ready c mapped := by
  have hlt := h.pins_lt p hp
  simp only [clrp1, Prim.Ready, scIndex_toNat h hlt]
  exact ⟨scWord_lt hlt, hm _ (clrAddr_mem_attachWords hp)⟩

theorem drive_ready {c : Config} (h : c.Legal) {p : Nat} (hp : p ∈ c.pins) {mapped : List Word}
    (hm : ∀ a ∈ attachWords c, a ∈ mapped) (b : Bool) : (drive p b).Ready c mapped := by
  cases b
  · exact clrp1_ready h hp hm
  · exact setp1_ready h hp hm

theorem setp1_event {c : Config} (h : c.Legal) {p : Nat} (hp : p < c.nPins) (a : Agent) :
    (setp1 p).event c a = .regWrite a (setAddr c (scWord p)) (pinMask p) := by
  simp [setp1, Prim.event, scIndex_toNat h hp]

theorem clrp1_event {c : Config} (h : c.Legal) {p : Nat} (hp : p < c.nPins) (a : Agent) :
    (clrp1 p).event c a = .regWrite a (clrAddr c (scWord p)) (pinMask p) := by
  simp [clrp1, Prim.event, scIndex_toNat h hp]

theorem setp1_latch {c : Config} (h : c.Legal) {p : Nat} (hp : p < c.nPins) (l : List Bool) :
    (setp1 p).latch c l = driveMasked c.nPins (scWord p) (pinMask p) true l := by
  simp [setp1, Prim.latch, scIndex_toNat h hp]

theorem clrp1_latch {c : Config} (h : c.Legal) {p : Nat} (hp : p < c.nPins) (l : List Bool) :
    (clrp1 p).latch c l = driveMasked c.nPins (scWord p) (pinMask p) false l := by
  simp [clrp1, Prim.latch, scIndex_toNat h hp]

/-- Driving a line sets that line's level and no other's. -/
theorem levelOf_drive {c : Config} (h : c.Legal) {p q : Nat} (hp : p < c.nPins) (hq : q < c.nPins) (b : Bool)
    (l : List Bool) : levelOf ((drive p b).latch c l) q = if q = p then b else levelOf l q := by
  cases b
  · simp only [drive, Bool.false_eq_true, if_false, clrp1_latch h hp, levelOf_drive_pin hq]
  · simp only [drive, if_true, setp1_latch h hp, levelOf_drive_pin hq]

end Sys2Proof.Machine
end

