-- ==== Sys2Proof/Laws/Display.lean ====
section
/-! SUPPORT. The display sequences: they only use words an attach maps, how long they are, and what the display latches
while they run (44_lcd.md R221 to R234). -/

namespace Sys2Proof.Machine

/-! ## Every primitive is ready -/

section Ready

variable {c : Config} (h : c.Legal) {mapped : List Word} (hm : ∀ a ∈ attachWords c, a ∈ mapped)

include h hm

theorem lnibPrims_ready (m : Bool) (n : Nibble) : ∀ p ∈ lnibPrims c m n, p.Ready c mapped := by
  have e : c.pinE ∈ c.pins := by simp [Config.pins]
  have rs : c.pinRs ∈ c.pins := by simp [Config.pins]
  have rw' : c.pinRw ∈ c.pins := by simp [Config.pins]
  have d4 : c.pinD4 ∈ c.pins := by simp [Config.pins]
  have d5 : c.pinD5 ∈ c.pins := by simp [Config.pins]
  have d6 : c.pinD6 ∈ c.pins := by simp [Config.pins]
  have d7 : c.pinD7 ∈ c.pins := by simp [Config.pins]
  simp only [lnibPrims, List.mem_cons, List.not_mem_nil, or_false, forall_eq_or_imp, forall_eq]
  exact ⟨clrp1_ready h e hm, drive_ready h rs hm _, clrp1_ready h rw' hm, trivial, setp1_ready h e hm,
    drive_ready h d4 hm _, drive_ready h d5 hm _, drive_ready h d6 hm _, drive_ready h d7 hm _, trivial,
    clrp1_ready h e hm, trivial⟩

theorem bytePrims_ready (m : Bool) (b : Byte) : ∀ p ∈ bytePrims c m b, p.Ready c mapped := by
  intro p hp
  rcases List.mem_append.mp hp with hp | hp <;> exact lnibPrims_ready h hm _ _ p hp

theorem lstrPrims_ready (text : List Byte) : ∀ p ∈ lstrPrims c text, p.Ready c mapped := by
  intro p hp
  obtain ⟨b, -, hp⟩ := List.mem_flatMap.mp hp
  exact bytePrims_ready h hm _ _ p hp

theorem expandOp_ready (o : DisplayOp) : ∀ p ∈ expandOp c o, p.Ready c mapped := by
  cases o with
  | wait ns => simp [expandOp, Prim.Ready]
  | lnib m n => exact lnibPrims_ready h hm m n
  | lins b => exact bytePrims_ready h hm false b
  | lchr b => exact bytePrims_ready h hm true b
  | lstr text => exact lstrPrims_ready h hm text

/-- Whatever display operations a list is made of, its primitives only touch mapped words. -/
theorem expand_ready (ops : List DisplayOp) : ∀ p ∈ expand c ops, p.Ready c mapped := by
  intro p hp
  obtain ⟨o, -, hp⟩ := List.mem_flatMap.mp hp
  exact expandOp_ready h hm o p hp

/-- A list of display operations runs, and changes the latches and the trace alone. -/
theorem runPrims_expand {s : State} (hc : s.cfg = c) (hs : s.mapped = mapped) (ops : List DisplayOp) :
    runPrims (expand c ops) s = .next (s.afterPrims (expand c ops)) := by
  subst hc hs
  exact runPrims_ready h (expand_ready h hm ops)

end Ready

/-! ## Lengths (44_lcd.md R221 to R224, R229) -/

theorem lnibPrims_length (c : Config) (m : Bool) (n : Nibble) : (lnibPrims c m n).length = 12 := rfl

theorem bytePrims_length (c : Config) (m : Bool) (b : Byte) : (bytePrims c m b).length = 24 := rfl

theorem lstrPrims_length (c : Config) (text : List Byte) : (lstrPrims c text).length = 24 * (cutText text).length := by
  unfold lstrPrims
  induction cutText text with
  | nil => rfl
  | cons b rest ih => rw [List.flatMap_cons, List.length_append, ih, bytePrims_length, List.length_cons]; omega

theorem expand_cons (c : Config) (o : DisplayOp) (ops : List DisplayOp) :
    expand c (o :: ops) = expandOp c o ++ expand c ops := by simp [expand]

theorem expand_append (c : Config) (p q : List DisplayOp) : expand c (p ++ q) = expand c p ++ expand c q := by
  simp [expand]

theorem expand_nil (c : Config) : expand c [] = [] := rfl

theorem expand_singleton (c : Config) (o : DisplayOp) : expand c [o] = expandOp c o := by simp [expand]

/-- A text without the terminator is sent whole (30_encoding.md R112). -/
theorem cutText_of_not_mem {text : List Byte} (h : (0 : Byte) ∉ text) : cutText text = text := by
  unfold cutText
  rw [List.takeWhile_eq_self_iff]
  intro b hb
  exact decide_eq_true fun he => h (he ▸ hb)

/-! ## What the display latches (44_lcd.md R232) -/

/-- No launch's draw is held once E has fallen. -/
@[simp] theorem stillHeld_none (c : Config) (l : List Bool) : stillHeld c none l = none := by simp [stillHeld]

/-- From E low the launch has no nibble of its own (70_reset_and_hazards.md R373). -/
theorem latchedNibbles_of_low {c : Config} {l : List Bool} (hE : levelOf l c.pinE = false) (draw : Nat) (e : List Event) :
    latchedNibbles c draw e l = nibblesFrom c none e l := by
  rw [latchedNibbles, stillHeld, hE, if_neg (by simp)]

theorem nibblesFrom_append (c : Config) (e f : List Event) (l : List Bool) :
    nibblesFrom c none (e ++ f) l = nibblesFrom c none e l ++ nibblesFrom c none f (replayLatch c e l) := by
  induction e generalizing l with
  | nil => rfl
  | cons x e ih => cases x <;> simp [nibblesFrom, replayLatch, stillHeld_none, ih]

theorem replayLatch_append (c : Config) (e f : List Event) (l : List Bool) :
    replayLatch c (e ++ f) l = replayLatch c f (replayLatch c e l) := by
  induction e generalizing l with
  | nil => rfl
  | cons x e ih => cases x <;> simp [replayLatch, ih]

/-- A primitive's event and its effect on the latches agree. -/
theorem replayLatch_prim {c : Config} (h : c.Legal) {mapped : List Word} (a : Agent) {p : Prim} (hp : p.Ready c mapped)
    (l : List Bool) : replayLatch c [p.event c a] l = p.latch c l := by
  cases p with
  | setp w mask => exact latchEffect_setAddr h hp.1 mask l
  | clrp w mask => exact latchEffect_clrAddr h hp.1 mask l
  | wait ns => rfl

theorem replayLatch_prims {c : Config} (h : c.Legal) {mapped : List Word} (a : Agent) {ps : List Prim}
    (hp : ∀ p ∈ ps, p.Ready c mapped) (l : List Bool) : replayLatch c (ps.map (Prim.event c a)) l = latchAfter c ps l := by
  induction ps generalizing l with
  | nil => rfl
  | cons p ps ih =>
    rw [List.map_cons, ← List.singleton_append, replayLatch_append, replayLatch_prim h a (hp p (by simp)),
      ih fun q hq => hp q (by simp [hq])]
    rfl

/-- What one primitive makes the display take. -/
def nibblesOf (c : Config) (p : Prim) (l : List Bool) : List Latched :=
  match p with
  | .setp _ _ => latchedBy c none l (p.latch c l)
  | .clrp _ _ => latchedBy c none l (p.latch c l)
  | .wait _ => []

theorem nibblesFrom_prim {c : Config} (h : c.Legal) {mapped : List Word} (a : Agent) {p : Prim}
    (hp : p.Ready c mapped) (ps : List Event) (l : List Bool) :
    nibblesFrom c none (p.event c a :: ps) l = nibblesOf c p l ++ nibblesFrom c none ps (p.latch c l) := by
  cases p with
  | setp w mask => simp only [Prim.event, nibblesFrom, nibblesOf, stillHeld_none, Prim.latch, latchEffect_setAddr h hp.1]
  | clrp w mask => simp only [Prim.event, nibblesFrom, nibblesOf, stillHeld_none, Prim.latch, latchEffect_clrAddr h hp.1]
  | wait ns => rfl

/-- The display pins differ from each other (00_scope.md R6). -/
structure DisplayPinsApart (c : Config) : Prop where
  rs_e : c.pinE ≠ c.pinRs
  rw_e : c.pinE ≠ c.pinRw
  d4_e : c.pinE ≠ c.pinD4
  d5_e : c.pinE ≠ c.pinD5
  d6_e : c.pinE ≠ c.pinD6
  d7_e : c.pinE ≠ c.pinD7
  rs_rw : c.pinRs ≠ c.pinRw
  rs_d4 : c.pinRs ≠ c.pinD4
  rs_d5 : c.pinRs ≠ c.pinD5
  rs_d6 : c.pinRs ≠ c.pinD6
  rs_d7 : c.pinRs ≠ c.pinD7
  rw_d4 : c.pinRw ≠ c.pinD4
  rw_d5 : c.pinRw ≠ c.pinD5
  rw_d6 : c.pinRw ≠ c.pinD6
  rw_d7 : c.pinRw ≠ c.pinD7
  d4_d5 : c.pinD4 ≠ c.pinD5
  d4_d6 : c.pinD4 ≠ c.pinD6
  d4_d7 : c.pinD4 ≠ c.pinD7
  d5_d6 : c.pinD5 ≠ c.pinD6
  d5_d7 : c.pinD5 ≠ c.pinD7
  d6_d7 : c.pinD6 ≠ c.pinD7

theorem displayPinsApart {c : Config} (h : c.Legal) : DisplayPinsApart c := by
  have hn := h.pins_nodup
  simp only [Config.pins, List.nodup_cons, List.mem_cons, List.not_mem_nil, not_or, or_false] at hn
  constructor <;> intro he <;> simp_all

theorem ofBool_bits (n : Nibble) :
    (BitVec.ofBool (n.getLsbD 3) ++ BitVec.ofBool (n.getLsbD 2) ++ BitVec.ofBool (n.getLsbD 1) ++
      BitVec.ofBool (n.getLsbD 0) : BitVec 4) = n := by
  revert n; decide

/-- One nibble transfer that begins with E low makes the display take exactly its nibble, and ends with E low (R232). -/
theorem nibblesFrom_lnib {c : Config} (h : c.Legal) (a : Agent) (m : Bool) (n : Nibble) {l : List Bool}
    (hE : levelOf l c.pinE = false) :
    nibblesFrom c none ((lnibPrims c m n).map (Prim.event c a)) l = [{ rs := m, rw := false, n := n }] ∧
      levelOf (latchAfter c (lnibPrims c m n) l) c.pinE = false := by
  have hr := lnibPrims_ready h (mapped := attachWords c) (fun a ha => ha) m n
  have lt : ∀ p, p ∈ c.pins → p < c.nPins := h.pins_lt
  have e := lt c.pinE (by simp [Config.pins])
  have rs := lt c.pinRs (by simp [Config.pins])
  have rw' := lt c.pinRw (by simp [Config.pins])
  have d4 := lt c.pinD4 (by simp [Config.pins])
  have d5 := lt c.pinD5 (by simp [Config.pins])
  have d6 := lt c.pinD6 (by simp [Config.pins])
  have d7 := lt c.pinD7 (by simp [Config.pins])
  have ap := displayPinsApart h
  have c1 : ∀ p q : Nat, p < c.nPins → q < c.nPins → ∀ l : List Bool,
      levelOf ((clrp1 p).latch c l) q = if q = p then false else levelOf l q := fun p q hp hq l => levelOf_drive h hp hq false l
  have s1 : ∀ p q : Nat, p < c.nPins → q < c.nPins → ∀ l : List Bool,
      levelOf ((setp1 p).latch c l) q = if q = p then true else levelOf l q := fun p q hp hq l => levelOf_drive h hp hq true l
  have nd : ∀ p : Nat, ∀ b : Bool, ∀ l : List Bool, nibblesOf c (drive p b) l = latchedBy c none l ((drive p b).latch c l) := by
    intro p b l; cases b <;> rfl
  have nc : ∀ p : Nat, ∀ l : List Bool, nibblesOf c (clrp1 p) l = latchedBy c none l ((clrp1 p).latch c l) := fun _ _ => rfl
  have ns : ∀ p : Nat, ∀ l : List Bool, nibblesOf c (setp1 p) l = latchedBy c none l ((setp1 p).latch c l) := fun _ _ => rfl
  have lw : ∀ ns : Word, ∀ l : List Bool, (Prim.wait ns).latch c l = l := fun _ _ => rfl
  have nw : ∀ ns : Word, ∀ l : List Bool, nibblesOf c (.wait ns) l = [] := fun _ _ => rfl
  have D : ∀ p q : Nat, p < c.nPins → q < c.nPins → ∀ (b : Bool) (l : List Bool),
      levelOf ((drive p b).latch c l) q = if q = p then b else levelOf l q := fun p q hp hq b l => levelOf_drive h hp hq b l
  constructor
  · unfold lnibPrims at hr ⊢
    simp only [List.mem_cons, List.not_mem_nil, or_false, forall_eq_or_imp, forall_eq] at hr
    obtain ⟨r0, r1, r2, r3, r4, r5, r6, r7, r8, r9, r10, r11⟩ := hr
    simp only [List.map_cons, List.map_nil]
    rw [nibblesFrom_prim h a r0, nibblesFrom_prim h a r1, nibblesFrom_prim h a r2, nibblesFrom_prim h a r3,
      nibblesFrom_prim h a r4, nibblesFrom_prim h a r5, nibblesFrom_prim h a r6, nibblesFrom_prim h a r7,
      nibblesFrom_prim h a r8, nibblesFrom_prim h a r9, nibblesFrom_prim h a r10, nibblesFrom_prim h a r11]
    simp only [nc, ns, nd, nw, lw, nibblesFrom, latchedBy, atFallingEdge, dataLines, c1, s1, D, e, rs, rw', d4, d5, d6, d7, hE,
      ap.rs_e, ap.rw_e, ap.d4_e, ap.d5_e, ap.d6_e, ap.d7_e, ap.rs_rw, ap.rs_d4, ap.rs_d5, ap.rs_d6, ap.rs_d7, ap.rw_d4,
      ap.rw_d5, ap.rw_d6, ap.rw_d7, ap.d4_d5, ap.d4_d6, ap.d4_d7, ap.d5_d6, ap.d5_d7, ap.d6_d7, ap.rs_e.symm,
      ap.rw_e.symm, ap.d4_e.symm, ap.d5_e.symm, ap.d6_e.symm, ap.d7_e.symm, ap.rs_rw.symm, ap.rs_d4.symm, ap.rs_d5.symm,
      ap.rs_d6.symm, ap.rs_d7.symm, ap.rw_d4.symm, ap.rw_d5.symm, ap.rw_d6.symm, ap.rw_d7.symm, ap.d4_d5.symm,
      ap.d4_d6.symm, ap.d4_d7.symm, ap.d5_d6.symm, ap.d5_d7.symm, ap.d6_d7.symm, if_true, if_false, Bool.not_true,
      Bool.not_false, Bool.and_true, Bool.and_false, Bool.false_eq_true, List.nil_append, List.append_nil,
      ofBool_bits]
  · simp only [lnibPrims, latchAfter, List.foldl_cons, List.foldl_nil, lw, c1 _ _ e e, if_true]

/-- A byte transfer that begins with E low makes the display take its two nibbles, high first (R222, R223). -/
theorem nibblesFrom_byte {c : Config} (h : c.Legal) (a : Agent) (m : Bool) (b : Byte) {l : List Bool}
    (hE : levelOf l c.pinE = false) :
    nibblesFrom c none ((bytePrims c m b).map (Prim.event c a)) l =
        [{ rs := m, rw := false, n := b.extractLsb' 4 4 }, { rs := m, rw := false, n := b.extractLsb' 0 4 }] ∧
      levelOf (latchAfter c (bytePrims c m b) l) c.pinE = false := by
  obtain ⟨h1, h2⟩ := nibblesFrom_lnib h a m (b.extractLsb' 4 4) hE
  obtain ⟨h3, h4⟩ := nibblesFrom_lnib h a m (b.extractLsb' 0 4) h2
  unfold bytePrims
  rw [List.map_append, nibblesFrom_append, latchAfter_append,
    replayLatch_prims h a (lnibPrims_ready h (mapped := attachWords c) (fun a ha => ha) _ _), h1, h3]
  exact ⟨rfl, h4⟩

theorem byte_of_nibbles (b : Byte) : (b.extractLsb' 4 4 ++ b.extractLsb' 0 4 : BitVec 8) = b := by
  revert b; decide

/-- The bytes the display receives from a list of display operations without bare nibbles (R233). -/
def bytesOf : DisplayOp → List (Bool × Byte)
  | .wait _ => []
  | .lnib _ _ => []
  | .lins b => [(false, b)]
  | .lchr b => [(true, b)]
  | .lstr text => (cutText text).map fun b => (true, b)

/-- A display operation that sends whole bytes. -/
def wholeBytes : DisplayOp → Bool
  | .wait _ => true
  | .lnib _ _ => false
  | .lins _ => true
  | .lchr _ => true
  | .lstr _ => true

/-- The nibbles of a byte in one mode. -/
def nibblesOfByte (b : Bool × Byte) : List Latched :=
  [{ rs := b.1, rw := false, n := b.2.extractLsb' 4 4 }, { rs := b.1, rw := false, n := b.2.extractLsb' 0 4 }]

theorem nibblesOfByte_length (bs : List (Bool × Byte)) : (bs.flatMap nibblesOfByte).length = 2 * bs.length := by
  induction bs with
  | nil => rfl
  | cons b bs ih => rw [List.flatMap_cons, List.length_append, ih]; simp [nibblesOfByte]; omega

theorem pairNibbles_bytes (bs : List (Bool × Byte)) : pairNibbles (bs.flatMap nibblesOfByte) = bs := by
  induction bs with
  | nil => rfl
  | cons b bs ih =>
    rw [List.flatMap_cons]
    simp only [nibblesOfByte, List.cons_append, List.nil_append, pairNibbles, byte_of_nibbles]
    exact congrArg _ ih

theorem nibblesFrom_chars {c : Config} (h : c.Legal) (a : Agent) (m : Bool) (bs : List Byte) {l : List Bool}
    (hE : levelOf l c.pinE = false) :
    nibblesFrom c none ((bs.flatMap (bytePrims c m)).map (Prim.event c a)) l =
        (bs.map fun b => (m, b)).flatMap nibblesOfByte ∧
      levelOf (latchAfter c (bs.flatMap (bytePrims c m)) l) c.pinE = false := by
  induction bs generalizing l with
  | nil => exact ⟨rfl, hE⟩
  | cons b bs ih =>
    obtain ⟨h1, h2⟩ := nibblesFrom_byte h a m b hE
    obtain ⟨h3, h4⟩ := ih h2
    rw [List.flatMap_cons, List.map_append, nibblesFrom_append, latchAfter_append,
      replayLatch_prims h a (bytePrims_ready h (mapped := attachWords c) (fun a ha => ha) _ _), h1, h3]
    exact ⟨rfl, h4⟩

/-- A list of display operations that begins with E low makes the display take the nibbles of its bytes, in order, and
ends with E low. -/
theorem nibblesFrom_expand {c : Config} (h : c.Legal) (a : Agent) {ops : List DisplayOp}
    (hw : ∀ o ∈ ops, wholeBytes o = true) {l : List Bool} (hE : levelOf l c.pinE = false) :
    nibblesFrom c none ((expand c ops).map (Prim.event c a)) l = (ops.flatMap bytesOf).flatMap nibblesOfByte ∧
      levelOf (latchAfter c (expand c ops) l) c.pinE = false := by
  induction ops generalizing l with
  | nil => exact ⟨rfl, hE⟩
  | cons o ops ih =>
    have one : nibblesFrom c none ((expandOp c o).map (Prim.event c a)) l = (bytesOf o).flatMap nibblesOfByte ∧
        levelOf (latchAfter c (expandOp c o) l) c.pinE = false := by
      cases o with
      | wait ns => exact ⟨rfl, hE⟩
      | lnib m n => exact absurd (hw (.lnib m n) (by simp)) (by simp [wholeBytes])
      | lins b => obtain ⟨h1, h2⟩ := nibblesFrom_byte h a false b hE; exact ⟨h1, h2⟩
      | lchr b => obtain ⟨h1, h2⟩ := nibblesFrom_byte h a true b hE; exact ⟨h1, h2⟩
      | lstr text => exact nibblesFrom_chars h a true (cutText text) hE
    obtain ⟨h3, h4⟩ := ih (fun o ho => hw o (by simp [ho])) one.2
    rw [expand_cons, List.map_append, nibblesFrom_append, latchAfter_append,
      replayLatch_prims h a (expandOp_ready h (mapped := attachWords c) (fun a ha => ha) o), one.1, h3, List.flatMap_cons,
      List.flatMap_append]
    exact ⟨rfl, h4⟩

/-- The byte stream of a list of display operations that begins with E low (R233, R234). -/
theorem displayBytes_expand {c : Config} (h : c.Legal) (draw : Nat) (a : Agent) {ops : List DisplayOp}
    (hw : ∀ o ∈ ops, wholeBytes o = true) {l : List Bool} (hE : levelOf l c.pinE = false) :
    displayBytes c draw ((expand c ops).map (Prim.event c a)) l = ops.flatMap bytesOf := by
  rw [displayBytes, latchedNibbles_of_low hE, (nibblesFrom_expand h a hw hE).1, pairNibbles_bytes]

/-! ## A launch with E high (70_reset_and_hazards.md R373) -/

/-- Lowering a line twice is lowering it once. -/
theorem clrp1_latch_twice {c : Config} (h : c.Legal) {p : Nat} (hp : p < c.nPins) (l : List Bool) :
    (clrp1 p).latch c ((clrp1 p).latch c l) = (clrp1 p).latch c l := by
  simp only [clrp1_latch h hp]
  refine latch_ext (by simp) fun q hq => ?_
  have hq' : q < c.nPins := by simpa using hq
  simp only [levelOf_drive_pin hq']
  split <;> rfl

/-- Where E begins high, the first lowering of E is an edge of its own: the display takes the launch's nibble, then what
the same events make it take from E low. -/
theorem latchedNibbles_first_fall {c : Config} (h : c.Legal) (a : Agent) (draw : Nat) (ps : List Event) {l : List Bool}
    (hE : levelOf l c.pinE = true) :
    latchedNibbles c draw ((clrp1 c.pinE).event c a :: ps) l =
      launchNibble draw :: nibblesFrom c none ((clrp1 c.pinE).event c a :: ps) ((clrp1 c.pinE).latch c l) := by
  have hm : c.pinE ∈ c.pins := by simp [Config.pins]
  have hp := h.pins_lt _ hm
  have hlow : levelOf ((clrp1 c.pinE).latch c l) c.pinE = false := by
    rw [clrp1_latch h hp, levelOf_drive_pin hp, if_pos rfl]
  rw [nibblesFrom_prim h a (clrp1_ready h hm (mapped := attachWords c) fun _ h => h), clrp1_latch_twice h hp]
  rw [show nibblesOf c (clrp1 c.pinE) ((clrp1 c.pinE).latch c l) = [] by
    simp [nibblesOf, clrp1, latchedBy, show levelOf (Prim.latch c (.clrp _ _) l) c.pinE = false from hlow]]
  have he : latchEffect c (clrAddr c (scWord c.pinE)) (pinMask c.pinE) l = (clrp1 c.pinE).latch c l := by
    rw [latchEffect_clrAddr h (scWord_lt hp), clrp1_latch h hp]
  rw [clrp1_event h hp]
  simp only [latchedNibbles, nibblesFrom, he, stillHeld, hE, hlow, latchedBy, atFallingEdge, if_true, Bool.not_false,
    Bool.and_self, Bool.false_eq_true, if_false, List.singleton_append, List.nil_append]

/-- Events that begin by lowering E, from either level of E. -/
theorem latchedNibbles_from_fall {c : Config} (h : c.Legal) (a : Agent) (draw : Nat) (ps : List Event) (l : List Bool) :
    latchedNibbles c draw ((clrp1 c.pinE).event c a :: ps) l =
      (if levelOf l c.pinE then [launchNibble draw] else []) ++
        nibblesFrom c none ((clrp1 c.pinE).event c a :: ps) ((clrp1 c.pinE).latch c l) := by
  cases hE : levelOf l c.pinE with
  | true => exact latchedNibbles_first_fall h a draw ps hE
  | false =>
    have hp := h.pins_lt c.pinE (by simp [Config.pins])
    have hl : levelOf ((clrp1 c.pinE).latch c l) c.pinE = false := by
      rw [clrp1_latch h hp, levelOf_drive_pin hp, if_pos rfl]
    have hr := clrp1_ready h (by simp [Config.pins] : c.pinE ∈ c.pins) (mapped := attachWords c) fun _ h => h
    rw [latchedNibbles_of_low hE, nibblesFrom_prim h a hr, nibblesFrom_prim h a hr, clrp1_latch_twice h hp]
    simp only [nibblesOf, clrp1, latchedBy] at hl ⊢
    simp [hE, hl]

/-- The bytes of the initialisation sequence (44_lcd.md R226). -/
def linitBytes (c : Config) : List (Bool × Byte) :=
  [(false, c.cmdFunctionSet), (false, c.cmdDisplayOn), (false, c.cmdEntryMode), (false, c.cmdClear), (false, c.cmdLine1)] ++
    c.placeholder.map fun b => (true, b)

/-- What the initialisation sequence makes the display take, from either level of E, and that it ends with E low. -/
theorem latchedNibbles_linit {c : Config} (h : c.Legal) (a : Agent) (draw : Nat) (l : List Bool) :
    latchedNibbles c draw ((expand c (linitList c)).map (Prim.event c a)) l =
        (if levelOf l c.pinE then [launchNibble draw] else []) ++ (linitBytes c).flatMap nibblesOfByte ∧
      levelOf (latchAfter c (expand c (linitList c)) l) c.pinE = false := by
  have hp := h.pins_lt c.pinE (by simp [Config.pins])
  have hlow : levelOf ((clrp1 c.pinE).latch c l) c.pinE = false := by
    rw [clrp1_latch h hp, levelOf_drive_pin hp, if_pos rfl]
  obtain ⟨ps, hps⟩ : ∃ ps, expand c (linitList c).tail = clrp1 c.pinE :: ps := ⟨_, rfl⟩
  have hx : expand c (linitList c) = .wait tPowerNs :: clrp1 c.pinE :: ps := by rw [← hps]; rfl
  have hw : ∀ o ∈ (linitList c).tail, wholeBytes o = true := by simp [wholeBytes, linitList]
  have hb : (linitList c).tail.flatMap bytesOf = linitBytes c := by
    simp [bytesOf, linitList, linitBytes, cutText_of_not_mem h.placeholder_text]
  obtain ⟨h1, h2⟩ := nibblesFrom_expand h a hw hlow
  rw [hps, List.map_cons, hb] at h1
  refine ⟨?_, ?_⟩
  · rw [hx, List.map_cons, List.map_cons, ← h1, ← latchedNibbles_from_fall h a draw]
    rfl
  · rw [hps] at h2
    rw [hx]
    simpa [latchAfter, Prim.latch.eq_3, clrp1_latch_twice h hp] using h2

/-! ## Counts and waits (44_lcd.md R229, 70_reset_and_hazards.md R376) -/

theorem waitNs_drive (p : Nat) (b : Bool) : (drive p b).waitNs = 0 := by cases b <;> rfl

theorem totalWaitNs_nil : totalWaitNs [] = 0 := rfl

theorem totalWaitNs_cons (p : Prim) (ps : List Prim) : totalWaitNs (p :: ps) = p.waitNs + totalWaitNs ps := by
  simp [totalWaitNs]

theorem totalWaitNs_append (p q : List Prim) : totalWaitNs (p ++ q) = totalWaitNs p + totalWaitNs q := by
  simp [totalWaitNs]

theorem totalWaitNs_wait (ns : Word) (ps : List Prim) : totalWaitNs (.wait ns :: ps) = ns.toNat + totalWaitNs ps :=
  totalWaitNs_cons _ _

theorem totalWaitNs_drive (p : Nat) (b : Bool) (ps : List Prim) : totalWaitNs (drive p b :: ps) = totalWaitNs ps := by
  rw [totalWaitNs_cons, waitNs_drive, Nat.zero_add]

/-- A nibble transfer waits three times (70_reset_and_hazards.md R376). -/
theorem totalWaitNs_lnib (c : Config) (m : Bool) (n : Nibble) :
    totalWaitNs (lnibPrims c m n) = 2 * c.tShortNs.toNat + 1000000 := by
  have e : tLongNs.toNat = 1000000 := by simp [tLongNs]
  unfold lnibPrims
  rw [show clrp1 c.pinE = drive c.pinE false from rfl, show clrp1 c.pinRw = drive c.pinRw false from rfl,
    show setp1 c.pinE = drive c.pinE true from rfl]
  iterate 3 rw [totalWaitNs_drive]
  rw [totalWaitNs_wait]
  iterate 5 rw [totalWaitNs_drive]
  rw [totalWaitNs_wait, totalWaitNs_drive, totalWaitNs_wait, totalWaitNs_nil, e]
  ring

theorem totalWaitNs_byte (c : Config) (m : Bool) (b : Byte) :
    totalWaitNs (bytePrims c m b) = 2 * (2 * c.tShortNs.toNat + 1000000) := by
  rw [bytePrims, totalWaitNs_append, totalWaitNs_lnib, totalWaitNs_lnib]
  ring

theorem totalWaitNs_chars (c : Config) (m : Bool) (bs : List Byte) :
    totalWaitNs (bs.flatMap (bytePrims c m)) = bs.length * (2 * (2 * c.tShortNs.toNat + 1000000)) := by
  induction bs with
  | nil => rw [List.flatMap_nil, totalWaitNs_nil, List.length_nil, Nat.zero_mul]
  | cons b bs ih =>
    rw [List.flatMap_cons, totalWaitNs_append, totalWaitNs_byte, ih, List.length_cons]
    ring

theorem countWrites_byte (c : Config) (m : Bool) (b : Byte) : (bytePrims c m b).countP Prim.isWrite = 18 := by
  have d (p : Nat) (b : Bool) : (drive p b).isWrite = true := by cases b <;> rfl
  have w (ns : Word) : (Prim.wait ns).isWrite = false := rfl
  have cl (p : Nat) : (clrp1 p).isWrite = true := rfl
  have sl (p : Nat) : (setp1 p).isWrite = true := rfl
  simp [bytePrims, lnibPrims, d, cl, sl, w]

theorem countWrites_chars (c : Config) (m : Bool) (bs : List Byte) :
    (bs.flatMap (bytePrims c m)).countP Prim.isWrite = 18 * bs.length := by
  induction bs with
  | nil => rfl
  | cons b bs ih => rw [List.flatMap_cons, List.countP_append, countWrites_byte, ih, List.length_cons]; omega

end Sys2Proof.Machine
end

