-- ==== Sys2Proof/Laws/Levels.lean ====
section
/-! SUPPORT. The levels the display sequences leave, and how lists of primitives run one after another. -/

namespace Sys2Proof.Machine

/-- A list of primitives runs as its parts run. -/
theorem runPrims_append (p q : List Prim) (s : State) : runPrims (p ++ q) s = andThen (runPrims p s) (runPrims q) := by
  induction p generalizing s with
  | nil => rfl
  | cons x p ih =>
    rw [List.cons_append, runPrims, runPrims]
    cases runPrim x s with
    | next u => exact ih u
    | fault r => rfl
    | refused r => rfl

/-- A primitive that drives a display pin. -/
def drivesDisplay (c : Config) : Prim → Prop := fun p => (∃ q ∈ c.displayPins, ∃ b, p = drive q b) ∨ ∃ ns, p = .wait ns

theorem lnibPrims_drivesDisplay (c : Config) (m : Bool) (n : Nibble) : ∀ p ∈ lnibPrims c m n, drivesDisplay c p := by
  simp only [lnibPrims, List.mem_cons, List.not_mem_nil, or_false, forall_eq_or_imp, forall_eq]
  have d (q : Nat) (b : Bool) (h : q ∈ c.displayPins) : drivesDisplay c (drive q b) := .inl ⟨q, h, b, rfl⟩
  have w (ns : Word) : drivesDisplay c (.wait ns) := .inr ⟨ns, rfl⟩
  exact ⟨d _ false (by simp [Config.displayPins]), d _ m (by simp [Config.displayPins]),
    d _ false (by simp [Config.displayPins]), w _, d _ true (by simp [Config.displayPins]),
    d _ _ (by simp [Config.displayPins]), d _ _ (by simp [Config.displayPins]), d _ _ (by simp [Config.displayPins]),
    d _ _ (by simp [Config.displayPins]), w _, d _ false (by simp [Config.displayPins]), w _⟩

/-- Every primitive of a display sequence drives a display pin or waits. -/
theorem expand_drivesDisplay (c : Config) (ops : List DisplayOp) : ∀ p ∈ expand c ops, drivesDisplay c p := by
  intro p hp
  obtain ⟨o, -, hp⟩ := List.mem_flatMap.mp hp
  have byte (m : Bool) (b : Byte) : ∀ p ∈ bytePrims c m b, drivesDisplay c p := by
    intro p hp
    rcases List.mem_append.mp hp with hp | hp <;> exact lnibPrims_drivesDisplay c _ _ p hp
  cases o with
  | wait ns =>
    simp only [expandOp, List.mem_singleton] at hp
    exact .inr ⟨ns, hp⟩
  | lnib m n => exact lnibPrims_drivesDisplay c m n p hp
  | lins b => exact byte false b p hp
  | lchr b => exact byte true b p hp
  | lstr text =>
    obtain ⟨b, -, hp⟩ := List.mem_flatMap.mp hp
    exact byte true b p hp

theorem displayPins_subset {c : Config} {p : Nat} (h : p ∈ c.displayPins) : p ∈ c.pins := by
  simp only [Config.displayPins, List.mem_cons, List.not_mem_nil, or_false] at h
  simp only [Config.pins, List.mem_cons, List.not_mem_nil, or_false]
  tauto

theorem levelOf_prim_other {c : Config} (h : c.Legal) {p : Prim} (hp : drivesDisplay c p) {q : Nat} (hq : q < c.nPins)
    (hne : q ∉ c.displayPins) (l : List Bool) : levelOf (p.latch c l) q = levelOf l q := by
  rcases hp with ⟨r, hr, b, rfl⟩ | ⟨ns, rfl⟩
  · rw [levelOf_drive h (h.pins_lt r (displayPins_subset hr)) hq, if_neg]
    rintro rfl
    exact hne hr
  · rfl

/-- The display sequences leave every other pin alone (44_lcd.md R231). -/
theorem levelOf_prims_other {c : Config} (h : c.Legal) {ps : List Prim} (hp : ∀ p ∈ ps, drivesDisplay c p) {q : Nat}
    (hq : q < c.nPins) (hne : q ∉ c.displayPins) (l : List Bool) : levelOf (latchAfter c ps l) q = levelOf l q := by
  induction ps generalizing l with
  | nil => rfl
  | cons p ps ih =>
    show levelOf (latchAfter c ps (p.latch c l)) q = _
    rw [ih fun r hr => hp r (by simp [hr]), levelOf_prim_other h (hp p (by simp)) hq hne]

/-- The levels a nibble transfer leaves on the display pins (44_lcd.md R221). -/
theorem levelOf_lnib {c : Config} (h : c.Legal) (m : Bool) (n : Nibble) (l : List Bool) :
    levelOf (latchAfter c (lnibPrims c m n) l) c.pinE = false ∧
    levelOf (latchAfter c (lnibPrims c m n) l) c.pinRs = m ∧
    levelOf (latchAfter c (lnibPrims c m n) l) c.pinRw = false ∧
    levelOf (latchAfter c (lnibPrims c m n) l) c.pinD4 = n.getLsbD 0 ∧
    levelOf (latchAfter c (lnibPrims c m n) l) c.pinD5 = n.getLsbD 1 ∧
    levelOf (latchAfter c (lnibPrims c m n) l) c.pinD6 = n.getLsbD 2 ∧
    levelOf (latchAfter c (lnibPrims c m n) l) c.pinD7 = n.getLsbD 3 := by
  have lt : ∀ p, p ∈ c.pins → p < c.nPins := h.pins_lt
  have e := lt c.pinE (by simp [Config.pins])
  have rs := lt c.pinRs (by simp [Config.pins])
  have rw' := lt c.pinRw (by simp [Config.pins])
  have d4 := lt c.pinD4 (by simp [Config.pins])
  have d5 := lt c.pinD5 (by simp [Config.pins])
  have d6 := lt c.pinD6 (by simp [Config.pins])
  have d7 := lt c.pinD7 (by simp [Config.pins])
  have ap := displayPinsApart h
  have c1 : ∀ p q : Nat, p < c.nPins → q < c.nPins → ∀ l : List Bool,
      levelOf ((clrp1 p).latch c l) q = if q = p then false else levelOf l q := fun p q hp hq l => levelOf_drive h hp hq false l
  have s1 : ∀ p q : Nat, p < c.nPins → q < c.nPins → ∀ l : List Bool,
      levelOf ((setp1 p).latch c l) q = if q = p then true else levelOf l q := fun p q hp hq l => levelOf_drive h hp hq true l
  have D : ∀ p q : Nat, p < c.nPins → q < c.nPins → ∀ (b : Bool) (l : List Bool),
      levelOf ((drive p b).latch c l) q = if q = p then b else levelOf l q := fun p q hp hq b l => levelOf_drive h hp hq b l
  have lw : ∀ ns : Word, ∀ l : List Bool, (Prim.wait ns).latch c l = l := fun _ _ => rfl
  refine ⟨?_, ?_, ?_, ?_, ?_, ?_, ?_⟩ <;>
    simp only [lnibPrims, latchAfter, List.foldl_cons, List.foldl_nil, lw, c1, s1, D, e, rs, rw', d4, d5, d6, d7,
      ap.rw_e.symm, ap.rs_e.symm, ap.d4_e.symm, ap.d5_e.symm, ap.d6_e.symm, ap.d7_e.symm, ap.rs_rw, ap.rs_d4, ap.rs_d5,
      ap.rs_d6, ap.rs_d7, ap.rw_d4, ap.rw_d5, ap.rw_d6, ap.rw_d7, ap.d4_d5, ap.d4_d6, ap.d4_d7, ap.d5_d6, ap.d5_d7,
      ap.d6_d7, if_true, if_false]

/-- A byte transfer leaves E low. -/
theorem levelOf_byte_e {c : Config} (h : c.Legal) (m : Bool) (b : Byte) (l : List Bool) :
    levelOf (latchAfter c (bytePrims c m b) l) c.pinE = false := by
  rw [bytePrims, latchAfter_append]
  exact (levelOf_lnib h _ _ _).1

/-! ## Display operations one after another (44_lcd.md R222 to R224, R226, R230) -/

/-- A display operation as the instruction it is. -/
def DisplayOp.toInstr : DisplayOp → Instr
  | .wait ns => .wait ns
  | .lnib m n => .lnib m n
  | .lins b => .lins b
  | .lchr b => .lchr b
  | .lstr text => .lstr text

/-- One display operation runs its expansion. -/
theorem exec_displayOp (o : DisplayOp) (s : State) : exec o.toInstr s = runPrims (expandOp s.cfg o) s := by
  cases o <;> simp only [DisplayOp.toInstr, exec, execLnib, execLins, execLchr, execLstr, expand_singleton]
  rfl

/-- Display operations one after another run the expansion of their list. -/
theorem execAll_displayOps (ops : List DisplayOp) {s : State} (h : s.cfg.Legal) (hm : s.wordsMapped) :
    execAll (ops.map DisplayOp.toInstr) s = .next (s.afterPrims (expand s.cfg ops)) := by
  induction ops generalizing s with
  | nil => simp [execAll, expand]
  | cons o ops ih =>
    have one := runPrims_expand h hm rfl rfl [o]
    rw [expand_singleton] at one
    rw [List.map_cons, execAll, exec_displayOp, one, andThen_next, expand_cons, State.afterPrims_append]
    exact ih (s := s.afterPrims (expandOp s.cfg o)) h hm

end Sys2Proof.Machine
end

