-- ==== Sys2Proof/Laws/Pins.lean ====
section
/-! SUPPORT. The function-select fields: the bits of a pin's masks, and what CFGOUT leaves of a word (41_gpio_pin.md R162,
40_register_access.md R146). -/

namespace Sys2Proof.Machine

theorem rmwWord_getLsbD (old clr set : Word) (b : Nat) :
    (rmwWord old clr set).getLsbD b = ((old.getLsbD b && !clr.getLsbD b) || set.getLsbD b) := by
  by_cases hb : b < 32
  · simp [rmwWord, hb]
  · simp [rmwWord, BitVec.getLsbD_of_ge _ b (by omega : 32 ≤ b)]

theorem fselMask_getLsbD (p b : Nat) : (fselMask p).getLsbD b = decide (fselShift p ≤ b ∧ b < fselShift p + 3) := by
  have hs := fselShift_le p
  have seven : ∀ k : Nat, (0b111 : Word).getLsbD k = decide (k < 3) := by
    intro k
    by_cases hk : k < 32
    · have : ∀ k : Fin 32, (0b111 : Word).getLsbD k.val = decide (k.val < 3) := by decide
      exact this ⟨k, hk⟩
    · rw [BitVec.getLsbD_of_ge _ _ (by omega)]
      simp; omega
  unfold fselMask
  rw [BitVec.getLsbD_shiftLeft, seven]
  by_cases h1 : b < fselShift p
  · simp [h1, show ¬fselShift p ≤ b by omega]
  · by_cases h2 : b - fselShift p < 3
    · simp [h1, h2, show b < 32 by omega, show fselShift p ≤ b by omega, show b < fselShift p + 3 by omega]
    · simp [h2, show ¬b < fselShift p + 3 by omega]

theorem fselOut_getLsbD (c : Config) (p b : Nat) :
    (fselOut c p).getLsbD b = (decide (fselShift p ≤ b ∧ b < fselShift p + 3) && c.fselOutput.getLsbD (b - fselShift p)) := by
  have hs := fselShift_le p
  unfold fselOut
  rw [BitVec.getLsbD_shiftLeft, BitVec.getLsbD_setWidth]
  by_cases h1 : b < fselShift p
  · simp [h1, show ¬fselShift p ≤ b by omega]
  · by_cases h2 : b - fselShift p < 3
    · simp [h1, show b < 32 by omega, show b - fselShift p < 32 by omega, show fselShift p ≤ b by omega,
        show b < fselShift p + 3 by omega]
    · rw [BitVec.getLsbD_of_ge c.fselOutput _ (by omega)]
      simp

/-- The field of the configured pin holds the output code. -/
theorem field_rmw_same (c : Config) (p : Nat) (old : Word) :
    (rmwWord old (fselMask p) (fselOut c p)).extractLsb' (fselShift p) 3 = c.fselOutput := by
  apply BitVec.eq_of_getLsbD_eq
  intro i hi
  rw [BitVec.getLsbD_extractLsb', rmwWord_getLsbD, fselMask_getLsbD, fselOut_getLsbD]
  simp [hi, show fselShift p + i < fselShift p + 3 by omega]

/-- A bit outside the configured pin's field stays. -/
theorem bit_rmw_other (c : Config) (p b : Nat) (old : Word) (h : b < fselShift p ∨ fselShift p + 3 ≤ b) :
    (rmwWord old (fselMask p) (fselOut c p)).getLsbD b = old.getLsbD b := by
  rw [rmwWord_getLsbD, fselMask_getLsbD, fselOut_getLsbD]
  have : ¬(fselShift p ≤ b ∧ b < fselShift p + 3) := by omega
  simp [this]

/-- The field of another pin stays. -/
theorem field_rmw_other (c : Config) {p q : Nat} (hw : fselWord p = fselWord q) (hne : q ≠ p) (old : Word) :
    (rmwWord old (fselMask p) (fselOut c p)).extractLsb' (fselShift q) 3 = old.extractLsb' (fselShift q) 3 := by
  apply BitVec.eq_of_getLsbD_eq
  intro i hi
  rw [BitVec.getLsbD_extractLsb', BitVec.getLsbD_extractLsb', bit_rmw_other]
  unfold fselShift
  unfold fselWord at hw
  omega

/-- What CFGOUT of an existing pin whose word is mapped leaves (R162). -/
def State.afterCfgout (p : Nat) (s : State) : State :=
  { s with
    mem := s.mem.writeWord (fselAddr s.cfg (fselWord p)).toNat (rmwWord (s.fsel (fselWord p)) (fselMask p) (fselOut s.cfg p))
    trace := s.trace ++ [.regRead s.agent (fselAddr s.cfg (fselWord p)) (s.fsel (fselWord p)),
      .regWrite s.agent (fselAddr s.cfg (fselWord p)) (rmwWord (s.fsel (fselWord p)) (fselMask p) (fselOut s.cfg p))] }

/-- A read of an FSEL word, all of it (20_memory.md R71). -/
theorem memRead_fselAddr {s : State} (h : s.cfg.Legal) {i : Nat} (hi : i < s.cfg.nFsel) :
    s.memRead (fselAddr s.cfg i) =
      { s with trace := s.trace ++ [.regRead s.agent (fselAddr s.cfg i) (s.fsel i)] } := by
  unfold State.memRead State.emit
  rw [drawsOfRead_fselAddr h hi, peek_fselAddr h hi]
  rfl

/-- RMW of an FSEL word, all of it (40_register_access.md R145). -/
theorem modifyReg_fselAddr {s : State} (h : s.cfg.Legal) {i : Nat} (hi : i < s.cfg.nFsel)
    (hm : fselAddr s.cfg i ∈ s.mapped) (clr set : Word) :
    modifyReg (fselAddr s.cfg i) clr set s = .next
      { s with
        mem := s.mem.writeWord (fselAddr s.cfg i).toNat (rmwWord (s.fsel i) clr set)
        trace := s.trace ++ [.regRead s.agent (fselAddr s.cfg i) (s.fsel i),
          .regWrite s.agent (fselAddr s.cfg i) (rmwWord (s.fsel i) clr set)] } := by
  rw [modifyReg_mapped hm, memRead_fselAddr h hi, peek_fselAddr h hi]
  refine congrArg _ ((memWrite_fselAddr
    (s := { s with trace := s.trace ++ [.regRead s.agent (fselAddr s.cfg i) (s.fsel i)] }) h hi _).trans ?_)
  simp

theorem execCfgout_mapped {s : State} (h : s.cfg.Legal) {p : Nat} (hp : p < s.cfg.nPins)
    (hm : fselAddr s.cfg (fselWord p) ∈ s.mapped) :
    execCfgout (BitVec.ofNat 8 p) s = .next (s.afterCfgout p) := by
  unfold execCfgout
  rw [pin_toNat h hp, if_pos hp, modifyReg_fselAddr h (fselWord_lt hp) hm]
  rfl

theorem fsel_afterCfgout_same {s : State} (hm : s.mem.wf) (p : Nat) :
    (s.afterCfgout p).fsel (fselWord p) = rmwWord (s.fsel (fselWord p)) (fselMask p) (fselOut s.cfg p) :=
  Memory.readWord_writeWord_same hm _ _

theorem fsel_afterCfgout_other {s : State} (h : s.cfg.Legal) {p i : Nat} (hp : p < s.cfg.nPins) (hi : i < s.cfg.nFsel)
    (hne : i ≠ fselWord p) : (s.afterCfgout p).fsel i = s.fsel i := by
  unfold State.fsel State.afterCfgout
  rw [Memory.readWord_writeWord_other]
  simp only [fselAddr_toNat h hi, fselAddr_toNat h (fselWord_lt hp)]
  omega

/-- CFGOUT makes its pin an output (R162). -/
theorem fselField_afterCfgout_same {s : State} (hm : s.mem.wf) (p : Nat) :
    (s.afterCfgout p).fselField p = s.cfg.fselOutput := by
  unfold State.fselField
  rw [fsel_afterCfgout_same hm p]
  exact field_rmw_same _ _ _

/-- CFGOUT leaves every other pin's field alone (R146). -/
theorem fselField_afterCfgout_other {s : State} (h : s.cfg.Legal) (hm : s.mem.wf) {p q : Nat} (hp : p < s.cfg.nPins)
    (hq : q < s.cfg.nPins) (hne : q ≠ p) : (s.afterCfgout p).fselField q = s.fselField q := by
  unfold State.fselField
  by_cases hw : fselWord q = fselWord p
  · rw [hw, fsel_afterCfgout_same hm p]
    exact field_rmw_other _ hw.symm hne _
  · rw [fsel_afterCfgout_other h hp (fselWord_lt hq) hw]

end Sys2Proof.Machine
end

