-- ==== Sys2Proof/Laws/Sequences.lean ====
section
/-! SUPPORT. The micro-steps of the sequencers: the tick's write, the pulse, the redraw's lines, the teardown, the attach
list. -/

namespace Sys2Proof.Machine

/-- A primitive runs as the operation it is. -/
theorem exec_prim (p : Prim) (s : State) : exec p.toInstr s = runPrim p s := by cases p <;> rfl

theorem ledWord_toNat {c : Config} (h : c.Legal) : (ledWord c).toNat = scWord c.pinGreen :=
  scIndex_toNat h (h.pins_lt _ (by simp [Config.pins]))

/-- A tick's write goes through and changes the latches and the trace alone. -/
theorem blinkWrite_next {s : State} (h : s.cfg.Legal) (hm : s.wordsMapped) :
    ∃ l tr, l.length = s.cfg.nPins ∧ blinkWrite s = .next { s with latch := l, trace := tr } := by
  have hg : s.cfg.pinGreen ∈ s.cfg.pins := by simp [Config.pins]
  have hlt := h.pins_lt _ hg
  have hw := ledWord_toNat h
  unfold blinkWrite
  split
  · rw [setPins_mapped (by rw [hw]; exact scWord_lt hlt) (by rw [hw]; exact hm _ (setAddr_mem_attachWords hg)),
      memWrite_setAddr h (by rw [hw]; exact scWord_lt hlt)]
    exact ⟨_, _, by simp, rfl⟩
  · rw [clearPins_mapped (by rw [hw]; exact scWord_lt hlt) (by rw [hw]; exact hm _ (clrAddr_mem_attachWords hg)),
      memWrite_clrAddr h (by rw [hw]; exact scWord_lt hlt)]
    exact ⟨_, _, by simp, rfl⟩

/-- The primitives of a pulse touch mapped words only. -/
theorem alarmPrim_ready {s : State} (h : s.cfg.Legal) (hm : s.wordsMapped) {i : Nat} {p : Prim} (hp : (alarmSeq s.cfg)[i]? = some (.prim p)) :
    p.Ready s.cfg s.mapped := by
  have ha : s.cfg.pinAlarm ∈ s.cfg.pins := by simp [Config.pins]
  match i, hp with
  | 0, hp => cases hp; exact setp1_ready h ha hm
  | 1, hp => cases hp; trivial
  | 2, hp => cases hp; exact clrp1_ready h ha hm
  | 3, hp => cases hp; trivial
  | i + 4, hp =>
    cases i with
    | zero => cases hp
    | succ i => cases hp

/-- A micro-step of a pulse is a primitive that runs, or the re-evaluation at index 4. -/
theorem alarmMicroStep_cases {s : State} (h : s.cfg.Legal) (hm : s.wordsMapped) (hpc : s.alarmPc ≤ 4) :
    (∃ p, s.alarmPc < 4 ∧ (alarmSeq s.cfg)[s.alarmPc]? = some (.prim p) ∧ alarmMicroStep s = .next { s.afterPrims [p] with alarmPc := s.alarmPc + 1 }) ∨
    (s.alarmPc = 4 ∧ alarmMicroStep s = .next { s.reevaluateAlarm with alarmPc := s.alarmPc + 1 }) := by
  unfold alarmMicroStep
  split
  · next p hp =>
    left
    refine ⟨p, ?_, hp, ?_⟩
    · by_contra hc; have : s.alarmPc = 4 := by omega
      rw [this] at hp; cases hp
    · rw [runPrim_ready h (alarmPrim_ready h hm hp)]; rfl
  · next hp =>
    right
    refine ⟨?_, rfl⟩
    by_contra hc
    have : s.alarmPc = 0 ∨ s.alarmPc = 1 ∨ s.alarmPc = 2 ∨ s.alarmPc = 3 := by omega
    rcases this with h | h | h | h <;> rw [h] at hp <;> cases hp
  · next hp =>
    exfalso
    have : s.alarmPc = 0 ∨ s.alarmPc = 1 ∨ s.alarmPc = 2 ∨ s.alarmPc = 3 ∨ s.alarmPc = 4 := by omega
    rcases this with h | h | h | h | h <;> rw [h] at hp <;> cases hp

theorem decDigits_length (fuel n : Nat) : (decDigits fuel n).length ≤ fuel := by
  induction fuel generalizing n with
  | zero => simp [decDigits]
  | succ f ih =>
    simp only [decDigits]
    split
    · simp
    · have := ih (n / 10); simp; omega

/-- A reading has at most eleven characters. -/
theorem dec_length (v : Word) : (dec v).length ≤ 11 := by
  unfold dec
  split
  · have := decDigits_length 10 (-v.toInt).toNat; simp; omega
  · have := decDigits_length 10 v.toInt.toNat; omega

/-- The ASCII digit of a number below ten is not the terminator. -/
theorem digit_ne_zero {n : Nat} (h : n < 10) : digit n ≠ 0 := by
  intro e
  have := congrArg BitVec.toNat e
  simp only [digit, BitVec.toNat_ofNat, BitVec.ofNat_eq_ofNat] at this
  omega

theorem decDigits_no_terminator (fuel n : Nat) : (0 : Byte) ∉ decDigits fuel n := by
  induction fuel generalizing n with
  | zero => simp [decDigits]
  | succ f ih =>
    simp only [decDigits]
    split
    · next hn => rw [List.mem_singleton]; exact (digit_ne_zero hn).symm
    · rw [List.mem_append, List.mem_singleton, not_or]; exact ⟨ih _, (digit_ne_zero (by omega)).symm⟩

/-- The lines hold no terminator, so they are sent whole (30_encoding.md R112). -/
theorem dec_no_terminator (v : Word) : (0 : Byte) ∉ dec v := by
  unfold dec
  split
  · rw [List.mem_cons, not_or]; exact ⟨by decide, decDigits_no_terminator _ _⟩
  · exact decDigits_no_terminator _ _

theorem composeLine1_no_terminator (t : Word) : (0 : Byte) ∉ composeLine1 t := by
  unfold composeLine1
  rw [List.mem_append, not_or]
  exact ⟨by decide, dec_no_terminator t⟩

theorem composeLine2_no_terminator (h : Word) : (0 : Byte) ∉ composeLine2 h := by
  unfold composeLine2
  rw [List.mem_append, not_or]
  exact ⟨by decide, dec_no_terminator h⟩

/-- Unmapping everything that is mapped, in descending order. -/
theorem unmapWords_reverse (l : List Word) (s : State) (h : s.mapped = l) (hn : l.Nodup) :
    unmapWords l.reverse s = .next { s with mapped := [], trace := s.trace ++ l.reverse.map Event.unmap } := by
  induction l using List.reverseRecOn generalizing s with
  | nil =>
    cases s; simp at h; subst h; simp [unmapWords]
  | append_singleton l a ih =>
    rw [List.reverse_append, List.reverse_singleton, List.singleton_append, unmapWords, unmapWord, if_pos (by simp [h]), andThen_next]
    have hnl : a ∉ l := by
      rw [List.nodup_append] at hn
      intro ha; exact hn.2.2 a ha a (by simp) rfl
    rw [ih]
    · simp
    · simp [h, removeAddr_append_last hnl]
    · exact (List.nodup_append.mp hn).1

/-- The entry after a first part of a rising list is above that part. -/
theorem rising_take {l : List Word} (hr : Rising l) {k : Nat} {a : Word} (ha : l[k]? = some a) :
    (∀ b ∈ l.take k, b.toNat < a.toNat) ∧ l.take (k + 1) = l.take k ++ [a] := by
  obtain ⟨hk, rfl⟩ := List.getElem?_eq_some_iff.mp ha
  refine ⟨fun b hb => ?_, by rw [List.take_append_getElem]⟩
  obtain ⟨i, hi, rfl⟩ := List.mem_iff_getElem.mp hb
  simp at hi
  rw [List.getElem_take]
  exact List.pairwise_iff_getElem.mp hr i k (by omega) hk (by omega)

theorem pins_length (c : Config) : c.pins.length = 11 := rfl

/-- What stands at each place of the attach list. -/
theorem attachList_at (c : Config) (k : Nat) (hk : k < (attachList c).length) :
    (∃ a, (attachWords c)[k]? = some a ∧ (attachList c)[k]? = some (.op (.map a))) ∨
    (∃ p, (attachWords c).length ≤ k ∧ c.pins[k - (attachWords c).length]? = some p ∧
      (attachList c)[k]? = some (.op (.cfgout (BitVec.ofNat 8 p)))) ∨
    (∃ p, (attachWords c).length + 11 ≤ k ∧ k + 1 < (attachList c).length ∧ p ∈ expand c (linitList c) ∧
      (attachList c)[k]? = some (.op p.toInstr)) ∨
    ((attachWords c).length + 11 ≤ k ∧ k + 1 = (attachList c).length ∧ (attachList c)[k]? = some .finish) := by
  have hl : (attachList c).length = (attachWords c).length + 11 + (expand c (linitList c)).length + 1 := by
    simp [attachList, pins_length]; omega
  by_cases h1 : k < (attachWords c).length
  · left
    refine ⟨(attachWords c)[k], by simp [h1], ?_⟩
    simp [attachList, List.getElem?_append, h1]
  · by_cases h2 : k - (attachWords c).length < 11
    · right; left
      have : k - (attachWords c).length < c.pins.length := h2
      refine ⟨c.pins[k - (attachWords c).length], by omega, by simp [this], ?_⟩
      simp [attachList, List.getElem?_append, h1, this]
    · right; right
      by_cases h3 : k - (attachWords c).length - 11 < (expand c (linitList c)).length
      · left
        refine ⟨(expand c (linitList c))[k - (attachWords c).length - 11], by omega, by omega, List.getElem_mem h3, ?_⟩
        simp [attachList, List.getElem?_append, h1, pins_length, h2, h3]
      · right
        refine ⟨by omega, by omega, ?_⟩
        have : k - (attachWords c).length - 11 - (expand c (linitList c)).length = 0 := by omega
        simp [attachList, List.getElem?_append, h1, pins_length, h2, h3, this]

theorem wf_afterCfgout {s : State} (h : s.mem.wf) (p : Nat) : (s.afterCfgout p).mem.wf := Memory.wf_writeWord h _ _

end Sys2Proof.Machine
end

