-- ==== Sys2Proof/Laws/Steps.lean ====
section
/-! SUPPORT. One step and several: the turn a step takes, and how a run goes on after it. -/

namespace Sys2Proof.Machine

/-- A step takes the head of the schedule. -/
theorem step_of_schedule {s : State} {turn : Turn} {rest : List Turn} (h : s.schedule = turn :: rest) :
    step s = takeTurn turn { s with schedule := rest } := by
  simp [step, State.nextTurn, State.popTurn, h]

theorem nextTurn_of_schedule {s : State} {turn : Turn} {rest : List Turn} (h : s.schedule = turn :: rest) :
    s.nextTurn = turn := by
  simp [State.nextTurn, h]

@[simp] theorem run_zero (s : State) : run 0 s = .next s := rfl

/-- A run goes on from the state its first step leaves. -/
theorem run_succ {s t : State} (h : step s = .next t) (n : Nat) : run (n + 1) s = run n t := by
  rw [run, h, andThen_next]

/-- Two runs one after another. -/
theorem run_add (m n : Nat) (s : State) : run (m + n) s = andThen (run m s) (run n) := by
  induction m generalizing s with
  | zero => simp
  | succ m ih =>
    rw [Nat.succ_add, run, run]
    cases step s with
    | next u => exact ih u
    | fault r => rfl
    | refused r => rfl

/-! ## Line writes (41_gpio_pin.md R167) -/

theorem setp1_lineWrite {c : Config} (h : c.Legal) {p : Nat} (hp : p < c.nPins) (a : Agent) :
    (setp1 p).event c a = lineWrite c a p true := by
  rw [setp1_event h hp]; rfl

theorem clrp1_lineWrite {c : Config} (h : c.Legal) {p : Nat} (hp : p < c.nPins) (a : Agent) :
    (clrp1 p).event c a = lineWrite c a p false := by
  rw [clrp1_event h hp]; rfl

theorem drive_lineWrite {c : Config} (h : c.Legal) {p : Nat} (hp : p < c.nPins) (a : Agent) (b : Bool) :
    (drive p b).event c a = lineWrite c a p b := by
  cases b
  · exact clrp1_lineWrite h hp a
  · exact setp1_lineWrite h hp a

/-! ## The LED group (30_encoding.md R104, 41_gpio_pin.md R166) -/

/-- The bits of a band's mask in the LED word are the pins of its active set. -/
theorem bandMask_bits {c : Config} (h : c.Legal) (b : Band) (p : Nat) :
    (scWord p = scWord c.pinGreen ∧ (bandMask c b).getLsbD (scBit p) = true) ↔ p ∈ activeSet c b := by
  have y : scWord c.pinYellow = scWord c.pinGreen := h.led_yellow
  have r : scWord c.pinRed = scWord c.pinGreen := h.led_red
  have one (q : Nat) (hq : scWord q = scWord c.pinGreen) :
      (scWord p = scWord c.pinGreen ∧ scBit p = scBit q) ↔ p = q :=
    ⟨fun h => pin_eq_of_sc (h.1.trans hq.symm) h.2, fun h => by subst h; exact ⟨hq, rfl⟩⟩
  have og := one _ rfl
  have oy := one _ y
  have or' := one _ r
  cases b <;>
    simp only [bandMask, maskAll, activeSet, Config.ledPins, List.mem_cons, List.not_mem_nil, or_false,
      BitVec.getLsbD_or, pinMask_getLsbD, Bool.or_eq_true, decide_eq_true_eq] <;>
    tauto

end Sys2Proof.Machine
end

