-- ==== Sys2Proof/Laws/Invariant.lean ====
section
/-! SUPPORT. The invariant under each named update of the state. -/

namespace Sys2Proof.Machine

/-- Who steps is no part of the invariant. -/
theorem State.Inv.withAgent {s : State} (h : s.Inv) (a : Agent) : (s.withAgent a).Inv :=
  ⟨h.1, h.2, h.3, h.4, h.5, h.6, h.7, h.8, h.9, h.10, h.11, h.12, h.13, h.14, h.15, h.16, h.17, h.18, h.19⟩

theorem State.Inv.emit {s : State} (h : s.Inv) (e : Event) : (s.emit e).Inv :=
  ⟨h.1, h.2, h.3, h.4, h.5, h.6, h.7, h.8, h.9, h.10, h.11, h.12, h.13, h.14, h.15, h.16, h.17, h.18, h.19⟩

theorem State.Inv.popTurn {s : State} (h : s.Inv) : s.popTurn.Inv := by
  unfold State.popTurn
  split
  · exact ⟨h.1, h.2, h.3, h.4, h.5, h.6, h.7, h.8, h.9, h.10, h.11, h.12, h.13, h.14, h.15, h.16, h.17, h.18, h.19⟩
  · exact ⟨h.1, h.2, h.3, h.4, h.5, h.6, h.7, h.8, h.9, h.10, h.11, h.12, h.13, h.14, h.15, h.16, h.17, h.18, h.19⟩

/-- A change of latches and trace keeps the invariant. -/
theorem State.Inv.withLatch {s : State} (h : s.Inv) (l : List Bool) (tr : List Event) (hl : l.length = s.cfg.nPins) :
    ({s with latch := l, trace := tr} : State).Inv :=
  ⟨h.1, h.2, hl, h.4, h.5, h.6, h.7, h.8, h.9, h.10, h.11, h.12, h.13, h.14, h.15, h.16, h.17, h.18, h.19⟩

/-- Primitives leave one latch for each pin. -/
theorem latchAfter_length {c : Config} (ps : List Prim) {l : List Bool} (h : l.length = c.nPins) :
    (latchAfter c ps l).length = c.nPins := by
  unfold latchAfter
  induction ps generalizing l with
  | nil => exact h
  | cons p ps ih =>
    rw [List.foldl_cons]; apply ih
    cases p <;> simp [Prim.latch, h]

theorem State.Inv.afterPrims {s : State} (h : s.Inv) (ps : List Prim) : (s.afterPrims ps).Inv :=
  State.Inv.withLatch h _ _ (latchAfter_length ps h.latches)

/-- While work may run, every word of the block is mapped. -/
theorem State.Inv.wordsMapped {s : State} (h : s.Inv) (ha : s.active) : s.wordsMapped := by
  intro a hm; rw [h.mapped_active ha]; exact hm

/-- Steps that keep the phase, the register words, the mapping and the INIT sequencer: what is left to show. -/
theorem State.Inv.update {s t : State} (h : s.Inv) (hcfg : t.cfg = s.cfg) (hmem : t.mem = s.mem)
    (hlatch : t.latch.length = s.latch.length) (hphase : t.phase = s.phase) (hcan : t.cancelled = s.cancelled)
    (hmapped : t.mapped = s.mapped) (hir : t.initRunning = s.initRunning) (his : t.initSeq = s.initSeq)
    (hip : t.initPc = s.initPc)
    (ar : t.alarmRunning = true → s.active) (rr : t.redrawRunning = true → s.active)
    (ta : t.timerArmed = true → s.phase = .run) (ap : t.alarmPending = true → s.phase = .run)
    (rp : t.redrawPending = true → s.phase = .run) (ai : t.alarmRunning = true → 1 ≤ t.alarmPc ∧ t.alarmPc ≤ 4)
    (rl : t.redrawRunning = true →
      t.lcdSeq = expand s.cfg (redrawList s.cfg t.line1 t.line2) ∧ t.lcdPc < t.lcdSeq.length)
    (lf : t.line1.length < s.cfg.lineBufWidth ∧ t.line2.length < s.cfg.lineBufWidth) : t.Inv where
  legal := hcfg ▸ h.legal
  memory := hmem ▸ h.memory
  latches := by rw [hlatch, hcfg]; exact h.latches
  alarm_active := by simpa [State.active, hphase] using ar
  redraw_active := by simpa [State.active, hphase] using rr
  timer_run := by simpa [hphase] using ta
  alarm_pending_run := by simpa [hphase] using ap
  redraw_pending_run := by simpa [hphase] using rp
  cancelled_iff := by simpa [hphase, hcan] using h.cancelled_iff
  mapped_active := by simpa [State.active, hphase, hmapped, hcfg] using h.mapped_active
  mapped_idle := by simpa [State.active, hphase, hmapped, hir] using h.mapped_idle
  init_reset := by simpa [hphase, hir] using h.init_reset
  init_list := by simpa [hir, his, hip, hcfg] using h.init_list
  init_mapped := by simpa [hir, hip, hcfg, hmapped] using h.init_mapped
  init_outputs := by
    simpa [hir, hip, hcfg, hmem, State.configured, State.fselField, State.fsel] using h.init_outputs
  outputs := by
    simpa [State.everAttached, hphase, hcfg, hmem, State.fselField, State.fsel] using h.outputs
  alarm_index := ai
  redraw_list := by simpa [hcfg] using rl
  lines_fit := by simpa [hcfg] using lf

theorem State.Inv.hardwareReset {s : State} (h : s.Inv) : s.hardwareReset.Inv where
  legal := h.legal
  memory := h.memory
  latches := h.latches
  alarm_active := by simp
  redraw_active := by simp
  timer_run := by simp
  alarm_pending_run := by simp
  redraw_pending_run := by simp
  cancelled_iff := by simp
  mapped_active := by simp [State.active]
  mapped_idle := by simp
  init_reset := by simp
  init_list := by simp
  init_mapped := by simp
  init_outputs := by simp
  outputs := by simp [State.everAttached]
  alarm_index := by simp
  redraw_list := by simp
  lines_fit := by have := h.legal.line_fits; simp; omega

theorem State.Inv.updateT {s : State} (h : s.Inv) (hr : s.phase = .run) (v : Word) : (s.updateT v).Inv := by
  unfold State.updateT
  apply h.update <;> simp [hr]
  · exact fun x => h.alarm_active x
  · exact fun x => h.redraw_active x
  · exact fun x => h.alarm_index x
  · exact fun x => h.redraw_list x
  · exact h.lines_fit

theorem State.Inv.updateH {s : State} (h : s.Inv) (hr : s.phase = .run) (v : Word) : (s.updateH v).Inv := by
  unfold State.updateH
  apply h.update <;> simp [hr]
  · exact fun x => h.alarm_active x
  · exact fun x => h.redraw_active x
  · exact fun x => h.alarm_index x
  · exact fun x => h.redraw_list x
  · exact h.lines_fit

theorem State.Inv.cancelSignal {s : State} (h : s.Inv) (hr : s.phase = .run) : s.cancelSignal.Inv where
  legal := h.legal
  memory := h.memory
  latches := h.latches
  alarm_active := by simp [State.active]
  redraw_active := by simp [State.active]
  timer_run := by simp
  alarm_pending_run := by simp
  redraw_pending_run := by simp
  cancelled_iff := by simp
  mapped_active := fun _ => h.mapped_active (.inl hr)
  mapped_idle := by simp [State.active]
  init_reset := by intro hi; have := h.init_reset hi; simp [hr] at this
  init_list := h.init_list
  init_mapped := h.init_mapped
  init_outputs := h.init_outputs
  outputs := fun _ => h.outputs (.inl hr)
  alarm_index := h.alarm_index
  redraw_list := h.redraw_list
  lines_fit := h.lines_fit

theorem State.Inv.startAttach {s : State} (h : s.Inv) (hp : s.phase = .reset) (hi : s.initRunning = false) : s.startAttach.Inv where
  legal := h.legal
  memory := h.memory
  latches := h.latches
  alarm_active := h.alarm_active
  redraw_active := h.redraw_active
  timer_run := h.timer_run
  alarm_pending_run := h.alarm_pending_run
  redraw_pending_run := h.redraw_pending_run
  cancelled_iff := h.cancelled_iff
  mapped_active := h.mapped_active
  mapped_idle := by simp
  init_reset := by simp [hp]
  init_list := by simp [attachList]
  init_mapped := by
    have := h.mapped_idle (by simp [State.active, hp]) hi
    simp [this]
  init_outputs := by simp [State.configured]
  outputs := h.outputs
  alarm_index := h.alarm_index
  redraw_list := h.redraw_list
  lines_fit := h.lines_fit

end Sys2Proof.Machine
end

