-- ==== Sys2Proof/Laws/Turns.lean ====
section
/-! SUPPORT. From a state with the invariant every agent's turn ends in a next state with the invariant. -/

namespace Sys2Proof.Machine

/-- HOST takes a step, whatever it presents, and it keeps the invariant. -/
theorem hostTurn_keeps_inv {s : State} (h : s.Inv) (op : Byte) (operands : List Byte) : ∃ t, hostTurn op operands s = .next t ∧ t.Inv := by
  unfold hostTurn
  split
  · next i hi =>
    cases i <;> simp only [Instr.port] <;> try exact ⟨_, rfl, State.Inv.emit h _⟩
    · simp only [exec, execAttach]
      split
      · next he => simp [State.attachAccepted] at he; exact ⟨_, rfl, State.Inv.startAttach h he.1 he.2⟩
      · exact ⟨_, rfl, State.Inv.emit h _⟩
    · simp only [exec, execSett]
      split
      · next he => simp [State.commandAccepted] at he; exact ⟨_, rfl, State.Inv.emit (State.Inv.updateT h he _) _⟩
      · exact ⟨_, rfl, State.Inv.emit h _⟩
    · simp only [exec, execSeth]
      split
      · next he => simp [State.commandAccepted] at he; exact ⟨_, rfl, State.Inv.emit (State.Inv.updateH h he _) _⟩
      · exact ⟨_, rfl, State.Inv.emit h _⟩
    · simp only [exec, execDetach]
      split
      · next he => simp [State.commandAccepted] at he; exact ⟨_, rfl, State.Inv.cancelSignal h he⟩
      · exact ⟨_, rfl, State.Inv.emit h _⟩
    · simp only [exec, execSettx]
      split
      · next he =>
        simp [State.commandAccepted] at he
        split
        · exact ⟨_, rfl, State.Inv.emit (State.Inv.updateT h he _) _⟩
        · exact ⟨_, rfl, State.Inv.emit h _⟩
      · exact ⟨_, rfl, State.Inv.emit h _⟩
    · simp only [exec, execSethx]
      split
      · next he =>
        simp [State.commandAccepted] at he
        split
        · exact ⟨_, rfl, State.Inv.emit (State.Inv.updateH h he _) _⟩
        · exact ⟨_, rfl, State.Inv.emit h _⟩
      · exact ⟨_, rfl, State.Inv.emit h _⟩
  · exact ⟨_, rfl, State.Inv.emit h _⟩

/-- INIT takes a step, and it keeps the invariant. -/
theorem initTurn_keeps_inv {s : State} (h : s.Inv) : ∃ t, initTurn s = .next t ∧ t.Inv := by
  unfold initTurn
  split
  · next hi =>
    have hp := h.init_reset hi
    obtain ⟨hseq, hlt⟩ := h.init_list hi
    have hmap := h.init_mapped hi
    have hc : s.cancelled = false := by
      have := h.cancelled_iff; simp [hp] at this; exact this
    have har : s.alarmRunning = false := by
      by_contra hx; have := h.alarm_active (by simpa using hx); simp [State.active, hp] at this
    have hrr : s.redrawRunning = false := by
      by_contra hx; have := h.redraw_active (by simpa using hx); simp [State.active, hp] at this
    have hta : s.timerArmed = false := by
      by_contra hx; have := h.timer_run (by simpa using hx); simp [hp] at this
    have hap : s.alarmPending = false := by
      by_contra hx; have := h.alarm_pending_run (by simpa using hx); simp [hp] at this
    have hrp : s.redrawPending = false := by
      by_contra hx; have := h.redraw_pending_run (by simpa using hx); simp [hp] at this
    have hconf := h.init_outputs hi
    rcases attachList_at s.cfg s.initPc hlt with ⟨a, ha, he⟩ | ⟨p, hW, hpin, he⟩ | ⟨p, hW, hlt2, hpm, he⟩ | ⟨hW, hend, he⟩
    · have he' := he
      rw [← hseq] at he'
      rw [he']
      simp only [exec, execMap, mapWord]
      have hmem : a ∈ attachWords s.cfg := List.mem_of_getElem? ha
      have hal := attachWords_aligned h.legal hmem
      obtain ⟨hab, htk⟩ := rising_take (rising_attachWords s.cfg) ha
      have hk : s.initPc < (attachWords s.cfg).length := (List.getElem?_eq_some_iff.mp ha).1
      rw [if_neg (by omega), if_neg (by rw [hmap]; intro hx; exact lt_irrefl _ (hab a hx))]
      have hL : (attachList s.cfg).length = (attachWords s.cfg).length + 11 + (expand s.cfg (linitList s.cfg)).length + 1 := by
        simp [attachList, pins_length]; omega
      split
      · refine ⟨_, rfl, ?_⟩
        rw [State.raiseMapError]
        simp only [State.emit_initRunning, hi, if_true]
        constructor <;> simp [hp, har, hrr, hta, hap, hrp, hc, State.active, State.everAttached]
        · exact h.legal
        · exact h.memory
        · exact h.latches
        · exact h.lines_fit
      · refine ⟨_, rfl, ?_⟩
        constructor <;> simp [hp, har, hrr, hta, hap, hrp, hc, hi, hseq, State.active, State.everAttached]
        · exact h.legal
        · exact h.memory
        · exact h.latches
        · omega
        · rw [hmap, insertAddr_above hab, htk]
        · intro p hx; simp [State.configured, show s.initPc + 1 - (attachWords s.cfg).length = 0 by omega] at hx
        · exact h.lines_fit
    · have he' := he
      rw [← hseq] at he'
      rw [he']
      have hpm := List.mem_of_getElem? hpin
      have hpn := h.legal.pins_lt p hpm
      have hmapped : s.mapped = attachWords s.cfg := by rw [hmap, List.take_of_length_le hW]
      have hk : s.initPc - (attachWords s.cfg).length < 11 := (List.getElem?_eq_some_iff.mp hpin).1
      have hL : (attachList s.cfg).length = (attachWords s.cfg).length + 11 + (expand s.cfg (linitList s.cfg)).length + 1 := by
        simp [attachList, pins_length]; omega
      simp only [exec]
      rw [execCfgout_mapped (s := { s with initPc := s.initPc + 1 }) h.legal hpn (by
        show _ ∈ s.mapped; rw [hmapped]; exact fselAddr_mem_attachWords hpm)]
      refine ⟨_, rfl, ?_⟩
      constructor
      · exact h.legal
      · exact wf_afterCfgout (s := { s with initPc := s.initPc + 1 }) h.memory p
      · exact h.latches
      · exact h.alarm_active
      · exact h.redraw_active
      · exact h.timer_run
      · exact h.alarm_pending_run
      · exact h.redraw_pending_run
      · exact h.cancelled_iff
      · exact h.mapped_active
      · exact h.mapped_idle
      · exact h.init_reset
      · intro _; exact ⟨hseq, by show s.initPc + 1 < _; show _ < (attachList s.cfg).length; omega⟩
      · intro _; show s.mapped = (attachWords s.cfg).take (s.initPc + 1); rw [hmapped, List.take_of_length_le (by omega)]
      · intro _ q hq
        have hq' : q ∈ s.cfg.pins.take (s.initPc + 1 - (attachWords s.cfg).length) := hq
        rw [show s.initPc + 1 - (attachWords s.cfg).length = (s.initPc - (attachWords s.cfg).length) + 1 by omega] at hq'
        obtain ⟨hk', hpe⟩ := List.getElem?_eq_some_iff.mp hpin
        have hq2 : q ∈ s.cfg.pins.take (s.initPc - (attachWords s.cfg).length) ++ [p] := by
          rw [← hpe, List.take_append_getElem]; exact hq'
        by_cases hqp : q = p
        · subst hqp; exact fselField_afterCfgout_same (s := { s with initPc := s.initPc + 1 }) h.memory q
        · have hq3 : q ∈ s.configured := by simpa [hqp, State.configured] using hq2
          have hqn : q < s.cfg.nPins := h.legal.pins_lt q (List.mem_of_mem_take hq3)
          rw [fselField_afterCfgout_other (s := { s with initPc := s.initPc + 1 }) h.legal h.memory hpn hqn hqp]
          exact hconf q hq3
      · intro hx; exact absurd hx (by simp [State.everAttached, State.afterCfgout, hp])
      · exact h.alarm_index
      · exact h.redraw_list
      · exact h.lines_fit
    · have he' := he
      rw [← hseq] at he'
      rw [he']
      simp only [exec_prim]
      have hmapped : s.mapped = attachWords s.cfg := by rw [hmap, List.take_of_length_le (by omega)]
      have hr := expand_ready h.legal (mapped := s.mapped) (by intro a ha; rw [hmapped]; exact ha) _ p hpm
      rw [runPrim_ready (s := { s with initPc := s.initPc + 1 }) h.legal hr]
      refine ⟨_, rfl, ?_⟩
      constructor
      · exact h.legal
      · exact h.memory
      · exact latchAfter_length [p] h.latches
      · exact h.alarm_active
      · exact h.redraw_active
      · exact h.timer_run
      · exact h.alarm_pending_run
      · exact h.redraw_pending_run
      · exact h.cancelled_iff
      · exact h.mapped_active
      · exact h.mapped_idle
      · exact h.init_reset
      · intro _; exact ⟨hseq, hlt2⟩
      · intro _; show s.mapped = (attachWords s.cfg).take (s.initPc + 1); rw [hmapped, List.take_of_length_le (by omega)]
      · intro _ q hq
        have hq' : q ∈ s.cfg.pins.take (s.initPc + 1 - (attachWords s.cfg).length) := hq
        have hq3 : q ∈ s.configured := by
          rw [State.configured, List.take_of_length_le (by rw [pins_length]; omega)]; exact List.mem_of_mem_take hq'
        exact hconf q hq3
      · intro hx; exact absurd hx (by simp [State.everAttached, State.afterPrims, hp])
      · exact h.alarm_index
      · exact h.redraw_list
      · exact h.lines_fit
    · have he' := he
      rw [← hseq] at he'
      rw [he']
      have hmapped : s.mapped = attachWords s.cfg := by rw [hmap, List.take_of_length_le (by omega)]
      refine ⟨_, rfl, ?_⟩
      constructor <;> simp [State.active, State.everAttached, har, hrr, hc]
      · exact h.legal
      · exact h.memory
      · exact h.latches
      · exact hmapped
      · intro q hq
        exact hconf q (by rw [State.configured, List.take_of_length_le (by rw [pins_length]; omega)]; exact hq)
      · exact h.lines_fit
  · exact ⟨s, rfl, h⟩

/-- BLINK takes a step, and it keeps the invariant. -/
theorem execBtick_keeps_inv {s : State} (h : s.Inv) : ∃ t, execBtick s = .next t ∧ t.Inv := by
  unfold execBtick
  split
  · next he =>
    simp [State.blinkEnabled] at he
    have hm := h.wordsMapped (.inl he.2)
    obtain ⟨l, tr, hl, hb⟩ := blinkWrite_next (s := s.fireTimer) h.legal hm
    rw [hb, andThen_next]
    refine ⟨_, rfl, ?_⟩
    apply h.update <;> simp [he]
    · rw [hl]; exact h.latches.symm
    · exact fun x => h.alarm_active x
    · exact fun x => h.redraw_active x
    · exact fun x => h.alarm_index x
    · exact fun x => h.redraw_list x
    · exact h.lines_fit
  · exact ⟨s, rfl, h⟩

/-- ALARM takes a step, and it keeps the invariant. -/
theorem execApulse_keeps_inv {s : State} (h : s.Inv) : ∃ t, execApulse s = .next t ∧ t.Inv := by
  unfold execApulse
  split
  · next he =>
    simp [State.alarmMayStart] at he
    have hm := h.wordsMapped (.inl he.2)
    rcases alarmMicroStep_cases (s := (s.withAgent .alarm).startAlarm) h.legal hm (by simp) with ⟨p, hlt, hp, hr⟩ | ⟨h4, hr⟩
    · rw [hr]
      refine ⟨_, rfl, ?_⟩
      have hl := latchAfter_length (c := s.cfg) [p] h.latches
      apply h.update <;> simp [he, State.afterPrims, State.active]
      · rw [hl]; exact h.latches.symm
      · exact fun x => h.redraw_list x
      · exact h.lines_fit
    · simp at h4
  · split
    · next hns he =>
      simp [State.itemMayGoOn] at he
      have hact : s.active := h.alarm_active he.1
      have hm := h.wordsMapped hact
      obtain ⟨h1, h4⟩ := h.alarm_index he.1
      rcases alarmMicroStep_cases (s := s.withAgent .alarm) h.legal hm (by simpa using h4) with ⟨p, hlt, hp, hr⟩ | ⟨h4, hr⟩
      · rw [hr]
        refine ⟨_, rfl, ?_⟩
        have hl := latchAfter_length (c := s.cfg) [p] h.latches
        apply h.update <;> simp [State.afterPrims]
        · rw [hl]; exact h.latches.symm
        · exact fun _ => hact
        · exact h.redraw_active
        · exact h.timer_run
        · exact h.alarm_pending_run
        · exact h.redraw_pending_run
        · intro _; simp at hlt; omega
        · exact fun x => h.redraw_list x
        · exact h.lines_fit
      · rw [hr]
        refine ⟨_, rfl, ?_⟩
        have := h.timer_run; have := h.alarm_pending_run; have := h.redraw_pending_run
        apply h.update <;> simp [State.reevaluateAlarm]
        · exact h.redraw_active
        · exact h.timer_run
        · rintro (x | x)
          · exact h.alarm_pending_run x
          · simp [State.alarmWanted] at x
            rcases hact with y | y
            · exact y
            · have := h.cancelled_iff.mpr (.inl y); simp [this] at x
        · exact h.redraw_pending_run
        · exact fun x => h.redraw_list x
        · exact h.lines_fit
    · exact ⟨s, rfl, h⟩

/-- DISPLAY takes a step, and it keeps the invariant. -/
theorem execLredraw_keeps_inv {s : State} (h : s.Inv) : ∃ t, execLredraw s = .next t ∧ t.Inv := by
  unfold execLredraw
  split
  · next he =>
    simp [State.redrawMayStart] at he
    refine ⟨_, rfl, ?_⟩
    have := h.legal.line_fits
    have d1 := dec_length s.t
    have d2 := dec_length s.h
    apply h.update <;> simp [he, State.active]
    · exact h.alarm_index
    · simp [redrawList, expand, expandOp, lstrPrims]
    · simp [composeLine1, composeLine2, temperatureLabel, humidityLabel]; omega
  · split
    · next hns he =>
      simp [State.itemMayGoOn] at he
      have hact : s.active := h.redraw_active he.1
      have hm := h.wordsMapped hact
      obtain ⟨hl, hlt⟩ := h.redraw_list he.1
      unfold redrawMicroStep
      have e : s.lcdSeq[s.lcdPc]? = some s.lcdSeq[s.lcdPc] := List.getElem?_eq_getElem hlt
      simp only [State.withAgent_lcdSeq, State.withAgent_lcdPc, e]
      have hr : (s.lcdSeq[s.lcdPc]).Ready s.cfg s.mapped := by
        apply expand_ready h.legal hm (redrawList s.cfg s.line1 s.line2)
        rw [← hl]; exact List.getElem_mem hlt
      rw [runPrim_ready (s := s.withAgent .display) h.legal hr]
      refine ⟨_, rfl, ?_⟩
      have hll := latchAfter_length (c := s.cfg) [s.lcdSeq[s.lcdPc]] h.latches
      apply h.update <;> simp [State.afterPrims, State.advanceLcd]
      · rw [hll]; exact h.latches.symm
      · exact h.alarm_active
      · intro _; exact hact
      · exact h.timer_run
      · exact h.alarm_pending_run
      · exact h.redraw_pending_run
      · exact h.alarm_index
      · exact fun x => ⟨hl, x⟩
      · exact h.lines_fit
    · exact ⟨s, rfl, h⟩

/-- TEARDOWN takes a step, and it keeps the invariant. -/
theorem execUnmapall_keeps_inv {s : State} (h : s.Inv) : ∃ t, execUnmapall s = .next t ∧ t.Inv := by
  unfold execUnmapall
  split
  · next he =>
    simp [State.teardownEnabled] at he
    rw [unmapWords_reverse (attachWords s.cfg) (s.withAgent .teardown) (h.mapped_active (.inr he.1.1)) (rising_attachWords _).nodup, andThen_next]
    refine ⟨_, rfl, ?_⟩
    have hc := h.cancelled_iff.mpr (.inl he.1.1)
    have t1 := h.timer_run; have t2 := h.alarm_pending_run; have t3 := h.redraw_pending_run
    simp [he.1.1] at t1 t2 t3
    constructor <;> simp [he, State.active]
    · exact h.legal
    · exact h.memory
    · exact h.latches
    · exact t1
    · exact t2
    · exact t3
    · exact hc
    · by_contra hi; have := h.init_reset (by simpa using hi); simp [he.1.1] at this
    · intro hi; have := h.init_reset hi; simp [he.1.1] at this
    · intro hi; have := h.init_reset hi; simp [he.1.1] at this
    · exact h.init_outputs
    · exact fun _ => h.outputs (.inr (.inl he.1.1))
    · exact h.lines_fit
  · exact ⟨s, rfl, h⟩

end Sys2Proof.Machine
end

