-- ==== Sys2Proof/Laws/Effects.lean ====
section
/-! SUPPORT. All that a step can do, said once: from a state with the invariant, the ways a turn can end. -/

namespace Sys2Proof.Machine

/-- INIT takes the entry at `init_pc`. -/
def State.initStep (s : State) : State := { s.withAgent .init with initPc := s.initPc + 1 }

/-- The one write of a tick as a primitive (42_blink.md R183). -/
def tickPrim (s : State) : Prim :=
  if s.blinkOn then .clrp (ledWord s.cfg) (maskAll s.cfg) else .setp (ledWord s.cfg) (bandMask s.cfg (band s.t.toInt))

/-- What a turn leads to from a state with the invariant, the guards included (60_exceptions.md R345). -/
inductive Effect (s : State) : Turn → State → Prop
  | reset : Effect s .reset s.hardwareReset
  | status (op : Byte) (operands : List Byte) (name : Byte) (st : Status) :
    Effect s (.command op operands) ((s.withAgent .host).endWith name st)
  | attach (op : Byte) (operands : List Byte) : s.phase = .reset → s.initRunning = false →
    Effect s (.command op operands) (s.withAgent .host).startAttach
  | temperature (op : Byte) (operands : List Byte) (v : Word) (name : Byte) (st : Status) : s.phase = .run →
    Effect s (.command op operands) (((s.withAgent .host).updateT v).endWith name st)
  | humidity (op : Byte) (operands : List Byte) (v : Word) (name : Byte) (st : Status) : s.phase = .run →
    Effect s (.command op operands) (((s.withAgent .host).updateH v).endWith name st)
  | detach : s.phase = .run → Effect s (.command 0x04 []) (s.withAgent .host).cancelSignal
  | pass (a : Agent) : Effect s (.run a) (s.withAgent a)
  | mapped (a : Word) : s.initRunning = true → s.phase = .reset → s.initSeq[s.initPc]? = some (.op (.map a)) →
    a ∈ attachWords s.cfg → (attachWords s.cfg)[s.initPc]? = some a →
    Effect s (.run .init) (State.emit (.map a true) { s.initStep with mapped := insertAddr a s.mapped })
  | mapError (a : Word) : s.initRunning = true → s.phase = .reset → s.initSeq[s.initPc]? = some (.op (.map a)) →
    a ∈ s.cfg.unmappable → a ∈ attachWords s.cfg →
    Effect s (.run .init) ((s.initStep.emit (.map a false)).abortAttach a)
  | configured (p : Nat) : s.initRunning = true → s.phase = .reset → p ∈ s.cfg.pins →
    (attachWords s.cfg).length ≤ s.initPc → s.cfg.pins[s.initPc - (attachWords s.cfg).length]? = some p →
    Effect s (.run .init) (s.initStep.afterCfgout p)
  | initPrim (p : Prim) : s.initRunning = true → s.phase = .reset → drivesDisplay s.cfg p → p.Ready s.cfg s.mapped →
    (attachWords s.cfg).length + 11 ≤ s.initPc → s.initSeq[s.initPc]? = some (.op p.toInstr) →
    Effect s (.run .init) (s.initStep.afterPrims [p])
  | finish : s.initRunning = true → s.phase = .reset → s.initSeq[s.initPc]? = some .finish →
    Effect s (.run .init) s.initStep.finishAttach
  | tick : s.timerArmed = true → s.phase = .run → (tickPrim s).Ready s.cfg s.mapped →
    Effect s (.run .blink) ((s.withAgent .blink).fireTimer.afterPrims [tickPrim s]).rearmTimer
  | pulseStart : s.alarmPending = true → s.alarmRunning = false → s.phase = .run →
    (setp1 s.cfg.pinAlarm).Ready s.cfg s.mapped →
    Effect s (.run .alarm) { (s.withAgent .alarm).startAlarm.afterPrims [setp1 s.cfg.pinAlarm] with alarmPc := 1 }
  | pulsePrim (p : Prim) : s.alarmRunning = true → s.active → 1 ≤ s.alarmPc → s.alarmPc < 4 →
    (alarmSeq s.cfg)[s.alarmPc]? = some (.prim p) → p.Ready s.cfg s.mapped →
    Effect s (.run .alarm) { (s.withAgent .alarm).afterPrims [p] with alarmPc := s.alarmPc + 1 }
  | pulseEnd : s.alarmRunning = true → s.active → s.alarmPc = 4 →
    Effect s (.run .alarm) { (s.withAgent .alarm).reevaluateAlarm with alarmPc := 5 }
  | redrawStart : s.redrawPending = true → s.redrawRunning = false → s.phase = .run →
    Effect s (.run .display) (s.withAgent .display).startRedraw
  | redrawPrim (p : Prim) : s.redrawRunning = true → s.active → s.lcdSeq[s.lcdPc]? = some p →
    drivesDisplay s.cfg p → p.Ready s.cfg s.mapped →
    Effect s (.run .display) ((s.withAgent .display).afterPrims [p]).advanceLcd
  | teardown : s.phase = .cancelled → s.alarmRunning = false → s.redrawRunning = false →
    Effect s (.run .teardown)
      { s with
        agent := .teardown
        mapped := []
        phase := .detached
        trace := s.trace ++ (attachWords s.cfg).reverse.map Event.unmap ++ [.status 0x04 (.ok none)] }

theorem tickPrim_ready {s : State} (h : s.cfg.Legal) (hm : s.wordsMapped) : (tickPrim s).Ready s.cfg s.mapped := by
  have hg : s.cfg.pinGreen ∈ s.cfg.pins := by simp [Config.pins]
  have hlt := h.pins_lt _ hg
  have hw := ledWord_toNat h
  unfold tickPrim
  split
  · simp only [Prim.Ready, hw]; exact ⟨scWord_lt hlt, hm _ (clrAddr_mem_attachWords hg)⟩
  · simp only [Prim.Ready, hw]; exact ⟨scWord_lt hlt, hm _ (setAddr_mem_attachWords hg)⟩

theorem blinkWrite_fireTimer (s : State) : blinkWrite s.fireTimer = runPrim (tickPrim s) s.fireTimer := by
  unfold blinkWrite tickPrim
  cases h : s.blinkOn <;> simp [h, runPrim]

theorem hostTurn_effect {s t : State} (op : Byte) (operands : List Byte)
    (ht : hostTurn op operands (s.withAgent .host) = .next t) : Effect s (.command op operands) t := by
  unfold hostTurn at ht
  split at ht
  · next i hi =>
    cases i <;> simp only [Instr.port] at ht <;> try (cases ht; exact .status _ _ _ _)
    · simp only [exec, execAttach] at ht
      split at ht
      · next he => cases ht; have he := (State.attachAccepted_iff _).mp he; exact .attach _ _ he.1 he.2
      · cases ht; exact .status _ _ _ _
    · simp only [exec, execSett] at ht
      split at ht
      · next he => have he := (State.commandAccepted_iff _).mp he; cases ht; exact .temperature _ _ _ _ _ he
      · cases ht; exact .status _ _ _ _
    · simp only [exec, execSeth] at ht
      split at ht
      · next he => have he := (State.commandAccepted_iff _).mp he; cases ht; exact .humidity _ _ _ _ _ he
      · cases ht; exact .status _ _ _ _
    · simp only [exec, execDetach] at ht
      split at ht
      · next he =>
        have he := (State.commandAccepted_iff _).mp he
        obtain ⟨rfl, rfl⟩ := detach_word hi
        cases ht; exact .detach he
      · cases ht; exact .status _ _ _ _
    · simp only [exec, execSettx] at ht
      split at ht
      · next he =>
        have he := (State.commandAccepted_iff _).mp he
        split at ht
        · cases ht; exact .temperature _ _ _ _ _ he
        · cases ht; exact .status _ _ _ _
      · cases ht; exact .status _ _ _ _
    · simp only [exec, execSethx] at ht
      split at ht
      · next he =>
        have he := (State.commandAccepted_iff _).mp he
        split at ht
        · cases ht; exact .humidity _ _ _ _ _ he
        · cases ht; exact .status _ _ _ _
      · cases ht; exact .status _ _ _ _
  · cases ht; exact .status _ _ _ _

theorem initTurn_effect {s t : State} (h : s.Inv) (ht : initTurn (s.withAgent .init) = .next t) :
    Effect s (.run .init) t := by
  unfold initTurn at ht
  split at ht
  · next hi =>
    simp only [State.withAgent_initRunning, State.withAgent_initSeq, State.withAgent_initPc] at hi ht
    have hp := h.init_reset hi
    obtain ⟨hseq, hlt⟩ := h.init_list hi
    have hmap := h.init_mapped hi
    rcases attachList_at s.cfg s.initPc hlt with ⟨a, ha, he⟩ | ⟨p, hW, hpin, he⟩ | ⟨p, hW, hlt2, hpm, he⟩ | ⟨hW, hend, he⟩
    · rw [← hseq] at he
      rw [he] at ht
      have hmem : a ∈ attachWords s.cfg := List.mem_of_getElem? ha
      have hal := attachWords_aligned h.legal hmem
      obtain ⟨hab, -⟩ := rising_take (rising_attachWords s.cfg) ha
      simp only [exec, execMap, mapWord] at ht
      rw [if_neg (by omega), if_neg (by
        show ¬a ∈ s.mapped; rw [hmap]; intro hx; exact lt_irrefl _ (hab a hx))] at ht
      split at ht
      · next hu =>
        rw [State.raiseMapError] at ht
        simp only [State.emit_initRunning, hi, if_true] at ht
        cases ht
        exact .mapError a hi hp he hu hmem
      · cases ht
        exact .mapped a hi hp he hmem ha
    · rw [← hseq] at he
      rw [he] at ht
      have hpm := List.mem_of_getElem? hpin
      have hmapped : s.mapped = attachWords s.cfg := by rw [hmap, List.take_of_length_le hW]
      have e := execCfgout_mapped (s := s.initStep) h.legal (h.legal.pins_lt p hpm) (by
        show _ ∈ s.mapped; rw [hmapped]; exact fselAddr_mem_attachWords hpm)
      simp only [exec] at ht
      have : execCfgout (BitVec.ofNat 8 p) s.initStep = .next t := ht
      rw [e] at this
      cases this
      exact .configured p hi hp hpm hW hpin
    · rw [← hseq] at he
      rw [he] at ht
      have hmapped : s.mapped = attachWords s.cfg := by rw [hmap, List.take_of_length_le (by omega)]
      have hr := expand_ready h.legal (mapped := s.mapped) (by intro a ha; rw [hmapped]; exact ha) _ p hpm
      simp only [exec_prim] at ht
      have : runPrim p s.initStep = .next t := ht
      rw [runPrim_ready (s := s.initStep) h.legal hr] at this
      cases this
      exact .initPrim p hi hp (expand_drivesDisplay _ _ p hpm) hr hW he
    · rw [← hseq] at he
      rw [he] at ht
      cases ht
      exact .finish hi hp he
  · cases ht; exact .pass _

theorem btick_effect {s t : State} (h : s.Inv) (ht : execBtick (s.withAgent .blink) = .next t) :
    Effect s (.run .blink) t := by
  unfold execBtick at ht
  split at ht
  · next he =>
    have he := (State.blinkEnabled_iff _).mp he
    have hm := h.wordsMapped (.inl he.2)
    have hr := tickPrim_ready h.legal hm
    rw [blinkWrite_fireTimer] at ht
    rw [runPrim_ready (s := (s.withAgent .blink).fireTimer) h.legal (p := tickPrim (s.withAgent .blink)) hr, andThen_next] at ht
    cases ht
    exact .tick he.1 he.2 hr
  · cases ht; exact .pass _

theorem apulse_effect {s t : State} (h : s.Inv) (ht : execApulse (s.withAgent .alarm) = .next t) :
    Effect s (.run .alarm) t := by
  unfold execApulse at ht
  split at ht
  · next he =>
    have he := (State.alarmMayStart_iff _).mp he
    have hm := h.wordsMapped (.inl he.2.2)
    have hr := setp1_ready h.legal (p := s.cfg.pinAlarm) (by simp [Config.pins]) hm
    rcases alarmMicroStep_cases (s := (s.withAgent .alarm).startAlarm) h.legal hm (by simp) with ⟨p, -, hp, e⟩ | ⟨h4, -⟩
    · have ep : p = setp1 s.cfg.pinAlarm := by
        have : (some (.prim (setp1 s.cfg.pinAlarm)) : Option AlarmOp) = some (.prim p) := hp
        cases this; rfl
      subst ep
      have : alarmMicroStep (s.withAgent .alarm).startAlarm = .next t := ht
      rw [e] at this
      cases this
      exact .pulseStart he.1 he.2.1 he.2.2 hr
    · simp at h4
  · split at ht
    · next hns he =>
      simp [State.itemMayGoOn] at he
      have hact : s.active := h.alarm_active he.1
      have hm := h.wordsMapped hact
      obtain ⟨h1, h4⟩ := h.alarm_index he.1
      rcases alarmMicroStep_cases (s := s.withAgent .alarm) h.legal hm (by simpa using h4) with ⟨p, hlt, hp, hr⟩ | ⟨h4, hr⟩
      · have : alarmMicroStep (s.withAgent .alarm) = .next t := ht
        rw [hr] at this
        cases this
        exact .pulsePrim p he.1 hact h1 hlt hp (alarmPrim_ready h.legal hm hp)
      · have : alarmMicroStep (s.withAgent .alarm) = .next t := ht
        rw [hr] at this
        simp only [State.withAgent_alarmPc] at h4 this
        rw [h4] at this
        cases this
        exact .pulseEnd he.1 hact h4
    · cases ht; exact .pass _

theorem lredraw_effect {s t : State} (h : s.Inv) (ht : execLredraw (s.withAgent .display) = .next t) :
    Effect s (.run .display) t := by
  unfold execLredraw at ht
  split at ht
  · next he =>
    have he := (State.redrawMayStart_iff _).mp he
    cases ht
    exact .redrawStart he.1 he.2.1 he.2.2
  · split at ht
    · next hns he =>
      simp [State.itemMayGoOn] at he
      have hact : s.active := h.redraw_active he.1
      have hm := h.wordsMapped hact
      obtain ⟨hl, hlt⟩ := h.redraw_list he.1
      have e : s.lcdSeq[s.lcdPc]? = some s.lcdSeq[s.lcdPc] := List.getElem?_eq_getElem hlt
      have hmem : s.lcdSeq[s.lcdPc] ∈ expand s.cfg (redrawList s.cfg s.line1 s.line2) := by
        rw [← hl]; exact List.getElem_mem hlt
      have hr := expand_ready h.legal hm _ _ hmem
      have : redrawMicroStep (s.withAgent .display) = .next t := ht
      unfold redrawMicroStep at this
      simp only [State.withAgent_lcdSeq, State.withAgent_lcdPc, e] at this
      rw [runPrim_ready (s := s.withAgent .display) h.legal hr] at this
      cases this
      exact .redrawPrim _ he.1 hact e (expand_drivesDisplay _ _ _ hmem) hr
    · cases ht; exact .pass _

theorem unmapall_effect {s t : State} (h : s.Inv) (ht : execUnmapall (s.withAgent .teardown) = .next t) :
    Effect s (.run .teardown) t := by
  unfold execUnmapall at ht
  split at ht
  · next he =>
    have he := (State.teardownEnabled_iff _).mp he
    have e := unmapWords_reverse (attachWords s.cfg) ((s.withAgent .teardown).withAgent .teardown)
      (h.mapped_active (.inr he.1)) (rising_attachWords _).nodup
    simp only [State.withAgent_cfg] at ht
    rw [e, andThen_next] at ht
    cases ht
    exact .teardown he.1 he.2.1 he.2.2
  · cases ht; exact .pass _

/-- Every turn from a state with the invariant ends in one of these ways. -/
theorem takeTurn_effect {s t : State} (h : s.Inv) {turn : Turn} (ht : takeTurn turn s = .next t) : Effect s turn t := by
  cases turn with
  | command op operands => exact hostTurn_effect op operands ht
  | run a =>
    cases a with
    | host => cases ht; exact .pass _
    | init => exact initTurn_effect h ht
    | blink => exact btick_effect h ht
    | alarm => exact apulse_effect h ht
    | display => exact lredraw_effect h ht
    | teardown => exact unmapall_effect h ht
  | reset => cases ht; exact .reset

/-- All that a step can do from a state with the invariant. -/
theorem step_effect {s t : State} (h : s.Inv) (ht : step s = .next t) : Effect s.popTurn s.nextTurn t :=
  takeTurn_effect h.popTurn ht

end Sys2Proof.Machine
end

