-- ==== Sys2Proof/Laws/Frame.lean ====
section
/-! SUPPORT. What no operation changes, whatever state it starts in: the parameters, the schedule, the trace so far; and
the register words, where the operation is none of the three that store to them. -/

namespace Sys2Proof.Machine

/-- The parameters and the schedule stay, and the trace only grows (10_state.md R38, R39). -/
structure Grows (s t : State) : Prop where
  cfg : t.cfg = s.cfg
  schedule : t.schedule = s.schedule
  trace : ∃ ev, t.trace = s.trace ++ ev

theorem Grows.rfl {s : State} : Grows s s := ⟨Eq.refl _, Eq.refl _, [], by simp⟩

theorem Grows.trans {s t u : State} (h : Grows s t) (g : Grows t u) : Grows s u := by
  obtain ⟨e, he⟩ := h.trace
  obtain ⟨f, hf⟩ := g.trace
  exact ⟨g.cfg.trans h.cfg, g.schedule.trans h.schedule, e ++ f, by rw [hf, he, List.append_assoc]⟩

/-- An outcome that, where it is a next state, has only grown, and left the register words as they were. -/
def Quiet (s : State) (o : Host.Outcome State Fault Refusal) : Prop :=
  ∀ t, o = .next t → Grows s t ∧ (s.cfg.Legal → t.mem = s.mem)

theorem Quiet.next {s t : State} (h : Grows s t) (hm : t.mem = s.mem) : Quiet s (.next t) := by
  intro u hu; cases hu; exact ⟨h, fun _ => hm⟩

theorem Quiet.fault {s : State} (r : Fault) : Quiet s (.fault r) := by intro u hu; cases hu

theorem Quiet.andThen {s : State} {o : Host.Outcome State Fault Refusal} {f : State → Host.Outcome State Fault Refusal}
    (h : Quiet s o) (g : ∀ t, Grows s t → Quiet t (f t)) : Quiet s (andThen o f) := by
  intro u hu
  obtain ⟨t, ht, hf⟩ := andThen_eq_next.mp hu
  obtain ⟨h1, h2⟩ := h t ht
  obtain ⟨g1, g2⟩ := g t h1 u hf
  exact ⟨h1.trans g1, fun hL => (g2 (h1.cfg ▸ hL)).trans (h2 hL)⟩

/-- What is quiet from a state that only grew out of `s` is quiet from `s`. -/
theorem Quiet.of_grows {s u : State} {o : Host.Outcome State Fault Refusal} (hu : Grows s u) (hm : u.mem = s.mem)
    (h : Quiet u o) : Quiet s o := by
  intro t ht
  obtain ⟨h1, h2⟩ := h t ht
  exact ⟨hu.trans h1, fun hL => by rw [h2 (by rw [hu.cfg]; exact hL), hm]⟩

theorem grows_memWrite (s : State) (a v : Word) : Grows s (s.memWrite a v) := ⟨by simp, by simp, _, State.memWrite_trace ..⟩

theorem grows_memRead (s : State) (a : Word) : Grows s (s.memRead a) := ⟨by simp, by simp, _, State.memRead_trace ..⟩

theorem quiet_setPins (w : Byte) (mask : Word) (s : State) : Quiet s (setPins w mask s) := by
  unfold setPins writeReg
  split
  · next hw =>
    split
    · intro t ht; cases ht
      exact ⟨grows_memWrite .., fun hL => by rw [memWrite_setAddr hL hw]⟩
    · exact .fault _
  · exact .fault _

theorem quiet_clearPins (w : Byte) (mask : Word) (s : State) : Quiet s (clearPins w mask s) := by
  unfold clearPins writeReg
  split
  · next hw =>
    split
    · intro t ht; cases ht
      exact ⟨grows_memWrite .., fun hL => by rw [memWrite_clrAddr hL hw]⟩
    · exact .fault _
  · exact .fault _

theorem quiet_runPrim (p : Prim) (s : State) : Quiet s (runPrim p s) := by
  cases p with
  | setp w mask => exact quiet_setPins w mask s
  | clrp w mask => exact quiet_clearPins w mask s
  | wait ns => exact .next ⟨rfl, rfl, _, rfl⟩ rfl

theorem quiet_runPrims (ps : List Prim) (s : State) : Quiet s (runPrims ps s) := by
  induction ps generalizing s with
  | nil => exact .next .rfl rfl
  | cons p ps ih => exact (quiet_runPrim p s).andThen fun t _ => ih t

theorem quiet_unmapWords (l : List Word) (s : State) : Quiet s (unmapWords l s) := by
  induction l generalizing s with
  | nil => exact .next .rfl rfl
  | cons a l ih =>
    refine Quiet.andThen ?_ fun t _ => ih t
    unfold unmapWord
    split
    · exact .next ⟨rfl, rfl, _, rfl⟩ rfl
    · exact .fault _

theorem quiet_endWith (s : State) (op : Byte) (st : Status) : Quiet s (.next (s.endWith op st)) :=
  .next ⟨rfl, rfl, _, rfl⟩ rfl

theorem quiet_updateT (s : State) (v : Word) (op : Byte) (st : Status) : Quiet s (.next ((s.updateT v).endWith op st)) :=
  .next ⟨by simp [State.updateT], by simp [State.updateT], [.status op st], by simp [State.updateT]⟩ (by simp [State.updateT])

theorem quiet_updateH (s : State) (v : Word) (op : Byte) (st : Status) : Quiet s (.next ((s.updateH v).endWith op st)) :=
  .next ⟨by simp [State.updateH], by simp [State.updateH], [.status op st], by simp [State.updateH]⟩ (by simp [State.updateH])

theorem quiet_alarmMicroStep (s : State) : Quiet s (alarmMicroStep s) := by
  unfold alarmMicroStep
  split
  · exact (quiet_runPrim _ s).andThen fun t _ => .next ⟨rfl, rfl, [], by simp⟩ rfl
  · exact .next ⟨by simp [State.reevaluateAlarm], by simp [State.reevaluateAlarm], [], by simp [State.reevaluateAlarm]⟩
      (by simp [State.reevaluateAlarm])
  · exact .next .rfl rfl

theorem quiet_redrawMicroStep (s : State) : Quiet s (redrawMicroStep s) := by
  unfold redrawMicroStep
  split
  · exact (quiet_runPrim _ s).andThen fun t _ => .next ⟨rfl, rfl, [], by simp⟩ rfl
  · exact .next .rfl rfl

theorem quiet_blinkWrite (s : State) : Quiet s (blinkWrite s) := by
  unfold blinkWrite
  split
  · exact quiet_setPins _ _ s
  · exact quiet_clearPins _ _ s

theorem grows_raiseMapError (s : State) (a : Word) : Grows s (s.raiseMapError a) ∧ (s.raiseMapError a).mem = s.mem := by
  simp only [State.raiseMapError]
  split
  · exact ⟨⟨rfl, rfl, [.map a false] ++ s.mapped.reverse.map Event.unmap ++ [.status Instr.attach.opcode (.mapError a)],
      by simp⟩, rfl⟩
  · exact ⟨⟨rfl, rfl, _, rfl⟩, rfl⟩

end Sys2Proof.Machine
end

