-- ==== Sys2Proof/Laws/PerInstr.lean ====
section
/-! SUPPORT. One lemma for each constructor of Instr: how long its operation word is, and the byte it begins with
(30_encoding.md R120, R126). -/

namespace Sys2Proof.Laws.WordLength

/-- The length of an operation word in bytes (30_encoding.md R126). -/
def bytes : Instr → Nat
  | .attach => 1
  | .sett _ => 5
  | .seth _ => 5
  | .detach => 1
  | .cancel => 1
  | .settx text => 2 + text.length
  | .sethx text => 2 + text.length
  | .unmapall => 1
  | .map _ => 5
  | .unmap _ => 5
  | .rdw _ => 5
  | .wrw _ _ => 9
  | .rmw _ _ _ => 13
  | .cfgout _ => 2
  | .setp _ _ => 6
  | .clrp _ _ => 6
  | .btick => 1
  | .aeval => 1
  | .apulse => 1
  | .lnib _ _ => 2
  | .lins _ => 2
  | .lchr _ => 2
  | .lstr text => 2 + text.length
  | .linit => 1
  | .lsched => 1
  | .lredraw => 1
  | .wait _ => 5

/-- The word begins with the opcode, has the length of its format, and is no longer than 257 bytes where the instruction
is well formed (30_encoding.md R120, R125, R126). -/
def Statement (i : Instr) : Prop :=
  (encode i).head? = some i.opcode ∧ (encode i).length = bytes i ∧ (i.wellFormed = true → bytes i ≤ 257)

/-- A text that fits leaves the word at most 257 bytes long. -/
theorem text_le {text : List Byte} (h : textFits text = true) : 2 + text.length ≤ 257 := by
  simp [textFits] at h
  omega

theorem attach : Statement .attach := ⟨rfl, rfl, fun _ => by decide⟩
theorem sett (v : Word) : Statement (.sett v) := ⟨rfl, rfl, fun _ => by simp [bytes]⟩
theorem seth (v : Word) : Statement (.seth v) := ⟨rfl, rfl, fun _ => by simp [bytes]⟩
theorem detach : Statement .detach := ⟨rfl, rfl, fun _ => by decide⟩
theorem cancel : Statement .cancel := ⟨rfl, rfl, fun _ => by decide⟩
theorem settx (text : List Byte) : Statement (.settx text) := by
  refine ⟨rfl, ?_, text_le⟩
  simp [encode, Instr.operandBytes, textBytes, bytes]; omega
theorem sethx (text : List Byte) : Statement (.sethx text) := by
  refine ⟨rfl, ?_, text_le⟩
  simp [encode, Instr.operandBytes, textBytes, bytes]; omega
theorem unmapall : Statement .unmapall := ⟨rfl, rfl, fun _ => by decide⟩
theorem map (addr : Word) : Statement (.map addr) := ⟨rfl, rfl, fun _ => by simp [bytes]⟩
theorem unmap (addr : Word) : Statement (.unmap addr) := ⟨rfl, rfl, fun _ => by simp [bytes]⟩
theorem rdw (addr : Word) : Statement (.rdw addr) := ⟨rfl, rfl, fun _ => by simp [bytes]⟩
theorem wrw (addr value : Word) : Statement (.wrw addr value) := ⟨rfl, rfl, fun _ => by simp [bytes]⟩
theorem rmw (addr clr set : Word) : Statement (.rmw addr clr set) := ⟨rfl, rfl, fun _ => by simp [bytes]⟩
theorem cfgout (pin : Byte) : Statement (.cfgout pin) := ⟨rfl, rfl, fun _ => by simp [bytes]⟩
theorem setp (w : Byte) (mask : Word) : Statement (.setp w mask) := ⟨rfl, rfl, fun _ => by simp [bytes]⟩
theorem clrp (w : Byte) (mask : Word) : Statement (.clrp w mask) := ⟨rfl, rfl, fun _ => by simp [bytes]⟩
theorem btick : Statement .btick := ⟨rfl, rfl, fun _ => by decide⟩
theorem aeval : Statement .aeval := ⟨rfl, rfl, fun _ => by decide⟩
theorem apulse : Statement .apulse := ⟨rfl, rfl, fun _ => by decide⟩
theorem lnib (m : Bool) (n : Nibble) : Statement (.lnib m n) := ⟨rfl, rfl, fun _ => by simp [bytes]⟩
theorem lins (b : Byte) : Statement (.lins b) := ⟨rfl, rfl, fun _ => by simp [bytes]⟩
theorem lchr (b : Byte) : Statement (.lchr b) := ⟨rfl, rfl, fun _ => by simp [bytes]⟩
theorem lstr (text : List Byte) : Statement (.lstr text) := by
  refine ⟨rfl, ?_, text_le⟩
  simp [encode, Instr.operandBytes, textBytes, bytes]; omega
theorem linit : Statement .linit := ⟨rfl, rfl, fun _ => by decide⟩
theorem lsched : Statement .lsched := ⟨rfl, rfl, fun _ => by decide⟩
theorem lredraw : Statement .lredraw := ⟨rfl, rfl, fun _ => by decide⟩
theorem wait (ns : Word) : Statement (.wait ns) := ⟨rfl, rfl, fun _ => by simp [bytes]⟩

end Sys2Proof.Laws.WordLength
end

