-- ==== Sys2Proof/Laws/Runs.lean ====
section
/-! SUPPORT. The sequencers over several turns: the parts of an attach, and a redraw to its end. -/

namespace Sys2Proof.Machine

/-- One run after another that ended in a next state. -/
theorem run_trans {m n : Nat} {s t : State} {o : Host.Outcome State Fault Refusal} (h : run m s = .next t)
    (g : run n t = o) : run (m + n) s = o := by rw [run_add, h, andThen_next, g]

/-- A turn of INIT runs the entry at `init_pc`. -/
theorem step_of_init {s : State} {rest : List Turn} {i : Instr} (hs : s.schedule = .run .init :: rest)
    (hi : s.initRunning = true) (he : s.initSeq[s.initPc]? = some (.op i)) :
    step s = exec i { s with schedule := rest, agent := .init, initPc := s.initPc + 1 } := by
  rw [step_of_schedule hs]
  simp [takeTurn, agentTurn, initTurn, hi, he, State.withAgent]

/-- `k` turns of INIT, then the rest. -/
abbrev initTurns (k : Nat) (rest : List Turn) : List Turn := List.replicate k (Turn.run .init) ++ rest

/-- The MAP entries of an attach list, one turn each. -/
theorem run_maps (ws : List Word) : ∀ (s : State) (pre : List Word) (post : List InitOp) (rest : List Turn),
    s.agent = .init → s.initRunning = true →
    s.initSeq = pre.map (fun a => InitOp.op (.map a)) ++ ws.map (fun a => InitOp.op (.map a)) ++ post →
    s.initPc = pre.length → s.mapped = pre → Rising (pre ++ ws) → (∀ a ∈ ws, a.toNat % 4 = 0) →
    (∀ a ∈ ws, a ∉ s.cfg.unmappable) → s.schedule = initTurns ws.length rest →
    run ws.length s = .next
      { s with
        schedule := rest
        initPc := (pre ++ ws).length
        mapped := pre ++ ws
        trace := s.trace ++ ws.map (fun a => Event.map a true) } := by
  induction ws with
  | nil =>
    intro s pre post rest ha hi hseq hpc hm hr hal hum hs
    simp only [List.length_nil, run_zero, List.append_nil, List.map_nil]
    cases s; simp at *; simp [hs, hpc, hm]
  | cons a ws ih =>
    intro s pre post rest ha hi hseq hpc hm hr hal hum hs
    have hs' : s.schedule = .run .init :: initTurns ws.length rest := hs
    have he : s.initSeq[s.initPc]? = some (.op (.map a)) := by
      rw [hseq, hpc]; simp
    have hab : ∀ b ∈ pre, b.toNat < a.toNat := by
      intro b hb; exact (List.pairwise_append.mp hr).2.2 b hb a (by simp)
    have st := step_of_init hs' hi he
    simp only [exec, execMap, mapWord] at st
    have hna : a ∉ s.mapped := by rw [hm]; intro hx; exact lt_irrefl _ (hab a hx)
    rw [if_neg (by have := hal a (by simp); omega), if_neg hna, if_neg (hum a (by simp))] at st
    rw [List.length_cons, run_succ st]
    have := ih
      (State.emit (Event.map a true)
        { s with
          schedule := initTurns ws.length rest
          agent := .init
          initPc := s.initPc + 1
          mapped := insertAddr a s.mapped })
      (pre ++ [a]) post rest rfl hi (by rw [State.emit_initSeq]; simp [hseq]) (by simp [hpc])
      (by show insertAddr a s.mapped = _; rw [hm, insertAddr_above hab]) (by simpa using hr)
      (fun b hb => hal b (by simp [hb])) (fun b hb => hum b (by simp [hb])) rfl
    refine this.trans ?_
    simp [State.emit, ha]

/-- What configuring some pins leaves. -/
def afterCfgouts (ps : List Nat) (s : State) : State := ps.foldl (fun s p => s.afterCfgout p) s

/-- The CFGOUT entries of an attach list, one turn each. -/
theorem run_cfgouts (ps : List Nat) : ∀ (s : State) (pre post : List InitOp) (rest : List Turn),
    s.agent = .init → s.initRunning = true →
    s.initSeq = pre ++ ps.map (fun p => InitOp.op (.cfgout (BitVec.ofNat 8 p))) ++ post → s.initPc = pre.length →
    s.cfg.Legal → (∀ p ∈ ps, p < s.cfg.nPins ∧ fselAddr s.cfg (fselWord p) ∈ s.mapped) →
    s.schedule = initTurns ps.length rest →
    run ps.length s = .next (afterCfgouts ps { s with schedule := rest, initPc := s.initPc + ps.length }) := by
  induction ps with
  | nil =>
    intro s pre post rest ha hi hseq hpc hL hp hs
    simp only [List.length_nil, run_zero, afterCfgouts, List.foldl_nil]
    cases s; simp at *; simp [hs]
  | cons p ps ih =>
    intro s pre post rest ha hi hseq hpc hL hp hs
    have hs' : s.schedule = .run .init :: initTurns ps.length rest := hs
    have he : s.initSeq[s.initPc]? = some (.op (.cfgout (BitVec.ofNat 8 p))) := by
      rw [hseq, hpc]; simp
    have st := step_of_init hs' hi he
    obtain ⟨h1, h2⟩ := hp p (by simp)
    simp only [exec] at st
    rw [execCfgout_mapped
      (s := { s with schedule := initTurns ps.length rest, agent := .init, initPc := s.initPc + 1 }) hL h1 h2] at st
    rw [List.length_cons, run_succ st]
    have := ih
      (State.afterCfgout p { s with schedule := initTurns ps.length rest, agent := .init, initPc := s.initPc + 1 })
      (pre ++ [.op (.cfgout (BitVec.ofNat 8 p))]) post rest rfl hi (by simp [State.afterCfgout, hseq])
      (by simp [State.afterCfgout, hpc]) hL (fun q hq => hp q (by simp [hq])) rfl
    refine this.trans ?_
    simp only [afterCfgouts, List.foldl_cons]
    congr 2
    simp [State.afterCfgout, ha, State.fsel]; omega

/-- The primitives of an attach list, one turn each. -/
theorem run_initPrims (ps : List Prim) : ∀ (s : State) (pre post : List InitOp) (rest : List Turn),
    s.agent = .init → s.initRunning = true →
    s.initSeq = pre ++ ps.map (fun p => InitOp.op p.toInstr) ++ post → s.initPc = pre.length → s.cfg.Legal →
    (∀ p ∈ ps, p.Ready s.cfg s.mapped) →
    s.schedule = initTurns ps.length rest →
    run ps.length s = .next { s.afterPrims ps with schedule := rest, initPc := s.initPc + ps.length } := by
  induction ps with
  | nil =>
    intro s pre post rest ha hi hseq hpc hL hp hs
    simp only [List.length_nil, run_zero, State.afterPrims_nil]
    cases s; simp at *; simp [hs]
  | cons p ps ih =>
    intro s pre post rest ha hi hseq hpc hL hp hs
    have hs' : s.schedule = .run .init :: initTurns ps.length rest := hs
    have he : s.initSeq[s.initPc]? = some (.op p.toInstr) := by
      rw [hseq, hpc]; simp
    have st := step_of_init hs' hi he
    rw [exec_prim, runPrim_ready
      (s := { s with schedule := initTurns ps.length rest, agent := .init, initPc := s.initPc + 1 }) hL
      (hp p (by simp))] at st
    rw [List.length_cons, run_succ st]
    have := ih
      (State.afterPrims [p] { s with schedule := initTurns ps.length rest, agent := .init, initPc := s.initPc + 1 })
      (pre ++ [.op p.toInstr]) post rest rfl hi (by simp [State.afterPrims, hseq]) (by simp [State.afterPrims, hpc]) hL
      (fun q hq => hp q (by simp [hq])) rfl
    refine this.trans ?_
    simp [State.afterPrims, ha, latchAfter]; omega

/-- A list of mappings sends the display nothing. -/
theorem nibblesFrom_maps (c : Config) (held : Option Nat) (ws : List Word) (f : List Event) (l : List Bool) :
    nibblesFrom c held (ws.map (fun a => Event.map a true) ++ f) l = nibblesFrom c held f l := by
  induction ws with
  | nil => rfl
  | cons a ws ih => exact ih

/-- What is held of a launch stays held while E stays as it is. -/
theorem stillHeld_stillHeld (c : Config) (held : Option Nat) (l : List Bool) :
    stillHeld c (stillHeld c held l) l = stillHeld c held l := by
  unfold stillHeld; split <;> rfl

/-- Configuring pins changes those pins' fields and no other, and sends the display nothing. -/
theorem afterCfgouts_eq (ps : List Nat) : ∀ s : State, s.cfg.Legal → s.mem.wf → (∀ p ∈ ps, p < s.cfg.nPins) →
    ∃ ev : List Event, afterCfgouts ps s = { s with mem := (afterCfgouts ps s).mem, trace := s.trace ++ ev } ∧
    (afterCfgouts ps s).mem.wf ∧
    (∀ q, q < s.cfg.nPins → (afterCfgouts ps s).fselField q = if q ∈ ps then s.cfg.fselOutput else s.fselField q) ∧
    (∀ held l f, stillHeld s.cfg held l = held →
      nibblesFrom s.cfg held (ev ++ f) l = nibblesFrom s.cfg held f l) := by
  induction ps with
  | nil => intro s hL hw hp; exact ⟨[], by simp [afterCfgouts], hw, by simp [afterCfgouts], by simp⟩
  | cons p ps ih =>
    intro s hL hw hp
    obtain ⟨ev, h1, h2, h3, h4⟩ := ih (s.afterCfgout p) hL (wf_afterCfgout hw p) (fun q hq => hp q (by simp [hq]))
    have hpn := hp p (by simp)
    refine ⟨[.regRead s.agent (fselAddr s.cfg (fselWord p)) (s.fsel (fselWord p)),
      .regWrite s.agent (fselAddr s.cfg (fselWord p))
        (rmwWord (s.fsel (fselWord p)) (fselMask p) (fselOut s.cfg p))] ++ ev, ?_, h2, ?_, ?_⟩
    · show afterCfgouts ps (s.afterCfgout p) = { s with mem := (afterCfgouts ps (s.afterCfgout p)).mem, trace := _ }
      rw [h1]; simp [State.afterCfgout]
    · intro q hq
      have := h3 q hq
      show (afterCfgouts ps (s.afterCfgout p)).fselField q = _
      rw [this]
      by_cases hqp : q = p
      · subst hqp; simp [fselField_afterCfgout_same hw]; intro _; rfl
      · rw [fselField_afterCfgout_other hL hw hpn hq hqp]; simp [hqp]; rfl
    · intro held l f hh
      have := h4 held l f hh
      simp only [List.cons_append, List.nil_append, nibblesFrom, latchEffect_fselAddr hL (fselWord_lt hpn), latchedBy]
      rw [if_neg (by simp), List.nil_append, hh]
      exact this

/-- A running redraw that gets as many turns as primitives are left runs to its end. -/
theorem run_redraw (k : Nat) : ∀ (s : State) (rest : List Turn), s.cfg.Legal → s.wordsMapped → s.phase = .run →
    s.agent = .display → (∀ p ∈ s.lcdSeq, p.Ready s.cfg s.mapped) → s.redrawRunning = true →
    s.lcdPc + k = s.lcdSeq.length → 0 < k → s.schedule = List.replicate k (.run .display) ++ rest →
    run k s = .next
      { s.afterPrims (s.lcdSeq.drop s.lcdPc) with
        schedule := rest
        lcdPc := s.lcdSeq.length
        redrawRunning := false } := by
  induction k with
  | zero => intros; omega
  | succ k ih =>
    intro s rest hL hm hp hag hready hr hk _ hs
    rw [List.replicate_succ, List.cons_append] at hs
    have hlt : s.lcdPc < s.lcdSeq.length := by omega
    have e : s.lcdSeq[s.lcdPc]? = some s.lcdSeq[s.lcdPc] := List.getElem?_eq_getElem hlt
    have st : step s = .next
        { s.afterPrims [s.lcdSeq[s.lcdPc]] with
          schedule := List.replicate k (.run .display) ++ rest
          lcdPc := s.lcdPc + 1
          redrawRunning := decide (s.lcdPc + 1 < s.lcdSeq.length) } := by
      rw [step_of_schedule hs]
      show execLredraw _ = _
      unfold execLredraw
      rw [if_neg (by simp [State.redrawMayStart, hr]), if_pos (by simp [State.itemMayGoOn, hr, hp])]
      unfold redrawMicroStep
      simp only [State.withAgent_lcdSeq, State.withAgent_lcdPc, e]
      rw [runPrim_ready
        (s := (({ s with schedule := List.replicate k (.run .display) ++ rest } : State).withAgent .display).withAgent
          .display) hL (hready _ (List.getElem_mem hlt)), andThen_next]
      simp [State.afterPrims, State.advanceLcd, State.withAgent, hag]
    rw [run_succ st]
    have hd : s.lcdSeq.drop s.lcdPc = [s.lcdSeq[s.lcdPc]] ++ s.lcdSeq.drop (s.lcdPc + 1) := by
      rw [List.drop_eq_getElem_cons hlt]; rfl
    by_cases hk0 : k = 0
    · subst hk0
      have : s.lcdSeq.drop (s.lcdPc + 1) = [] := List.drop_eq_nil_of_le (by omega)
      rw [hd, this, List.append_nil]
      have : ¬ s.lcdPc + 1 < s.lcdSeq.length := by omega
      simp only [run_zero, List.replicate_zero, List.nil_append, this, decide_false]
      simp only [Host.Outcome.next.injEq]
      rw [show s.lcdPc + 1 = s.lcdSeq.length by omega]
    · have hlt2 : s.lcdPc + 1 < s.lcdSeq.length := by omega
      rw [hd, State.afterPrims_append]
      exact ih
        { s.afterPrims [s.lcdSeq[s.lcdPc]] with
          schedule := List.replicate k (.run .display) ++ rest
          lcdPc := s.lcdPc + 1
          redrawRunning := decide (s.lcdPc + 1 < s.lcdSeq.length) }
        rest hL hm hp hag hready (by simpa using hlt2) (by show s.lcdPc + 1 + k = s.lcdSeq.length; omega) (by omega) rfl

end Sys2Proof.Machine
end

