-- ==== Sys2Proof/Tests/Slice0.lean ====
section
/-! SUPPORT. The model's own tests: ill-formed terms, operation words written out from 30_encoding.md, one step of each
operation with the values of 95_test_vectors.md, and for every statement of Certificates/Slice0/Obligations.lean that has
hypotheses states and operands that meet them. -/

open Sys2Proof Sys2Proof.Machine

namespace Sys2Proof.Tests

/-! ## Helpers -/

/-- What a next state shows; nothing of a stop. -/
def after {α : Type} (o : Host.Outcome State Fault Refusal) (view : State → α) : Option α :=
  match o with
  | .next s => some (view s)
  | .fault _ => none
  | .refused _ => none

/-- The fault of an outcome. -/
def faultOf (o : Host.Outcome State Fault Refusal) : Option Fault :=
  match o with
  | .next _ => none
  | .fault f => some f
  | .refused _ => none

/-- What a decoder reads, if it reads anything. -/
def readOf {α : Type} (e : Except DecodeError α) : Option α :=
  match e with
  | .ok a => some a
  | .error _ => none

/-- Why a decoder rejects. -/
def errorOf {α : Type} (e : Except DecodeError α) : Option DecodeError :=
  match e with
  | .ok _ => none
  | .error e => some e

/-- The pins whose latch is high. -/
def high (s : State) : List Nat := (List.range 54).filter s.level

/-- A row of latches with the given pins high. -/
def latches (pins : List Nat) : List Bool := (List.range 54).map fun p => pins.contains p

/-- The register space in which exactly the eleven pins of section 0 are outputs: FSEL[0] = 0x09200000,
FSEL[1] = 0x01200001, FSEL[2] = 0x00209240. -/
def outputCells : Memory :=
  [(0x3F200002, 0x20), (0x3F200003, 0x09), (0x3F200004, 0x01), (0x3F200006, 0x20), (0x3F200007, 0x01),
    (0x3F200008, 0x40), (0x3F200009, 0x92), (0x3F20000A, 0x20)]

/-- The five AttachWords of section 0. -/
def words : List Word := [0x3F200000, 0x3F200004, 0x3F200008, 0x3F20001C, 0x3F200028]

/-- The block as an attach leaves it. -/
def running : State :=
  { State.reset with phase := .run, timerArmed := true, mapped := words, mem := outputCells }

/-- With every word of the three banks mapped, and four addresses outside them. -/
def wide : State :=
  { running with
    mapped := [0x00000000, 0x3F200000, 0x3F200004, 0x3F200008, 0x3F20000C, 0x3F200010, 0x3F200014, 0x3F200018,
      0x3F20001C, 0x3F200020, 0x3F200024, 0x3F200028, 0x3F20002C, 0xFFFFFFFC] }

/-- An accepted attach before its first entry. -/
def attaching : State := { State.reset with initRunning := true, initSeq := attachList Config.illustrative }

/-- A block whose environment refuses one address (00_scope.md R7). -/
def refusing (s : State) : State := { s with cfg := { s.cfg with unmappable := [0x3F20001C] } }

/-- A pulse at an index, E and the alarm pin low. -/
def pulsing (pc : Nat) : State := { running with t := 31, alarmRunning := true, alarmPc := pc }

/-- A redraw of the readings 23 and 45 at an index. -/
def redrawing (pc : Nat) : State :=
  { running with
    t := 23
    h := 45
    redrawRunning := true
    line1 := composeLine1 23
    line2 := composeLine2 45
    lcdSeq := expand Config.illustrative (redrawList Config.illustrative (composeLine1 23) (composeLine2 45))
    lcdPc := pc }

/-- The block after the cancel step. -/
def cancelledState : State := { running with phase := .cancelled, cancelled := true, timerArmed := false }

/-- A state with some turns to come. -/
def turns (ts : List Turn) (s : State) : State := { s with schedule := ts }

/-! ## Ill-formed terms (30_encoding.md R125) -/

theorem test_settx_255_bytes : (Instr.settx (List.replicate 255 0x31)).wellFormed = true := by decide +kernel
theorem test_settx_256_bytes : (Instr.settx (List.replicate 256 0x31)).wellFormed = false := by decide +kernel
theorem test_sethx_256_bytes : (Instr.sethx (List.replicate 256 0x31)).wellFormed = false := by decide +kernel
theorem test_lstr_256_bytes : (Instr.lstr (List.replicate 256 0x31)).wellFormed = false := by decide +kernel

/-! ## Operation words (95_test_vectors.md 2.11, 30_encoding.md R120 to R130) -/

theorem test_decode_format_z :
    readOf (decodeWhole 0x01 []) = some .attach ∧ readOf (decodeWhole 0x04 []) = some .detach ∧
    readOf (decodeWhole 0x05 []) = some .cancel ∧ readOf (decodeWhole 0x08 []) = some .unmapall ∧
    readOf (decodeWhole 0x30 []) = some .btick ∧ readOf (decodeWhole 0x38 []) = some .aeval ∧
    readOf (decodeWhole 0x39 []) = some .apulse ∧ readOf (decodeWhole 0x44 []) = some .linit ∧
    readOf (decodeWhole 0x45 []) = some .lsched ∧ readOf (decodeWhole 0x46 []) = some .lredraw := by decide

theorem test_decode_format_w :
    readOf (decodeWhole 0x02 [0xFF, 0xFF, 0xFF, 0xFB]) = some (.sett 0xFFFFFFFB) ∧
    readOf (decodeWhole 0x03 [0x00, 0x00, 0x00, 0x2D]) = some (.seth 45) ∧
    readOf (decodeWhole 0x10 [0x3F, 0x20, 0x00, 0x04]) = some (.map 0x3F200004) ∧
    readOf (decodeWhole 0x11 [0x3F, 0x20, 0x00, 0x04]) = some (.unmap 0x3F200004) ∧
    readOf (decodeWhole 0x12 [0x3F, 0x20, 0x00, 0x04]) = some (.rdw 0x3F200004) ∧
    readOf (decodeWhole 0x50 [0x02, 0xFA, 0xF0, 0x80]) = some (.wait 50000000) := by decide

theorem test_decode_formats_ww_www :
    readOf (decodeWhole 0x13 [0x3F, 0x20, 0x00, 0x1C, 0x00, 0x02, 0x00, 0x00]) = some (.wrw 0x3F20001C 0x00020000) ∧
    readOf (decodeWhole 0x14 [0x3F, 0x20, 0x00, 0x04, 0x00, 0xE0, 0x00, 0x00, 0x00, 0x20, 0x00, 0x00]) =
      some (.rmw 0x3F200004 0x00E00000 0x00200000) := by decide

theorem test_decode_formats_p_m :
    readOf (decodeWhole 0x20 [0x11]) = some (.cfgout 17) ∧
    readOf (decodeWhole 0x21 [0x00, 0x08, 0x42, 0x00, 0x00]) = some (.setp 0 0x08420000) ∧
    readOf (decodeWhole 0x22 [0x01, 0x08, 0x42, 0x00, 0x00]) = some (.clrp 1 0x08420000) := by decide

theorem test_decode_formats_n_b_t :
    readOf (decodeWhole 0x40 [0x02]) = some (.lnib false 2) ∧ readOf (decodeWhole 0x40 [0x1F]) = some (.lnib true 15) ∧
    readOf (decodeWhole 0x41 [0x28]) = some (.lins 0x28) ∧ readOf (decodeWhole 0x42 [0x54]) = some (.lchr 0x54) ∧
    readOf (decodeWhole 0x43 [0x02, 0x48, 0x69]) = some (.lstr [0x48, 0x69]) ∧
    readOf (decodeWhole 0x06 [0x03, 0x32, 0x33, 0x0A]) = some (.settx [0x32, 0x33, 0x0A]) ∧
    readOf (decodeWhole 0x07 [0x02, 0x34, 0x35]) = some (.sethx [0x34, 0x35]) ∧
    readOf (decodeWhole 0x06 [0x00]) = some (.settx []) := by decide

theorem test_decode_rejects :
    errorOf (decodeWhole 0x00 []) = some (.illegalOpcode 0x00) ∧
    errorOf (decodeWhole 0x09 []) = some (.illegalOpcode 0x09) ∧
    errorOf (decodeWhole 0xFF []) = some (.illegalOpcode 0xFF) ∧
    errorOf (decodeWhole 0x40 [0x22]) = some (.reservedBits 0x40) ∧
    errorOf (decodeWhole 0x02 [0x00, 0x00, 0x00]) = some (.tooShort 0x02) ∧
    errorOf (decodeWhole 0x06 [0x02, 0x31]) = some (.tooShort 0x06) ∧
    errorOf (decodeWhole 0x01 [0x00]) = some (.tooLong 0x01) ∧ errorOf (decode []) = some .noOpcode := by decide

theorem test_encode : encode (.sett 0xFFFFFFFB) = [0x02, 0xFF, 0xFF, 0xFF, 0xFB] ∧ encode (.lnib true 2) = [0x40, 0x12] ∧
    encode (.clrp 0 0x08420000) = [0x22, 0x00, 0x08, 0x42, 0x00, 0x00] := by decide

/-- The rows of spec/opcode_table.json read as it numbers their bits (log 25). -/
theorem test_table_words : decodeTableWord 8 0x01 = some .attach ∧ decodeTableWord 40 0x020000001F = some (.sett 31) ∧
    decodeTableWord 16 0x4012 = some (.lnib true 2) ∧ decodeTableWord 16 0x0600 = some (.settx []) ∧
    decodeTableWord 8 0x09 = none := by decide

theorem test_fetch_word_runs_it :
    after (step (State.reset.withFetchWord 8 0x30)) (fun t => (t.blinkOn, high t)) = some (true, [17, 22, 27]) ∧
    after (step (State.reset.withFetchWord 40 0x103F200004)) (·.trace) = some [.map 0x3F200004 true] ∧
    after (step (State.reset.withFetchWord 8 0x01)) (·.initRunning) = some true := by decide

/-! ## One step of each operation (95_test_vectors.md 2.1 to 2.10) -/

theorem test_map : after (exec (.map 0x3F200004) State.reset) (fun t => (t.mapped, t.trace)) =
    some ([0x3F200004], [.map 0x3F200004 true]) ∧ faultOf (exec (.map 0x3F200004) running) =
    some (.doubleMap 0x3F200004) := by decide

theorem test_map_error : after (exec (.map 0x3F200006) State.reset) (fun t => (t.mapped, t.trace)) =
    some ([], [.map 0x3F200006 false]) ∧ after (exec (.map 0x3F20001C) (refusing State.reset)) (fun t => (t.mapped, t.trace)) =
    some ([], [.map 0x3F20001C false]) := by decide

theorem test_unmap : after (exec (.unmap 0x3F200004) { State.reset with mapped := [0x3F200004, 0x3F20001C] })
    (fun t => (t.mapped, t.trace)) = some ([0x3F20001C], [.unmap 0x3F200004]) ∧
    faultOf (exec (.unmap 0x3F200004) State.reset) = some (.badUnmap 0x3F200004) := by decide

/-- FSEL[1] = 0x12345678 in the register space. -/
def fsel1 : State :=
  { running with
    agent := .init
    mem := [(0x3F200004, 0x78), (0x3F200005, 0x56), (0x3F200006, 0x34), (0x3F200007, 0x12)] }

theorem test_rdw : after (exec (.rdw 0x3F200004) fsel1) (·.trace) = some [.regRead .init 0x3F200004 0x12345678] ∧
    faultOf (exec (.rdw 0x3F20000C) fsel1) = some (.unmappedAccess 0x3F20000C) := by decide

theorem test_wrw_fsel : after (exec (.wrw 0x3F200004 0xFF3F00FF) fsel1) (fun t => (t.fsel 0, t.fsel 1, t.fsel 2, high t)) =
    some (0, 0xFF3F00FF, 0, []) := by decide

theorem test_wrw_set : after (exec (.wrw 0x3F20001C 0x00040000) running) (fun t => (high t, t.mem)) =
    some ([18], outputCells) := by decide

theorem test_rmw : after (exec (.rmw 0x3F200004 0x00E0000F 0x0020000F) fsel1) (fun t => (t.fsel 1, t.trace)) =
    some (0x1234567F, [.regRead .init 0x3F200004 0x12345678, .regWrite .init 0x3F200004 0x1234567F]) := by decide

theorem test_cfgout : after (exec (.cfgout 13) fsel1) (fun t => (t.fsel 1, t.pad 13, t.pad 17)) =
    some (0x12345278, .driven false, .driven false) ∧ faultOf (exec (.cfgout 54) fsel1) = some (.badPin 54) := by decide

theorem test_cfgout_last_field : after (exec (.cfgout 9) { running with mem := [(0x3F200003, 0xC0)] }) (·.fsel 0) =
    some 0xC8000000 ∧ faultOf (exec (.cfgout 53) running) = some (.unmappedAccess 0x3F200014) := by decide

theorem test_setp : after (exec (.setp 0 0x00020000) { running with latch := latches [27] }) high = some [17, 27] ∧
    after (exec (.setp 1 0xFFFFFFFF) wide) high = some [32, 33, 34, 35, 36, 37, 38, 39, 40, 41, 42, 43, 44, 45, 46, 47, 48,
      49, 50, 51, 52, 53] := by decide

theorem test_clrp : after (exec (.clrp 0 0x00040000) { running with latch := latches [18, 25] }) high = some [25] ∧
    faultOf (exec (.clrp 2 1) running) = some (.badPin 2) := by decide

theorem test_btick_assert : after (exec .btick { running with t := 26 }) (fun t => (t.blinkOn, high t, t.trace)) =
    some (true, [27], [.timerFire, .regWrite .blink 0x3F20001C 0x08000000, .timerArm 500000000]) := by decide

theorem test_btick_clear :
    after (exec .btick { running with t := 0xFFFFFFFB, blinkOn := true, latch := latches [17, 18, 22, 27] })
      (fun t => (t.blinkOn, high t, t.timerArmed)) = some (false, [18], true) := by decide

theorem test_aeval : after (exec .aeval { running with t := 30 }) (·.alarmPending) = some false ∧
    after (exec .aeval { running with t := 31 }) (·.alarmPending) = some true := by decide

theorem test_apulse_start : after (exec .apulse { running with t := 31, alarmPending := true })
    (fun t => (t.alarmPending, t.alarmRunning, t.alarmPc, high t, t.trace)) =
    some (false, true, 1, [18], [.regWrite .alarm 0x3F20001C 0x00040000]) := by decide

theorem test_apulse_end : after (exec .apulse (pulsing 4)) (fun t => (t.alarmPending, t.alarmRunning)) = some (true, false) ∧
    after (exec .apulse { pulsing 4 with t := 30 }) (fun t => (t.alarmPending, t.alarmRunning)) = some (false, false) := by
  decide

theorem test_lnib : after (exec (.lnib true 5) running) (fun t => (high t, latchedNibbles t.cfg 0 t.trace running.latch)) =
    some ([7, 10, 23], [Latched.mk true false 5]) := by decide

theorem test_lins : after (exec (.lins 0x28) running) (fun t => (t.trace.length, displayBytes t.cfg 0 t.trace running.latch)) =
    some (24, [(false, 0x28)]) := by decide

/-- From E high the display takes a nibble more, of unspecified content (R373; V-2.8-16 but for that content). -/
theorem test_lins_from_e_high : after (exec (.lins 0x28) { running with latch := latches [7, 23, 25] })
    (fun t => ((latchedNibbles t.cfg 0 t.trace (latches [7, 23, 25])).length,
      (latchedNibbles t.cfg 0 t.trace (latches [7, 23, 25])).drop 1)) =
    some (3, [Latched.mk false false 2, Latched.mk false false 8]) := by decide

theorem test_lchr : after (exec (.lchr 0x54) running) (fun t => displayBytes t.cfg 0 t.trace running.latch) =
    some [(true, 0x54)] := by decide

theorem test_lstr : after (exec (.lstr [0x41, 0x00, 0x42]) running)
    (fun t => (t.trace.length, displayBytes t.cfg 0 t.trace running.latch)) = some (24, [(true, 0x41)]) := by decide

theorem test_linit : after (exec .linit running) (fun t => displayBytes t.cfg 0 t.trace running.latch) =
    some [(false, 0x28), (false, 0x0C), (false, 0x06), (false, 0x01), (false, 0x80), (true, 0x48), (true, 0x69)] := by
  decide +kernel

theorem test_lsched : after (exec .lsched running) (·.redrawPending) = some true ∧
    after (exec .lsched cancelledState) (·.redrawPending) = some false := by decide

theorem test_lredraw_start : after (exec .lredraw { running with t := 23, h := 45, redrawPending := true })
    (fun t => (t.line1, t.line2, t.lcdSeq.length, t.lcdPc, t.redrawRunning)) =
    some ([0x54, 0x65, 0x6D, 0x70, 0x65, 0x72, 0x61, 0x74, 0x75, 0x72, 0x65, 0x3A, 0x20, 0x32, 0x33],
      [0x48, 0x75, 0x6D, 0x69, 0x64, 0x69, 0x74, 0x79, 0x3A, 0x20, 0x34, 0x35], 722, 0, true) := by decide +kernel

theorem test_lredraw_end : after (exec .lredraw (redrawing 721)) (fun t => (t.redrawRunning, t.lcdPc, t.trace)) =
    some (false, 722, [.wait .display 1000000]) := by decide +kernel

theorem test_wait : after (exec (.wait 1000) running) (·.trace) = some [.wait .host 1000] := by decide

theorem test_attach : after (exec .attach State.reset) (fun t => (t.initRunning, t.initPc, t.initSeq.length, t.trace)) =
    some (true, 0, 187, []) ∧ after (exec .attach running) (·.trace) = some [.status 0x01 (.notReady .run)] := by decide +kernel

theorem test_sett : after (exec (.sett 31) running) (fun t => (t.t, t.alarmPending, t.trace)) =
    some (31, true, [.status 0x02 (.ok none)]) ∧ after (exec (.sett 0x80000000) running) (·.alarmPending) = some false := by
  decide

theorem test_seth : after (exec (.seth 45) running) (fun t => (t.h, t.redrawPending, t.alarmPending)) =
    some (45, true, false) ∧ after (exec (.seth 45) State.reset) (fun t => (t.h, t.trace)) =
    some (0, [.status 0x03 (.notReady .reset)]) := by decide

theorem test_settx : after (exec (.settx [0x33, 0x32, 0x0A]) running) (fun t => (t.t, t.alarmPending, t.trace)) =
    some (32, true, [.status 0x06 (.ok (some 3))]) ∧
    after (exec (.settx [0x61, 0x62, 0x63]) { running with t := 7 }) (fun t => (t.t, t.trace)) =
    some (7, [.status 0x06 .invalidInput]) := by decide

theorem test_sethx : after (exec (.sethx [0x2B, 0x35, 0x0A]) running) (fun t => (t.h, t.redrawPending, t.trace)) =
    some (5, true, [.status 0x07 (.ok (some 3))]) ∧
    after (exec (.sethx [0x34, 0x20, 0x35]) running) (fun t => (t.h, t.redrawPending)) = some (0, false) := by decide

theorem test_detach : after (exec .detach { running with alarmPending := true, redrawPending := true })
    (fun t => (t.phase, t.cancelled, t.timerArmed, t.alarmPending, t.redrawPending)) =
    some (.cancelled, true, false, false, false) ∧ after (exec .detach running) (·.trace) = some [] := by decide

theorem test_cancel : after (exec .cancel (pulsing 2)) (fun t => (t.phase, t.cancelled, t.timerArmed, t.alarmRunning)) =
    some (.cancelled, true, false, true) := by decide

theorem test_unmapall : after (exec .unmapall cancelledState) (fun t => (t.phase, t.mapped, t.trace)) =
    some (.detached, [], [.unmap 0x3F200028, .unmap 0x3F20001C, .unmap 0x3F200008, .unmap 0x3F200004, .unmap 0x3F200000,
      .status 0x04 (.ok none)]) ∧
    after (exec .unmapall { pulsing 2 with phase := .cancelled }) (·.phase) = some .cancelled := by decide

/-- ParseDec's corner cases (V-2.10-6, 9 to 11, 13 to 20). -/
theorem test_parse : parseDec [0x2D, 0x30] = some 0 ∧
    parseDec [0x32, 0x31, 0x34, 0x37, 0x34, 0x38, 0x33, 0x36, 0x34, 0x37] = some 2147483647 ∧
    parseDec [0x2D, 0x32, 0x31, 0x34, 0x37, 0x34, 0x38, 0x33, 0x36, 0x34, 0x38] = some 0x80000000 ∧
    parseDec [0x32, 0x31, 0x34, 0x37, 0x34, 0x38, 0x33, 0x36, 0x34, 0x38] = none ∧
    parseDec [] = none ∧ parseDec [0x0A] = none ∧ parseDec [0x2D] = none ∧ parseDec [0x20, 0x35] = none ∧
    parseDec [0x35, 0x0A, 0x0A] = none ∧ parseDec [0x35, 0x0D, 0x0A] = none := by decide

/-- The block refuses an internal opcode and a spare one at the command port (V-2.11-32, V-2.11-34). -/
theorem test_bad_command : after (step (turns [.command 0x30 []] running)) (·.trace) = some [.status 0x30 (.badCommand 0x30)] ∧
    after (step (turns [.command 0x09 []] running)) (·.trace) = some [.status 0x09 (.badCommand 0x09)] := by decide

/-! ## States and operands that meet the statements' hypotheses -/

theorem legal_illustrative : Config.illustrative.Legal := by constructor <;> decide

theorem legal_refusing : (refusing State.reset).cfg.Legal := by constructor <;> decide

/-- The turns to come are no part of the invariant. -/
theorem turns_inv {s : State} (ts : List Turn) (h : s.Inv) : (turns ts s).Inv :=
  ⟨h.1, h.2, h.3, h.4, h.5, h.6, h.7, h.8, h.9, h.10, h.11, h.12, h.13, h.14, h.15, h.16, h.17, h.18, h.19⟩

/-- An attached block whose work, if any, is in its lists keeps the invariant. -/
theorem attached_inv (s : State) (hc : s.cfg = Config.illustrative) (hm : s.mem = outputCells) (hl : s.latch.length = 54)
    (hw : s.mapped = words) (hi : s.initRunning = false) (hp : s.phase = .run ∨ s.phase = .cancelled)
    (htimer : s.timerArmed = true → s.phase = .run) (ha : s.alarmPending = true → s.phase = .run)
    (hr : s.redrawPending = true → s.phase = .run) (hcan : s.cancelled = true ↔ s.phase = .cancelled ∨ s.phase = .detached)
    (hpc : s.alarmRunning = true → 1 ≤ s.alarmPc ∧ s.alarmPc ≤ 4)
    (hseq : s.redrawRunning = true →
      s.lcdSeq = expand s.cfg (redrawList s.cfg s.line1 s.line2) ∧ s.lcdPc < s.lcdSeq.length)
    (hline : s.line1.length < 25 ∧ s.line2.length < 25) : s.Inv where
  legal := hc ▸ legal_illustrative
  memory := by rw [hm]; decide
  latches := by rw [hc, hl]; rfl
  alarm_active _ := hp
  redraw_active _ := hp
  timer_run := htimer
  alarm_pending_run := ha
  redraw_pending_run := hr
  cancelled_iff := hcan
  mapped_active _ := by rw [hc, hw]; decide
  mapped_idle h := absurd hp h
  init_reset h := by simp [hi] at h
  init_list h := by simp [hi] at h
  init_mapped h := by simp [hi] at h
  init_outputs h := by simp [hi] at h
  outputs _ := by
    simp only [State.fselField, State.fsel, hc, hm]
    decide
  alarm_index := hpc
  redraw_list := hseq
  lines_fit := by rw [hc]; exact hline

/-- A running attach whose words and pins are as far as its list is keeps the invariant. -/
theorem attach_inv (s : State) (hleg : s.cfg.Legal) (hi : s.initRunning = true) (hp : s.phase = .reset)
    (hs : s.initSeq = attachList s.cfg) (hidle : s.timerArmed = false ∧ s.alarmPending = false ∧ s.alarmRunning = false ∧
      s.redrawPending = false ∧ s.redrawRunning = false ∧ s.cancelled = false ∧ s.line1 = [] ∧ s.line2 = [])
    (hm : s.mem.wf) (hl : s.latch.length = s.cfg.nPins) (hpc : s.initPc < (attachList s.cfg).length)
    (hmap : s.mapped = (attachWords s.cfg).take s.initPc)
    (hout : ∀ p ∈ s.configured, s.fselField p = s.cfg.fselOutput) : s.Inv := by
  obtain ⟨h1, h2, h3, h4, h5, h6, h7, h8⟩ := hidle
  have := hleg.line_fits
  refine ⟨hleg, hm, hl, ?_, ?_, ?_, ?_, ?_, ?_, ?_, ?_, fun _ => hp, fun _ => ⟨hs, hpc⟩, fun _ => hmap, fun _ => hout, ?_, ?_, ?_,
    ?_⟩ <;> simp [State.active, State.everAttached, h1, h2, h3, h4, h5, h6, h7, h8, hp, hi]
  omega

theorem running_inv : running.Inv := by apply attached_inv <;> decide

/-- A pulse and a redraw are queued. -/
def queued : State := { running with t := 31, h := 45, alarmPending := true, redrawPending := true }

theorem queued_inv : queued.Inv := by apply attached_inv <;> decide

theorem pulsing_inv : (pulsing 2).Inv := by apply attached_inv <;> decide

theorem cancelled_inv : cancelledState.Inv := by apply attached_inv <;> decide

/-- At its last primitive. -/
theorem redrawing_inv : (redrawing 721).Inv := by
  refine attached_inv _ rfl rfl rfl rfl rfl (Or.inl rfl) ?_ ?_ ?_ ?_ ?_ (fun _ => ⟨rfl, by decide +kernel⟩) ?_ <;> decide

/-- At the finish step. -/
def finishing : State := { attaching with initPc := 186, mapped := words, mem := outputCells }

/-- At the MAP of the address the environment refuses, with the three FSEL words mapped. -/
def refused : State :=
  { refusing attaching with initPc := 3, mapped := [0x3F200000, 0x3F200004, 0x3F200008] }

theorem attaching_inv : attaching.Inv := by
  refine attach_inv _ legal_illustrative rfl rfl rfl ?_ ?_ rfl ?_ ?_ ?_ <;> decide +kernel

theorem finishing_inv : finishing.Inv := by
  refine attach_inv _ legal_illustrative rfl rfl rfl ?_ ?_ rfl ?_ ?_ ?_ <;> decide +kernel

theorem refused_inv : refused.Inv := by
  refine attach_inv _ legal_refusing rfl rfl rfl ?_ ?_ rfl ?_ ?_ ?_ <;> decide +kernel

theorem attachWords_illustrative : attachWords Config.illustrative = words := by decide

theorem running_words : running.wordsMapped := fun a h => (attachWords_illustrative ▸ h : a ∈ words)

theorem queued_words : queued.wordsMapped := fun a h => (attachWords_illustrative ▸ h : a ∈ words)

theorem pulsing_words : (pulsing 4).wordsMapped := fun a h => (attachWords_illustrative ▸ h : a ∈ words)

theorem witness_DecodeOfEncode : (Instr.lstr (List.replicate 255 0x41)).wellFormed = true ∧
    (Instr.wrw 0xFFFFFFFF 0).wellFormed = true := by decide +kernel

theorem witness_EncodeOfDecode : decode [0x40, 0x1F, 0x99] = .ok (.lnib true 15, [0x99]) := rfl

theorem witness_IllegalWordsAreBadCommands :
    (turns [.command 0x00 []] running).schedule = .command 0x00 [] :: [] ∧
    (0x00 : Byte) ∉ ([0x01, 0x02, 0x03, 0x04, 0x05, 0x06, 0x07, 0x08, 0x10, 0x11, 0x12, 0x13, 0x14, 0x20, 0x21, 0x22, 0x30,
      0x38, 0x39, 0x40, 0x41, 0x42, 0x43, 0x44, 0x45, 0x46, 0x50] : List Byte) ∧
    (0x50 : Byte) ∈ ([0x05, 0x08, 0x10, 0x11, 0x12, 0x13, 0x14, 0x20, 0x21, 0x22, 0x30, 0x38, 0x39, 0x40, 0x41, 0x42, 0x43,
      0x44, 0x45, 0x46, 0x50] : List Byte) ∧
    (∃ e, decodeWhole 0x01 [0x00] = .error e) ∧ ∃ e, decodeWhole 0x06 [0x01] = .error e :=
  ⟨rfl, by decide, by decide, ⟨_, rfl⟩, ⟨_, rfl⟩⟩

theorem witness_StepRunsDecodedWord :
    (turns [.command 0x02 [0, 0, 0, 31], .reset] running).schedule = .command 0x02 [0, 0, 0, 31] :: [.reset] ∧
    decodeWhole 0x02 [0, 0, 0, 31] = .ok (.sett 31) ∧ (Instr.sett 31).port = .host := ⟨rfl, rfl, rfl⟩

theorem witness_StepRunsAgentTurn :
    ((turns [.run .init] attaching).schedule = [.run .init] ∧ (turns [.run .init] attaching).initRunning = true ∧
      (turns [.run .init] attaching).initSeq[(turns [.run .init] attaching).initPc]? = some (.op (.map 0x3F200000))) ∧
    ((turns [.run .init] finishing).initRunning = true ∧
      (turns [.run .init] finishing).initSeq[(turns [.run .init] finishing).initPc]? = some .finish) ∧
    ((turns [.run .init] running).schedule = [.run .init] ∧ (turns [.run .init] running).initRunning = false) ∧
    (turns [.run .blink] running).schedule = [.run .blink] ∧ (turns [.run .alarm] running).schedule = [.run .alarm] ∧
    (turns [.run .display] running).schedule = [.run .display] ∧
    (turns [.run .teardown] running).schedule = [.run .teardown] ∧
    (turns [.run .host] running).schedule = [.run .host] ∧ State.reset.schedule = [] := by decide +kernel

theorem witness_DisabledAgentsPass :
    ¬(State.reset.timerArmed = true ∧ State.reset.phase = .run) ∧
    ¬(running.alarmPending = true ∧ running.alarmRunning = false ∧ running.phase = .run) ∧
    ¬(running.alarmRunning = true ∧ (running.phase = .run ∨ running.phase = .cancelled)) ∧
    ¬(running.redrawPending = true ∧ running.redrawRunning = false ∧ running.phase = .run) ∧
    ¬(running.redrawRunning = true ∧ (running.phase = .run ∨ running.phase = .cancelled)) ∧
    ¬(running.phase = .cancelled ∧ running.alarmRunning = false ∧ running.redrawRunning = false) := by decide

theorem witness_ResetState : (turns [.reset, .run .blink] (pulsing 2)).schedule = .reset :: [.run .blink] := rfl

theorem witness_MapResult :
    ((0x3F200001 : Word).toNat % 4 ≠ 0 ∧ running.initRunning = false) ∧
    ((0x3F200028 : Word).toNat % 4 = 0 ∧ (0x3F200028 : Word) ∈ running.mapped) ∧
    ((0x3F20001C : Word).toNat % 4 = 0 ∧ (0x3F20001C : Word) ∉ (refusing State.reset).mapped ∧
      (0x3F20001C : Word) ∈ (refusing State.reset).cfg.unmappable ∧ (refusing State.reset).initRunning = false) ∧
    (0xFFFFFFFC : Word).toNat % 4 = 0 ∧ (0xFFFFFFFC : Word) ∉ running.mapped ∧
    (0xFFFFFFFC : Word) ∉ running.cfg.unmappable := by decide

theorem witness_AttachMapErrorUnwinds : refused.initRunning = true ∧ (0x3F200003 : Word).toNat % 4 ≠ 0 ∧
    (0x3F20001C : Word) ∉ refused.mapped ∧ (0x3F20001C : Word) ∈ refused.cfg.unmappable := by decide

theorem witness_UnmapResult : (0x3F200028 : Word) ∈ running.mapped ∧ (0x3F20002C : Word) ∉ running.mapped := by decide

theorem witness_ReadRegister : wide.cfg.Legal ∧ (5 < wide.cfg.nFsel ∧ fselAddr wide.cfg 5 ∈ wide.mapped) ∧
    ((0x3F200018 : Word) ∈ wide.mapped ∧ ∀ i, i < wide.cfg.nFsel → (0x3F200018 : Word) ≠ fselAddr wide.cfg i) ∧
    (0x3F20001C : Word) ∈ wide.mapped ∧ ∀ i, i < wide.cfg.nFsel → (0x3F20001C : Word) ≠ fselAddr wide.cfg i :=
  ⟨legal_illustrative, by decide, by decide, by decide⟩

theorem witness_WriteFselWord : wide.cfg.Legal ∧ wide.mem.wf ∧ (0 < wide.cfg.nFsel ∧ fselAddr wide.cfg 0 ∈ wide.mapped) ∧
    5 < wide.cfg.nFsel ∧ fselAddr wide.cfg 5 ∈ wide.mapped := ⟨legal_illustrative, by decide⟩

theorem witness_WriteSetClearWord : wide.cfg.Legal ∧ (1 < wide.cfg.nSet ∧ setAddr wide.cfg 1 ∈ wide.mapped) ∧
    (1 < wide.cfg.nSet ∧ clrAddr wide.cfg 1 ∈ wide.mapped) ∧ (0x3F200024 : Word) ∈ wide.mapped ∧
    (∀ i, i < wide.cfg.nFsel → (0x3F200024 : Word) ≠ fselAddr wide.cfg i) ∧
    ∀ j, j < wide.cfg.nSet → (0x3F200024 : Word) ≠ setAddr wide.cfg j ∧ (0x3F200024 : Word) ≠ clrAddr wide.cfg j :=
  ⟨legal_illustrative, by decide⟩

theorem witness_ReadModifyWrite : (0x00000000 : Word) ∈ wide.mapped ∧ (0xFFFFFFFC : Word) ∈ wide.mapped ∧
    wide.cfg.Legal ∧ wide.mem.wf ∧ 5 < wide.cfg.nFsel ∧ (0x3F200014 : Word) = fselAddr wide.cfg 5 ∧
    (0x3F200014 : Word) ∈ wide.mapped ∧ (0x3F200018 : Word) ∈ wide.mapped ∧
    ∀ i, i < wide.cfg.nFsel → (0x3F200018 : Word) ≠ fselAddr wide.cfg i :=
  ⟨by decide, by decide, legal_illustrative, by decide⟩

theorem witness_RegisterWriteIsolation : wide.cfg.Legal ∧ wide.mem.wf ∧ (5 < wide.cfg.nFsel ∧ 0 < wide.cfg.nFsel ∧ 0 ≠ 5) ∧
    fselAddr wide.cfg 5 ∈ wide.mapped ∧ (∃ t, exec (.rmw (fselAddr wide.cfg 5) 7 1) wide = .next t) ∧
    (∃ t, exec (.cfgout 17) wide = .next t) ∧ 53 < wide.cfg.nPins ∧ 53 ≠ (17 : Byte).toNat :=
  ⟨legal_illustrative, by decide, by decide, by decide, ⟨_, rfl⟩, ⟨_, rfl⟩, by decide⟩

theorem witness_ContractFaults : (0x3F20000C : Word) ∉ running.mapped ∧ running.cfg.nPins ≤ (54 : Byte).toNat ∧
    ((53 : Byte).toNat < running.cfg.nPins ∧ fselAddr running.cfg ((53 : Byte).toNat / 10) ∉ running.mapped) ∧
    running.cfg.nSet ≤ (2 : Byte).toNat ∧ (1 : Byte).toNat < running.cfg.nSet ∧
    setAddr running.cfg (1 : Byte).toNat ∉ running.mapped ∧ clrAddr running.cfg (1 : Byte).toNat ∉ running.mapped := by
  decide

theorem witness_ConfigureOutput : wide.cfg.Legal ∧ wide.mem.wf ∧
    ((0 : Byte).toNat < wide.cfg.nPins ∧ fselAddr wide.cfg ((0 : Byte).toNat / 10) ∈ wide.mapped) ∧
    (53 : Byte).toNat < wide.cfg.nPins ∧ fselAddr wide.cfg ((53 : Byte).toNat / 10) ∈ wide.mapped :=
  ⟨legal_illustrative, by decide⟩

theorem witness_SetAndClearPins : wide.cfg.Legal ∧ (1 : Byte).toNat < wide.cfg.nSet ∧
    setAddr wide.cfg (1 : Byte).toNat ∈ wide.mapped ∧ clrAddr wide.cfg (1 : Byte).toNat ∈ wide.mapped :=
  ⟨legal_illustrative, by decide⟩

/-- One word of a block as an attach leaves it, two pins; and two words. -/
theorem witness_DisjointPinWritesCommute :
    (running.cfg.Legal ∧ (0 : Byte).toNat < running.cfg.nSet ∧
      setAddr running.cfg (0 : Byte).toNat ∈ running.mapped ∧ clrAddr running.cfg (0 : Byte).toNat ∈ running.mapped ∧
      (0x00040000 : Word) &&& 0x08420000 = 0) ∧
    (1 : Byte).toNat < wide.cfg.nSet ∧ setAddr wide.cfg (0 : Byte).toNat ∈ wide.mapped ∧
    clrAddr wide.cfg (1 : Byte).toNat ∈ wide.mapped ∧ (0 : Byte) ≠ 1 :=
  ⟨⟨legal_illustrative, by decide⟩, by decide⟩

/-- The edges of the bands (V-2.5-1 to V-2.5-13). -/
theorem witness_ThresholdBands : band 0 = .all ∧ band 1 = .green ∧ band 25 = .green ∧ band 26 = .yellow ∧
    band 30 = .yellow ∧ band 31 = .red ∧ band 2147483647 = .red ∧ band (-1) = .green ∧ band (-2147483648) = .green := by
  decide

theorem witness_BlinkTick : running.cfg.Legal ∧ running.wordsMapped ∧ running.timerArmed = true ∧ running.phase = .run ∧
    running.blinkOn = false ∧ ({ running with blinkOn := true } : State).blinkOn = true :=
  ⟨legal_illustrative, running_words, rfl, rfl, rfl, rfl⟩

theorem witness_ToggleLaw : (turns [.run .blink, .run .blink] running).Inv ∧
    (turns [.run .blink, .run .blink] running).timerArmed = true ∧ (turns [.run .alarm] queued).Inv ∧
    (∃ t, step (turns [.run .alarm] queued) = .next t) ∧ (turns [.run .alarm] queued).nextTurn ≠ .run .blink ∧
    (turns [.run .alarm] queued).nextTurn ≠ .reset :=
  ⟨turns_inv _ running_inv, rfl, turns_inv _ queued_inv, ⟨_, rfl⟩, by decide, by decide⟩

theorem witness_PulseStart : queued.cfg.Legal ∧ queued.wordsMapped ∧ queued.alarmPending = true ∧
    queued.alarmRunning = false ∧ queued.phase = .run := ⟨legal_illustrative, queued_words, rfl, rfl, rfl⟩

theorem witness_PulseBody : (pulsing 4).cfg.Legal ∧ (pulsing 4).wordsMapped ∧ (pulsing 4).alarmRunning = true ∧
    (pulsing 4).active ∧ (pulsing 4).alarmPc = 4 ∧ (pulsing 3).alarmPc = 3 ∧ (pulsing 2).alarmPc = 2 ∧
    (pulsing 1).alarmPc = 1 := ⟨legal_illustrative, pulsing_words, rfl, Or.inl rfl, rfl, rfl, rfl, rfl⟩

theorem witness_PulseRunsToItsEnd : (turns (List.replicate 5 (.run .alarm) ++ [.reset]) queued).Inv ∧
    queued.alarmPending = true ∧ queued.alarmRunning = false := ⟨turns_inv _ queued_inv, rfl, rfl⟩

/-- The hypotheses of NibbleTransfer, ByteWrites, StringWrite and DisplayInitialisation. -/
theorem witness_NibbleTransfer : running.cfg.Legal ∧ running.wordsMapped ∧ running.level running.cfg.pinE = false :=
  ⟨legal_illustrative, running_words, by decide⟩

theorem witness_LineText : (0x00000000 : Word).toInt = 0 ∧ 0 < (0x00000001 : Word).toInt ∧ 0 < (0x7FFFFFFF : Word).toInt ∧
    (0xFFFFFFFF : Word).toInt < 0 ∧ (0x80000000 : Word).toInt < 0 ∧ dec 0x80000000 =
      [0x2D, 0x32, 0x31, 0x34, 0x37, 0x34, 0x38, 0x33, 0x36, 0x34, 0x38] := by decide

theorem witness_RedrawStart : queued.redrawPending = true ∧ queued.redrawRunning = false ∧ queued.phase = .run := by decide

theorem witness_RedrawBody : (redrawing 721).Inv ∧ (redrawing 721).redrawRunning = true := ⟨redrawing_inv, rfl⟩

theorem witness_RedrawByteStream : (turns (List.replicate 723 (.run .display) ++ [.reset]) queued).Inv ∧
    queued.redrawPending = true ∧ queued.redrawRunning = false ∧ queued.level queued.cfg.pinE = false ∧
    722 = 2 + 24 * (3 + (composeLine1 queued.t).length + (composeLine2 queued.h).length) :=
  ⟨turns_inv _ queued_inv, rfl, rfl, by decide, by
    rw [show (composeLine1 queued.t).length = 15 by decide, show (composeLine2 queued.h).length = 12 by decide]⟩

theorem witness_AttachAccepted : State.reset.phase = .reset ∧ State.reset.initRunning = false := ⟨rfl, rfl⟩

theorem witness_AttachCompletes :
    (turns (List.replicate (attachList attaching.cfg).length (.run .init) ++ [.reset]) attaching).Inv ∧
    attaching.initRunning = true ∧ attaching.initPc = 0 ∧
    ∀ a ∈ attachWords attaching.cfg, a ∉ attaching.cfg.unmappable :=
  ⟨turns_inv _ attaching_inv, rfl, rfl, fun _ _ => List.not_mem_nil⟩

/-- The hypotheses of SetTemperature, SetTemperatureText, SetHumidity, SetHumidityText and DetachCancels. -/
theorem witness_SetTemperature : running.phase = .run ∧ parseDec [0x33, 0x31] = some 31 ∧
    parseDec [0x33, 0x30, 0x0A] = some 30 ∧ parseDec [] = none := by decide

theorem witness_Teardown : cancelledState.phase = .cancelled ∧ cancelledState.alarmRunning = false ∧
    cancelledState.redrawRunning = false ∧ cancelledState.mapped = attachWords cancelledState.cfg := by decide

theorem witness_WrongPhaseIsNotReady : ¬(attaching.phase = .reset ∧ attaching.initRunning = false) ∧
    attaching.phase ≠ .run ∧ cancelledState.phase ≠ .run := by decide

theorem witness_RedrawCounts : Config.illustrative.Legal := legal_illustrative

theorem witness_NeverStops : (turns [.command 0x09 [], .run .blink] queued).Inv := turns_inv _ queued_inv

theorem witness_TraceOnlyGrows : (∃ t, step (turns [.run .display] queued) = .next t) ∧
    (turns [.run .display] queued).nextTurn ≠ .reset := ⟨⟨_, rfl⟩, by decide⟩

theorem witness_OtherFormsStoreNothing : running.cfg.Legal ∧ (∃ t, exec (.setp 0 1) running = .next t) ∧
    (∀ a v, Instr.setp 0 1 ≠ .wrw a v) ∧ (∀ a clr set, Instr.setp 0 1 ≠ .rmw a clr set) ∧ ∀ p, Instr.setp 0 1 ≠ .cfgout p :=
  ⟨legal_illustrative, ⟨_, rfl⟩, nofun, nofun, nofun⟩

/-- Launch contents other than zero (10_state.md R35, R36). -/
theorem witness_InvariantAtReset : Config.illustrative.Legal ∧ outputCells.wf ∧
    (latches [17, 25]).length = Config.illustrative.nPins := ⟨legal_illustrative, by decide⟩

theorem witness_InvariantKept : (turns [.run .alarm] (pulsing 2)).Inv ∧
    (∃ t, step (turns [.run .alarm] (pulsing 2)) = .next t) ∧ (turns [.run .display] (redrawing 721)).Inv :=
  ⟨turns_inv _ pulsing_inv, ⟨_, rfl⟩, turns_inv _ redrawing_inv⟩

theorem witness_PhaseTransitions :
    ((turns [.reset] running).Inv ∧ (turns [.reset] running).nextTurn = .reset ∧
      ∃ t, step (turns [.reset] running) = .next t) ∧
    ((turns [.run .init] finishing).Inv ∧ (turns [.run .init] finishing).nextTurn = .run .init ∧
      ∃ t, step (turns [.run .init] finishing) = .next t) ∧
    ((turns [.run .init] refused).Inv ∧ (0x3F20001C : Word) ∈ refused.cfg.unmappable ∧
      refused.initSeq[refused.initPc]? = some (.op (.map 0x3F20001C)) ∧
      ∃ t, step (turns [.run .init] refused) = .next t) ∧
    ((turns [.command 0x04 []] running).Inv ∧ (turns [.command 0x04 []] running).nextTurn = .command 0x04 [] ∧
      ∃ t, step (turns [.command 0x04 []] running) = .next t) ∧
    (turns [.run .teardown] cancelledState).Inv ∧ (turns [.run .teardown] cancelledState).nextTurn = .run .teardown ∧
      ∃ t, step (turns [.run .teardown] cancelledState) = .next t :=
  ⟨⟨turns_inv _ running_inv, rfl, ⟨_, rfl⟩⟩, ⟨turns_inv _ finishing_inv, rfl, ⟨_, rfl⟩⟩,
    ⟨turns_inv _ refused_inv, by decide, by decide +kernel, ⟨_, rfl⟩⟩, ⟨turns_inv _ running_inv, rfl, ⟨_, rfl⟩⟩,
    turns_inv _ cancelled_inv, rfl, ⟨_, rfl⟩⟩

theorem witness_NothingRearmsAfterCancel : (turns [.command 0x02 [0, 0, 0, 31]] cancelledState).Inv ∧
    cancelledState.cancelled = true ∧ (turns [.command 0x02 [0, 0, 0, 31]] cancelledState).nextTurn ≠ .reset ∧
    ∃ t, step (turns [.command 0x02 [0, 0, 0, 31]] cancelledState) = .next t :=
  ⟨turns_inv _ cancelled_inv, rfl, by decide, ⟨_, rfl⟩⟩

theorem witness_FselOnlyDuringAttach : (turns [.run .blink] running).Inv ∧ running.initRunning = false ∧
    (turns [.run .blink] running).nextTurn ≠ .reset ∧ ∃ t, step (turns [.run .blink] running) = .next t :=
  ⟨turns_inv _ running_inv, rfl, by decide, ⟨_, rfl⟩⟩

/-- A blink tick, a pulse's start and a redraw's first line write change a latch. -/
theorem witness_AgentsDriveOwnPins :
    (∃ t, step (turns [.run .blink] running) = .next t ∧ t.level 17 ≠ running.level 17) ∧
    (∃ t, step (turns [.run .alarm] queued) = .next t ∧ t.level 18 ≠ queued.level 18) ∧ 18 < queued.cfg.nPins :=
  ⟨⟨_, rfl, by decide⟩, ⟨_, rfl, by decide⟩, by decide⟩

theorem witness_AlarmPinOnlyInPulse : levelOf (latches [17]) Config.illustrative.pinAlarm = false ∧
    (pulsing 2).Inv ∧ (pulsing 2).AlarmPinInv ∧ ({ pulsing 2 with latch := latches [18] } : State).AlarmPinInv ∧
    (turns [.run .alarm] (pulsing 2)).nextTurn ≠ .reset ∧ ∃ t, step (turns [.run .alarm] (pulsing 2)) = .next t := by
  refine ⟨by decide, pulsing_inv, ?_, ?_, by decide, ⟨_, rfl⟩⟩ <;> (unfold State.AlarmPinInv; decide)

end Sys2Proof.Tests
end

/-! PROOFS. The statements about the whole state (10_state.md): reset, the invariant along a step, the trace, the cancel
signal, the alarm pin. -/

namespace Sys2Proof.Machine

/-! ## Reset (10_state.md R40, 70_reset_and_hazards.md R350, R351) -/

/-- A reset of a legal configuration leaves no run, no queued work, nothing mapped and empty lines. -/
theorem State.Inv.resetWith {c : Config} {fsel0 : Memory} {latch0 : List Bool} (hc : c.Legal) (hm : fsel0.wf)
    (hl : latch0.length = c.nPins) : (State.resetWith c fsel0 latch0).Inv where
  legal := hc
  memory := hm
  latches := hl
  alarm_active := nofun
  redraw_active := nofun
  timer_run := nofun
  alarm_pending_run := nofun
  redraw_pending_run := nofun
  cancelled_iff := by simp [State.resetWith]
  mapped_active := by simp [State.active, State.resetWith]
  mapped_idle := fun _ _ => rfl
  init_reset := nofun
  init_list := nofun
  init_mapped := nofun
  init_outputs := nofun
  outputs := by simp [State.everAttached, State.resetWith]
  alarm_index := nofun
  redraw_list := nofun
  lines_fit := by
    have := hc.line_fits
    simp only [State.resetWith, List.length_nil]
    omega

/-- Settles O8: a reset turn leaves `State.hardwareReset`, whose own fields are those of `State.resetWith`. -/
theorem resetState : Obligations.ResetState := by
  unfold Obligations.ResetState
  refine ⟨fun c fsel0 latch0 => ?_, fun s rest hs => ?_⟩
  · simp [State.resetWith]
  · rw [step_of_schedule hs]
    rfl

/-- The values of 95_test_vectors.md section 0 meet the constraints of 00_scope.md R6 to R12. -/
theorem legal_configIllustrative : Config.illustrative.Legal := by constructor <;> decide

/-- Settles O52, by `State.Inv.resetWith`; the model's own reset state is the one of the illustrative configuration. -/
theorem invariantAtReset : Obligations.InvariantAtReset := by
  unfold Obligations.InvariantAtReset
  refine ⟨fun c fsel0 latch0 hc hm hl => .resetWith hc hm hl, .resetWith legal_configIllustrative Memory.wf_nil ?_⟩
  exact List.length_replicate

/-! ## The invariant along a step (10_state.md R41) -/

/-- Every turn goes through and keeps the invariant. -/
theorem takeTurn_keeps_inv {s : State} (h : s.Inv) (turn : Turn) : ∃ t, takeTurn turn s = .next t ∧ t.Inv := by
  cases turn with
  | command op operands => exact hostTurn_keeps_inv (h.withAgent .host) op operands
  | run a =>
    cases a with
    | host => exact ⟨_, rfl, h.withAgent .host⟩
    | init => exact initTurn_keeps_inv (h.withAgent .init)
    | blink => exact execBtick_keeps_inv (h.withAgent .blink)
    | alarm => exact execApulse_keeps_inv (h.withAgent .alarm)
    | display => exact execLredraw_keeps_inv (h.withAgent .display)
    | teardown => exact execUnmapall_keeps_inv (h.withAgent .teardown)
  | reset => exact ⟨_, rfl, h.hardwareReset⟩

/-- From a state with the invariant a step goes through, to a state with the invariant. -/
theorem step_keeps_inv {s : State} (h : s.Inv) : ∃ t, step s = .next t ∧ t.Inv :=
  takeTurn_keeps_inv h.popTurn s.nextTurn

theorem State.Inv.step {s t : State} (h : s.Inv) (ht : step s = .next t) : t.Inv := by
  obtain ⟨u, hu, hinv⟩ := step_keeps_inv h
  rw [ht] at hu
  cases hu
  exact hinv

/-- Settles O53: a step is one turn, and the turn of every agent, a host's word and a reset keep the invariant. -/
theorem invariantKept : Obligations.InvariantKept := by
  unfold Obligations.InvariantKept
  exact fun s t h ht => h.step ht

/-! ## What no step touches: the parameters and the trace so far (10_state.md R38, R39) -/

theorem Quiet.pass (s : State) : Quiet s (.next s) := .next .rfl rfl

/-- A guarded operation is quiet where both its ways are. -/
theorem Quiet.ite {s : State} {p : Prop} [Decidable p] {o₁ o₂ : Host.Outcome State Fault Refusal} (h₁ : Quiet s o₁)
    (h₂ : Quiet s o₂) : Quiet s (if p then o₁ else o₂) := by
  split
  · exact h₁
  · exact h₂

/-- An update of the state that keeps the parameters, the schedule, the trace and the register words. -/
theorem Quiet.update {s t : State} (hc : t.cfg = s.cfg) (hs : t.schedule = s.schedule) (ht : t.trace = s.trace)
    (hm : t.mem = s.mem) : Quiet s (.next t) := .next ⟨hc, hs, [], by simp [ht]⟩ hm

theorem grows_withAgent (s : State) (a : Agent) : Grows s (s.withAgent a) := ⟨rfl, rfl, [], by simp⟩

theorem quiet_execMap (addr : Word) (s : State) : Quiet s (execMap addr s) := by
  obtain ⟨hg, hm⟩ := grows_raiseMapError s addr
  exact .ite (.next hg hm) (.ite (.fault _) (.ite (.next hg hm) (.next ⟨rfl, rfl, _, rfl⟩ rfl)))

theorem quiet_execBtick (s : State) : Quiet s (execBtick s) := by
  have rearm (t : State) : Quiet t (.next t.rearmTimer) := by
    rw [State.rearmTimer_eq]
    exact .next ⟨rfl, rfl, _, rfl⟩ rfl
  exact .ite (.of_grows (u := s.fireTimer) ⟨rfl, rfl, _, rfl⟩ rfl ((quiet_blinkWrite _).andThen fun t _ => rearm t))
    (.pass s)

theorem quiet_execApulse (s : State) : Quiet s (execApulse s) :=
  .ite (.of_grows (u := (s.withAgent .alarm).startAlarm) ⟨rfl, rfl, [], by simp⟩ rfl (quiet_alarmMicroStep _))
    (.ite (.of_grows (grows_withAgent s .alarm) rfl (quiet_alarmMicroStep _)) (.pass s))

theorem quiet_execLredraw (s : State) : Quiet s (execLredraw s) :=
  .ite (.update rfl rfl rfl rfl)
    (.ite (.of_grows (grows_withAgent s .display) rfl (quiet_redrawMicroStep _)) (.pass s))

theorem quiet_execUnmapall (s : State) : Quiet s (execUnmapall s) :=
  .ite (.of_grows (grows_withAgent s .teardown) rfl
    ((quiet_unmapWords _ _).andThen fun _ _ => .next ⟨rfl, rfl, _, rfl⟩ rfl)) (.pass s)

/-- An operation that stores to no register word is quiet. -/
theorem quiet_exec {i : Instr} (s : State) (hw : ∀ a v, i ≠ .wrw a v) (hr : ∀ a clr set, i ≠ .rmw a clr set)
    (hc : ∀ p, i ≠ .cfgout p) : Quiet s (exec i s) := by
  cases i with
  | attach => exact .ite (.update rfl rfl rfl rfl) (quiet_endWith _ _ _)
  | sett v => exact .ite (quiet_updateT _ _ _ _) (quiet_endWith _ _ _)
  | seth v => exact .ite (quiet_updateH _ _ _ _) (quiet_endWith _ _ _)
  | detach => exact .ite (.update rfl rfl rfl rfl) (quiet_endWith _ _ _)
  | cancel => exact .update rfl rfl rfl rfl
  | settx text =>
    refine .ite ?_ (quiet_endWith _ _ _)
    split
    · exact quiet_updateT _ _ _ _
    · exact quiet_endWith _ _ _
  | sethx text =>
    refine .ite ?_ (quiet_endWith _ _ _)
    split
    · exact quiet_updateH _ _ _ _
    · exact quiet_endWith _ _ _
  | unmapall => exact quiet_execUnmapall s
  | map addr => exact quiet_execMap addr s
  | unmap addr => exact .ite (.next ⟨rfl, rfl, _, rfl⟩ rfl) (.fault _)
  | rdw addr => exact .ite (.next (grows_memRead s addr) rfl) (.fault _)
  | wrw addr value => exact absurd rfl (hw addr value)
  | rmw addr clr set => exact absurd rfl (hr addr clr set)
  | cfgout pin => exact absurd rfl (hc pin)
  | setp w mask => exact quiet_setPins w mask s
  | clrp w mask => exact quiet_clearPins w mask s
  | btick => exact quiet_execBtick s
  | aeval => exact .update s.evalAlarm_cfg s.evalAlarm_schedule s.evalAlarm_trace s.evalAlarm_mem
  | apulse => exact quiet_execApulse s
  | lnib m n => exact quiet_runPrims _ s
  | lins b => exact quiet_runPrims _ s
  | lchr b => exact quiet_runPrims _ s
  | lstr text => exact quiet_runPrims _ s
  | linit => exact quiet_runPrims _ s
  | lsched =>
    exact .update s.scheduleRedraw_cfg s.scheduleRedraw_schedule s.scheduleRedraw_trace s.scheduleRedraw_mem
  | lredraw => exact quiet_execLredraw s
  | wait ns => exact .next ⟨rfl, rfl, _, rfl⟩ rfl

theorem grows_writeReg {s t : State} {a v : Word} (ht : writeReg a v s = .next t) : Grows s t := by
  unfold writeReg at ht
  split at ht
  · cases ht
    exact grows_memWrite s a v
  · cases ht

theorem grows_modifyReg {s t : State} {a clr set : Word} (ht : modifyReg a clr set s = .next t) : Grows s t := by
  unfold modifyReg at ht
  split at ht
  · cases ht
    exact (grows_memRead s a).trans (grows_memWrite _ a _)
  · cases ht

/-- No operation changes the parameters, and each only appends to the trace. -/
theorem grows_exec {i : Instr} {s t : State} (ht : exec i s = .next t) : Grows s t := by
  cases i with
  | wrw addr value => exact grows_writeReg ht
  | rmw addr clr set => exact grows_modifyReg ht
  | cfgout pin =>
    simp only [exec, execCfgout] at ht
    split at ht
    · exact grows_modifyReg ht
    · cases ht
  | _ => exact (quiet_exec s (by simp) (by simp) (by simp) t ht).1

theorem grows_hostTurn {op : Byte} {operands : List Byte} {s t : State} (ht : hostTurn op operands s = .next t) :
    Grows s t := by
  unfold hostTurn at ht
  split at ht
  · split at ht
    · exact grows_exec ht
    · cases ht
      exact ⟨rfl, rfl, _, rfl⟩
  · cases ht
    exact ⟨rfl, rfl, _, rfl⟩

theorem grows_initTurn {s t : State} (ht : initTurn s = .next t) : Grows s t := by
  have advance : Grows s { s with initPc := s.initPc + 1 } := ⟨rfl, rfl, [], by simp⟩
  unfold initTurn at ht
  split at ht
  · split at ht
    · exact advance.trans (grows_exec ht)
    · cases ht
      exact ⟨rfl, rfl, [.timerArm blinkPeriodNs, .status Instr.attach.opcode (.ok none)], by simp⟩
    · cases ht
      exact .rfl
  · cases ht
    exact .rfl

/-- Every turn but a reset only adds to the state it is taken in. -/
theorem grows_takeTurn {turn : Turn} {s t : State} (hne : turn ≠ .reset) (ht : takeTurn turn s = .next t) : Grows s t := by
  cases turn with
  | command op operands => exact (grows_withAgent s .host).trans (grows_hostTurn ht)
  | run a =>
    refine (grows_withAgent s a).trans ?_
    cases a with
    | host =>
      cases ht
      exact .rfl
    | init => exact grows_initTurn ht
    | blink => exact grows_exec (i := .btick) ht
    | alarm => exact grows_exec (i := .apulse) ht
    | display => exact grows_exec (i := .lredraw) ht
    | teardown => exact grows_exec (i := .unmapall) ht
  | reset => exact absurd rfl hne

/-- Settles O57: every turn but a reset only adds (`grows_takeTurn`), and a reset keeps the parameters. -/
theorem traceOnlyGrows : Obligations.TraceOnlyGrows := by
  unfold Obligations.TraceOnlyGrows
  intro s t ht
  by_cases hne : s.nextTurn = .reset
  · rw [step, hne] at ht
    cases ht
    exact ⟨by simp, fun h => absurd hne h⟩
  · have g : Grows s.popTurn t := grows_takeTurn hne ht
    exact ⟨by simpa using g.cfg, fun _ => by simpa using g.trace⟩

/-! ## After the cancel signal (10_state.md R32) -/

/-- A cancelled block is not attached and not about to be. -/
theorem State.Inv.phase_of_cancelled {s : State} (h : s.Inv) (hc : s.cancelled = true) :
    s.phase ≠ .run ∧ s.phase ≠ .reset := by
  rcases h.cancelled_iff.mp hc with hp | hp <;> simp [hp]

/-- A cancelled block has its timer stopped and no work queued. -/
theorem State.Inv.stopped_of_cancelled {s : State} (h : s.Inv) (hc : s.cancelled = true) :
    s.timerArmed = false ∧ s.alarmPending = false ∧ s.redrawPending = false := by
  have hr := (h.phase_of_cancelled hc).1
  exact ⟨Bool.eq_false_iff.mpr fun hx => hr (h.timer_run hx), Bool.eq_false_iff.mpr fun hx => hr (h.alarm_pending_run hx),
    Bool.eq_false_iff.mpr fun hx => hr (h.redraw_pending_run hx)⟩

/-- From `s` to `t` the cancel signal stays, no run starts, and the timer is not armed. -/
structure WindsDown (s t : State) : Prop where
  cancelled : t.cancelled = s.cancelled
  alarm : s.alarmRunning = false → t.alarmRunning = false
  redraw : s.redrawRunning = false → t.redrawRunning = false
  trace : ∃ ev, t.trace = s.trace ++ ev ∧ ∀ ns, Event.timerArm ns ∉ ev

/-- A primitive leaves no TimerArm event. -/
theorem Prim.event_ne_timerArm (c : Config) (a : Agent) (p : Prim) (ns : Word) : Event.timerArm ns ≠ p.event c a := by
  cases p <;> simp [Prim.event]

/-- A cancelled block has left only the commands that answer, a running pulse, a running redraw and the teardown. -/
theorem Effect.windsDown {s t : State} {turn : Turn} (h : s.Inv) (hc : s.cancelled = true) (hne : turn ≠ .reset)
    (e : Effect s turn t) : WindsDown s t := by
  obtain ⟨hrun, hreset⟩ := h.phase_of_cancelled hc
  cases e with
  | reset => exact absurd rfl hne
  | status => exact ⟨rfl, id, id, _, rfl, by simp⟩
  | attach _ _ hp | mapped _ _ hp | mapError _ _ hp | configured _ _ hp | initPrim _ _ hp | finish _ hp =>
    exact absurd hp hreset
  | temperature _ _ _ _ _ hp | humidity _ _ _ _ _ hp | detach hp | tick _ hp | pulseStart _ _ hp
  | redrawStart _ _ hp => exact absurd hp hrun
  | pass => exact ⟨rfl, id, id, [], by simp, by simp⟩
  | pulsePrim p => exact ⟨rfl, id, id, _, rfl, by simp [Prim.event_ne_timerArm]⟩
  | pulseEnd =>
    rw [State.reevaluateAlarm, State.evalAlarm_eq]
    exact ⟨rfl, fun _ => rfl, id, [], by simp, by simp⟩
  | redrawPrim p hrr =>
    exact ⟨rfl, id, fun hx => absurd (hrr.symm.trans hx) (by simp), _, rfl, by simp [Prim.event_ne_timerArm]⟩
  | teardown => exact ⟨rfl, id, id, _, List.append_assoc .., by simp⟩

/-- Settles O56: no effect of a turn re-arms a cancelled block (`Effect.windsDown`), and a block with the invariant that is
still cancelled has its timer stopped and nothing queued. -/
theorem nothingRearmsAfterCancel : Obligations.NothingRearmsAfterCancel := by
  unfold Obligations.NothingRearmsAfterCancel
  intro s t h hc hne ht
  have w := (step_effect h ht).windsDown h.popTurn (by simpa using hc) hne
  have hct : t.cancelled = true := by simpa [hc] using w.cancelled
  obtain ⟨htimer, halarm, hredraw⟩ := (h.step ht).stopped_of_cancelled hct
  exact ⟨hct, htimer, halarm, hredraw, by simpa using w.alarm, by simpa using w.redraw, by simpa using w.trace⟩

/-! ## The alarm pin (10_state.md R41 f) -/

/-- The alarm pin is no display pin and no LED (00_scope.md R6). -/
theorem pinAlarm_apart {c : Config} (h : c.Legal) :
    c.pinAlarm < c.nPins ∧ c.pinAlarm ∉ c.displayPins ∧ c.pinAlarm ∉ c.ledPins := by
  have hn : (c.ledPins ++ c.pinAlarm :: c.displayPins).Nodup := h.pins_nodup
  rw [List.nodup_middle, List.nodup_cons, List.mem_append, not_or] at hn
  obtain ⟨⟨hled, hdisplay⟩, -⟩ := hn
  exact ⟨h.pins_lt _ (by simp [Config.pins]), hdisplay, hled⟩

theorem activeSet_subset_ledPins (c : Config) (b : Band) {p : Nat} (hp : p ∈ activeSet c b) : p ∈ c.ledPins := by
  cases b <;> simp_all [activeSet, Config.ledPins]

/-- A tick's write leaves every pin but the LEDs alone (42_blink.md R183). -/
theorem levelOf_tickPrim_other {s : State} (h : s.cfg.Legal) {p : Nat} (hp : p < s.cfg.nPins) (hne : p ∉ s.cfg.ledPins)
    (l : List Bool) : levelOf ((tickPrim s).latch s.cfg l) p = levelOf l p := by
  have unnamed (b : Band) (v : Bool) :
      levelOf (driveMasked s.cfg.nPins (scWord s.cfg.pinGreen) (bandMask s.cfg b) v l) p = levelOf l p := by
    rw [levelOf_driveMasked hp, if_neg fun hb => hne (activeSet_subset_ledPins _ _ ((bandMask_bits h b p).mp hb))]
  unfold tickPrim
  split
  · simpa only [Prim.latch, ledWord_toNat h, bandMask] using unnamed .all false
  · simpa only [Prim.latch, ledWord_toNat h] using unnamed _ true

/-- The fact of R41 (f) speaks of the alarm pin's level and of the pulse alone. -/
theorem State.AlarmPinInv.congr {s t : State} (h : s.AlarmPinInv) (hl : t.level t.cfg.pinAlarm = s.level s.cfg.pinAlarm)
    (hr : t.alarmRunning = s.alarmRunning) (hpc : t.alarmPc = s.alarmPc) : t.AlarmPinInv := by
  simpa [State.AlarmPinInv, hl, hr, hpc] using h

/-- Outside index 0 to 2 of a pulse the alarm pin is low. -/
theorem State.AlarmPinInv.low {s : State} (h : s.AlarmPinInv) (hpc : s.alarmRunning = true → 2 < s.alarmPc) :
    s.level s.cfg.pinAlarm = false := by
  refine Bool.eq_false_iff.mpr fun hl => ?_
  obtain ⟨hr, hle⟩ := h hl
  exact absurd (hpc hr) (by omega)

theorem State.AlarmPinInv.of_low {s : State} (h : s.level s.cfg.pinAlarm = false) : s.AlarmPinInv :=
  fun hl => absurd (h.symm.trans hl) (by simp)

/-- A primitive of a running pulse: the pin stays high to index 2, is lowered there and stays low (43_alarm.md R203). -/
theorem alarmPinInv_pulsePrim {s : State} {p : Prim} (h : s.Inv) (ha : s.AlarmPinInv) (hr : s.alarmRunning = true)
    (h1 : 1 ≤ s.alarmPc) (h4 : s.alarmPc < 4) (hp : (alarmSeq s.cfg)[s.alarmPc]? = some (.prim p)) :
    State.AlarmPinInv { (s.withAgent .alarm).afterPrims [p] with alarmPc := s.alarmPc + 1 } := by
  obtain hpc | hpc | hpc : s.alarmPc = 1 ∨ s.alarmPc = 2 ∨ s.alarmPc = 3 := by omega
  · exact fun _ => ⟨hr, by simp [hpc]⟩
  · rw [hpc] at hp
    cases hp
    have hlt := (pinAlarm_apart h.legal).1
    exact .of_low ((levelOf_drive h.legal hlt hlt false s.latch).trans (if_pos rfl))
  · rw [hpc] at hp
    cases hp
    exact .of_low (ha.low fun _ => by omega)

/-- Every turn but a reset keeps R41 (f): only the pulse drives the alarm pin. -/
theorem Effect.keeps_alarmPin {s t : State} {turn : Turn} (h : s.Inv) (ha : s.AlarmPinInv) (hne : turn ≠ .reset)
    (e : Effect s turn t) : t.AlarmPinInv := by
  obtain ⟨hlt, hdisplay, hled⟩ := pinAlarm_apart h.legal
  cases e with
  | reset => exact absurd rfl hne
  | status | attach | detach | pass | mapped | mapError | configured | finish | redrawStart => exact ha
  | temperature =>
    rw [State.updateT, State.evalAlarm_eq]
    exact ha
  | humidity =>
    rw [State.updateH, State.scheduleRedraw_eq]
    exact ha
  | initPrim p _ _ hd => exact ha.congr (levelOf_prim_other h.legal hd hlt hdisplay _) rfl rfl
  | redrawPrim p _ _ _ hd => exact ha.congr (levelOf_prim_other h.legal hd hlt hdisplay _) rfl rfl
  | tick =>
    rw [State.rearmTimer_eq]
    exact ha.congr (levelOf_tickPrim_other h.legal hlt hled _) rfl rfl
  | pulseStart => exact fun _ => ⟨rfl, one_le_two⟩
  | pulsePrim p hr _ h1 h4 hp => exact alarmPinInv_pulsePrim h ha hr h1 h4 hp
  | pulseEnd _ _ hpc =>
    rw [State.reevaluateAlarm, State.evalAlarm_eq]
    exact .of_low (ha.low fun _ => by omega)
  | teardown _ hr => exact .of_low (ha.low fun hx => absurd (hr.symm.trans hx) (by simp))

/-- Settles O60: a reset with the latch low meets the fact, and every effect of a turn keeps it. -/
theorem alarmPinOnlyInPulse : Obligations.AlarmPinOnlyInPulse := by
  unfold Obligations.AlarmPinOnlyInPulse
  refine ⟨fun c fsel0 latch0 hl => .of_low hl, fun s t h ha hne ht => ?_⟩
  exact (step_effect h ht).keeps_alarmPin h.popTurn (ha.congr (by simp [State.level]) (by simp) (by simp)) hne

end Sys2Proof.Machine

/-! PROOFS. The register space (20_memory.md): what a write of a function-select word does, and which operations store. -/

namespace Sys2Proof.Machine

/-! ## A write of a function-select word (20_memory.md R72) -/

/-- The pads of the written word's pins follow the new fields, the other pads stay (10_state.md R37). -/
theorem pad_memWrite_fselAddr {s : State} (h : s.cfg.Legal) (hm : s.mem.wf) {i p : Nat} (hi : i < s.cfg.nFsel)
    (hp : p < s.cfg.nPins) (v : Word) :
    (s.memWrite (fselAddr s.cfg i) v).pad p =
      if fselWord p = i then
        (if v.extractLsb' (fselShift p) 3 = s.cfg.fselOutput then .driven (s.level p) else .notDriven)
      else s.pad p := by
  have hlevel : (s.memWrite (fselAddr s.cfg i) v).level p = s.level p := by rw [memWrite_fselAddr h hi]; rfl
  rw [State.pad, State.fselField, State.memWrite_cfg, hlevel]
  by_cases hw : fselWord p = i
  · rw [if_pos hw, hw, fsel_memWrite_same h hm hi]
  · rw [if_neg hw, fsel_memWrite_other h hi (fselWord_lt hp) hw]
    rfl

/-- A second write of the same value leaves only its event. -/
theorem memWrite_memWrite_fselAddr {s : State} (h : s.cfg.Legal) (hm : s.mem.wf) {i : Nat} (hi : i < s.cfg.nFsel)
    (v : Word) :
    (s.memWrite (fselAddr s.cfg i) v).memWrite (fselAddr s.cfg i) v =
      (s.memWrite (fselAddr s.cfg i) v).emit (.regWrite s.agent (fselAddr s.cfg i) v) := by
  have again := memWrite_fselAddr (s := s.memWrite (fselAddr s.cfg i) v) (by simpa using h) (by simpa using hi) v
  rw [State.memWrite_cfg] at again
  rw [again, memWrite_fselAddr h hi, State.emit]
  simp only [Memory.writeWord_writeWord hm]

/-- Settles O13: the write is `State.memWrite` at the word's own address, whose effect on words, bytes and pads the lemmas
above say. -/
theorem writeFselWord : Obligations.WriteFselWord := by
  unfold Obligations.WriteFselWord
  intro s i v h hm hi ha
  refine ⟨s.memWrite (fselAddr s.cfg i) v, writeReg_mapped ha v, ?_, fsel_memWrite_same h hm hi v,
    fun k hk hne => fsel_memWrite_other h hi hk hne v, wf_memEffect _ _ _ hm, fun b hb => ?_,
    fun p hp => pad_memWrite_fselAddr h hm hi hp v, ?_⟩
  · rw [memWrite_fselAddr h hi]
  · rw [memWrite_fselAddr h hi]
    exact Memory.readByte_writeWord_other _ v hb
  · have still : fselAddr s.cfg i ∈ (s.memWrite (fselAddr s.cfg i) v).mapped := by simpa using ha
    exact (writeReg_mapped still v).trans (congrArg _ (memWrite_memWrite_fselAddr h hm hi v))

/-! ## Which operations store (20_memory.md R72 to R76) -/

/-- Settles O51: every operation only grows the state (`grows_exec`), and all but the three stores are quiet
(`quiet_exec`). -/
theorem otherFormsStoreNothing : Obligations.OtherFormsStoreNothing := by
  unfold Obligations.OtherFormsStoreNothing
  intro i s t h ht
  have g := grows_exec ht
  refine ⟨g.cfg, g.schedule, fun hw hr hc a => ?_⟩
  have hmem : t.mem = s.mem := (quiet_exec s hw hr hc t ht).2 h
  rw [hmem]

end Sys2Proof.Machine

/-! PROOFS. Operation words (30_encoding.md): a word decodes to an instruction exactly when it is that instruction's
encoding. -/

namespace Sys2Proof

/-! ## What a format says its operand bytes are (30_encoding.md R121 to R125) -/

/-- Instructions a format builds, each with the operand bytes that spell it. -/
inductive Format.Spells : Format → Instr → List Byte → Prop where
  | z (i : Instr) : Spells (.z i) i []
  | w (build : Word → Instr) (a : Word) : Spells (.w build) (build a) (wordBytes a)
  | ww (build : Word → Word → Instr) (a b : Word) : Spells (.ww build) (build a b) (wordBytes a ++ wordBytes b)
  | www (build : Word → Word → Word → Instr) (a b c : Word) :
    Spells (.www build) (build a b c) (wordBytes a ++ (wordBytes b ++ wordBytes c))
  | p (build : Byte → Instr) (pin : Byte) : Spells (.p build) (build pin) [pin]
  | m (build : Byte → Word → Instr) (w : Byte) (mask : Word) : Spells (.m build) (build w mask) (w :: wordBytes mask)
  | n (build : Bool → Nibble → Instr) (m : Bool) (n : Nibble) : Spells (.n build) (build m n) [nibbleByte m n]
  | b (build : Byte → Instr) (b : Byte) : Spells (.b build) (build b) [b]
  | t (build : List Byte → Instr) (text : List Byte) (fits : textFits text = true) :
    Spells (.t build) (build text) (textBytes text)

/-- Reading back what a format spells, whatever bytes follow. -/
theorem Format.Spells.decodeOperands_append {f : Format} {i : Instr} {operands : List Byte} (h : f.Spells i operands)
    (op : Byte) (rest : List Byte) : decodeOperands op (operands ++ rest) f = .ok (i, rest) := by
  cases h with
  | z => rfl
  | w | ww | www | m => simp [decodeOperands, takeByte, takeWord_wordBytes]
  | p | b => rfl
  | n build m n => exact readNibbleOperand_nibbleByte build op m n rest
  | t build text fits => simp [decodeOperands, textBytes, takeByte, lengthByte_toNat fits, takeText_textBytes]

theorem readNibbleOperand_eq_ok {build : Bool → Nibble → Instr} {op b : Byte} {tail rest : List Byte} {i : Instr}
    (h : readNibbleOperand build op b tail = .ok (i, rest)) : ∃ m n, b = nibbleByte m n ∧ i = build m n ∧ tail = rest := by
  unfold readNibbleOperand at h
  split at h
  · next hb =>
    cases h
    exact ⟨_, _, (nibbleByte_of_fields b hb).symm, rfl, rfl⟩
  · cases h

/-- A text whose length is a byte's value fits, and that byte is its length byte. -/
theorem textBytes_of_length {text : List Byte} {len : Byte} (h : text.length = len.toNat) :
    textFits text = true ∧ textBytes text = len :: text := by
  have := len.isLt
  exact ⟨by simp [textFits]; omega, by simp [textBytes, h]⟩

/-- The operand bytes a format reads spell the instruction it gives. -/
theorem decodeOperands_eq_ok {op : Byte} {bytes rest : List Byte} {f : Format} {i : Instr}
    (h : decodeOperands op bytes f = .ok (i, rest)) : ∃ operands, f.Spells i operands ∧ bytes = operands ++ rest := by
  cases f with
  | z j =>
    cases h
    exact ⟨[], .z _, rfl⟩
  | w build =>
    simp only [decodeOperands] at h
    split at h
    case h_1 a _ ha =>
      cases h
      exact ⟨_, .w build a, takeWord_eq_some ha⟩
    all_goals cases h
  | ww build =>
    simp only [decodeOperands] at h
    repeat' split at h
    case h_1 a _ ha _ b _ hb =>
      cases h
      exact ⟨_, .ww build a b, by simp [takeWord_eq_some ha, takeWord_eq_some hb]⟩
    all_goals cases h
  | www build =>
    simp only [decodeOperands] at h
    repeat' split at h
    case h_1 a _ ha _ b _ hb _ c _ hc =>
      cases h
      exact ⟨_, .www build a b c, by simp [takeWord_eq_some ha, takeWord_eq_some hb, takeWord_eq_some hc]⟩
    all_goals cases h
  | p build =>
    simp only [decodeOperands] at h
    split at h
    case h_1 pin _ hpin =>
      cases h
      exact ⟨_, .p build pin, takeByte_eq_some hpin⟩
    all_goals cases h
  | m build =>
    simp only [decodeOperands] at h
    repeat' split at h
    case h_1 w _ hw _ mask _ hmask =>
      cases h
      exact ⟨_, .m build w mask, by simp [takeByte_eq_some hw, takeWord_eq_some hmask]⟩
    all_goals cases h
  | n build =>
    simp only [decodeOperands] at h
    split at h
    case h_1 b _ hb =>
      obtain ⟨m, n, rfl, rfl, rfl⟩ := readNibbleOperand_eq_ok h
      exact ⟨_, .n build m n, takeByte_eq_some hb⟩
    case h_2 => cases h
  | b build =>
    simp only [decodeOperands] at h
    split at h
    case h_1 b _ hb =>
      cases h
      exact ⟨_, .b build b, takeByte_eq_some hb⟩
    all_goals cases h
  | t build =>
    simp only [decodeOperands] at h
    repeat' split at h
    case h_1 len _ hlen _ text _ htext =>
      cases h
      obtain ⟨hl, happ⟩ := takeText_eq_some htext
      obtain ⟨fits, hbytes⟩ := textBytes_of_length hl
      exact ⟨_, .t build text fits, by simp [takeByte_eq_some hlen, happ, hbytes]⟩
    all_goals cases h

/-! ## The rows of the opcode map (30_encoding.md R128) -/

/-- A row's format builds only instructions of the row's opcode, from the operand bytes the encoder writes. -/
theorem Format.Spells.of_row {op : Byte} {f : Format} (hrow : (op, f) ∈ opcodeRows) {i : Instr} {operands : List Byte}
    (h : f.Spells i operands) : op = i.opcode ∧ operands = i.operandBytes ∧ i.wellFormed = true := by
  simp only [opcodeRows, controlRows, registerRows, actuatorRows, List.cons_append, List.nil_append, List.mem_cons,
    Prod.mk.injEq, List.not_mem_nil, or_false] at hrow
  casesm* _ ∨ _ <;> obtain ⟨rfl, rfl⟩ := ‹_ ∧ _› <;> cases h <;> exact ⟨rfl, rfl, by simp [Instr.wellFormed, *]⟩

/-- Every well-formed instruction is spelt by its operand bytes in the format of its opcode's row. -/
theorem exists_row_spells {i : Instr} (h : i.wellFormed = true) :
    ∃ f, opcodeRows.lookup i.opcode = some f ∧ f.Spells i i.operandBytes := by
  refine ⟨_, lookup_opcode i, ?_⟩
  cases i with
  | settx text | sethx text | lstr text => exact .t _ text h
  | _ => constructor

/-! ## Encoding and decoding (30_encoding.md R120 to R129) -/

/-- A well-formed instruction's word decodes to it, whatever bytes follow. -/
theorem decode_encode {i : Instr} (h : i.wellFormed = true) (rest : List Byte) :
    decode (encode i ++ rest) = .ok (i, rest) := by
  obtain ⟨f, hrow, hspells⟩ := exists_row_spells h
  simpa only [encode, List.cons_append, decode, hrow] using hspells.decodeOperands_append i.opcode rest

/-- Bytes that decode begin with the word of the well-formed instruction they decode to. -/
theorem encode_of_decode {bytes rest : List Byte} {i : Instr} (h : decode bytes = .ok (i, rest)) :
    i.wellFormed = true ∧ bytes = encode i ++ rest := by
  cases bytes with
  | nil => cases h
  | cons op bytes =>
    obtain ⟨f, hrow, hread⟩ := decode_eq_ok h
    obtain ⟨operands, hspells, rfl⟩ := decodeOperands_eq_ok hread
    obtain ⟨rfl, rfl, hwf⟩ := hspells.of_row hrow
    exact ⟨hwf, rfl⟩

/-- Bytes presented as one word decode exactly if they are a well-formed instruction's encoding, no byte more. -/
theorem decodeWhole_eq_ok_iff {op : Byte} {operands : List Byte} {i : Instr} :
    decodeWhole op operands = .ok i ↔ i.wellFormed = true ∧ op :: operands = encode i := by
  constructor
  · intro h
    simpa using encode_of_decode (decodeWhole_eq_ok h)
  · rintro ⟨hwf, he⟩
    have hd := decode_encode hwf []
    rw [List.append_nil, ← he] at hd
    simp [decodeWhole, hd]

/-- Settles O1: each format reads back what it spells (`Format.Spells.decodeOperands_append`), and every opcode's row has
the format of its operation. -/
theorem decodeOfEncode : Obligations.DecodeOfEncode := by
  unfold Obligations.DecodeOfEncode
  exact fun i h => ⟨decode_encode h, decodeWhole_eq_ok_iff.mpr ⟨h, rfl⟩⟩

/-- Settles O2: what a format reads it also spells (`decodeOperands_eq_ok`), and a row builds only instructions of its own
opcode. -/
theorem encodeOfDecode : Obligations.EncodeOfDecode := by
  unfold Obligations.EncodeOfDecode
  exact fun _ _ _ => encode_of_decode

/-- Settles O3, by running the decoder on each word: the bytes are written out by hand, apart from the encoder. -/
theorem writtenWordsDecode : Obligations.WrittenWordsDecode := by
  unfold Obligations.WrittenWordsDecode
  exact ⟨rfl, rfl, rfl, rfl, rfl, rfl, rfl, rfl, rfl, rfl, rfl, rfl, rfl⟩

end Sys2Proof

/-! PROOFS. Words the command port refuses (30_encoding.md R129, R130, 60_exceptions.md R309). -/

namespace Sys2Proof.Machine

/-- The opcodes of port class H (30_encoding.md R128). -/
def hostOpcodes : List Byte := [0x01, 0x02, 0x03, 0x04, 0x06, 0x07]

theorem opcode_mem_hostOpcodes_iff (i : Instr) : i.opcode ∈ hostOpcodes ↔ i.port = .host := by
  cases i <;> simp [Instr.opcode, Instr.port, hostOpcodes]

/-- A word is carried out only if it decodes and its opcode is of port class H. -/
theorem hostTurn_badCommand {op : Byte} {operands : List Byte}
    (h : ∀ i, decodeWhole op operands = .ok i → op ∉ hostOpcodes) (s : State) :
    hostTurn op operands s = .next (s.endWith op (.badCommand op)) := by
  unfold hostTurn
  split
  · next i hi =>
    obtain ⟨-, he⟩ := decodeWhole_eq_ok_iff.mp hi
    obtain ⟨rfl, -⟩ := List.cons.inj he
    split
    · next hport => exact absurd ((opcode_mem_hostOpcodes_iff i).mpr hport) (h i hi)
    · rfl
  · rfl

/-- Settles O4: none of the three kinds of word decodes to an instruction of port class H (`hostTurn_badCommand`). -/
theorem illegalWordsAreBadCommands : Obligations.IllegalWordsAreBadCommands := by
  unfold Obligations.IllegalWordsAreBadCommands
  intro s op operands rest hs hbad
  rw [step_of_schedule hs]
  refine hostTurn_badCommand (fun i hi hop => ?_) _
  obtain hspare | hinternal | ⟨e, he⟩ := hbad
  · have listed : ∀ b ∈ hostOpcodes, b ∈ opcodeRows.map Prod.fst := by decide
    exact hspare (listed op hop)
  · exact (by decide : ∀ b ∈ hostOpcodes, b ∉ _) op hop hinternal
  · cases he.symm.trans hi

end Sys2Proof.Machine

/-! PROOFS. The Register Access Layer (40_register_access.md): mapping, reads, writes, the read-modify-write, and the
accesses that violate the contract. -/

namespace Sys2Proof.Machine

/-! ## Addresses outside a bank (20_memory.md R76) -/

theorem target_eq_set {c : Config} (h : c.Legal) {a : Word} {j : Nat} (ht : target c a = .set j) :
    j < c.nSet ∧ a = setAddr c j := by
  unfold target at ht
  split at ht
  · cases ht
  · split at ht
    · next k hk =>
      obtain ⟨hlt, ha⟩ := bankIndex_some hk
      cases ht
      exact ⟨hlt, BitVec.eq_of_toNat_eq (by rw [setAddr_toNat h hlt, ha])⟩
    · split at ht <;> cases ht

theorem target_eq_clr {c : Config} (h : c.Legal) {a : Word} {j : Nat} (ht : target c a = .clr j) :
    j < c.nSet ∧ a = clrAddr c j := by
  unfold target at ht
  split at ht
  · cases ht
  · split at ht
    · cases ht
    · split at ht
      · next k hk =>
        obtain ⟨hlt, ha⟩ := bankIndex_some hk
        cases ht
        exact ⟨hlt, BitVec.eq_of_toNat_eq (by rw [clrAddr_toNat h hlt, ha])⟩
      · cases ht

theorem target_ne_fsel {c : Config} (h : c.Legal) {a : Word} (hf : ∀ i, i < c.nFsel → a ≠ fselAddr c i) (i : Nat) :
    target c a ≠ .fsel i := fun ht => by
  obtain ⟨hi, he⟩ := target_eq_fsel h ht
  exact hf i hi he

/-- At an address that is no word of the three banks the register map has nothing. -/
theorem target_eq_other {c : Config} (h : c.Legal) {a : Word} (hf : ∀ i, i < c.nFsel → a ≠ fselAddr c i)
    (hsc : ∀ j, j < c.nSet → a ≠ setAddr c j ∧ a ≠ clrAddr c j) : target c a = .other := by
  cases ht : target c a with
  | fsel i => exact absurd ht (target_ne_fsel h hf i)
  | set j =>
    obtain ⟨hj, he⟩ := target_eq_set h ht
    exact absurd he (hsc j hj).1
  | clr j =>
    obtain ⟨hj, he⟩ := target_eq_clr h ht
    exact absurd he (hsc j hj).2
  | other => rfl

section NotFsel

variable {c : Config} {a : Word} (h : c.Legal) (hf : ∀ i, i < c.nFsel → a ≠ fselAddr c i)

include h hf

theorem memEffect_of_ne_fselAddr (v : Word) (m : Memory) : memEffect c a v m = m := by
  unfold memEffect
  split
  · next i ht => exact absurd ht (target_ne_fsel h hf i)
  · rfl
  · rfl
  · rfl

theorem drawsOfRead_of_ne_fselAddr : drawsOfRead c a = 1 := by
  unfold drawsOfRead
  split
  · next i ht => exact absurd ht (target_ne_fsel h hf i)
  · rfl
  · rfl
  · rfl

end NotFsel

/-- Off the function-select bank a read finds a free word (20_memory.md R75, R76; log 4). -/
theorem peek_of_ne_fselAddr {s : State} {a : Word} (h : s.cfg.Legal) (hf : ∀ i, i < s.cfg.nFsel → a ≠ fselAddr s.cfg i) :
    s.peek a = Config.freeWord s.draws := by
  unfold State.peek
  split
  · next i ht => exact absurd ht (target_ne_fsel h hf i)
  · rfl
  · rfl
  · rfl

/-- A read off the function-select bank, all of it. -/
theorem memRead_of_ne_fselAddr {s : State} {a : Word} (h : s.cfg.Legal)
    (hf : ∀ i, i < s.cfg.nFsel → a ≠ fselAddr s.cfg i) :
    s.memRead a =
      { s with draws := s.draws + 1, trace := s.trace ++ [.regRead s.agent a (Config.freeWord s.draws)] } := by
  unfold State.memRead State.emit
  rw [drawsOfRead_of_ne_fselAddr h hf, peek_of_ne_fselAddr h hf]

/-- A write outside the banks, all of it (20_memory.md R76). -/
theorem memWrite_of_other {s : State} {a : Word} (ht : target s.cfg a = .other) (v : Word) :
    s.memWrite a v = s.emit (.regWrite s.agent a v) := by
  unfold State.memWrite memEffect latchEffect
  rw [ht]

/-! ## Writes of a SET or a CLR word (20_memory.md R73, R74) -/

theorem level_memWrite_setAddr {s : State} (h : s.cfg.Legal) {j p : Nat} (hj : j < s.cfg.nSet) (hp : p < s.cfg.nPins)
    (mask : Word) :
    (s.memWrite (setAddr s.cfg j) mask).level p =
      if scWord p = j ∧ mask.getLsbD (scBit p) = true then true else s.level p := by
  rw [memWrite_setAddr h hj]
  exact levelOf_driveMasked hp j mask true s.latch

theorem level_memWrite_clrAddr {s : State} (h : s.cfg.Legal) {j p : Nat} (hj : j < s.cfg.nSet) (hp : p < s.cfg.nPins)
    (mask : Word) :
    (s.memWrite (clrAddr s.cfg j) mask).level p =
      if scWord p = j ∧ mask.getLsbD (scBit p) = true then false else s.level p := by
  rw [memWrite_clrAddr h hj]
  exact levelOf_driveMasked hp j mask false s.latch

/-- Settles O14: a mapped WRW is `State.memWrite`, whose effect on a SET word, on a CLR word and outside the banks the
lemmas above say. -/
theorem writeSetClearWord : Obligations.WriteSetClearWord := by
  unfold Obligations.WriteSetClearWord
  intro s v h
  refine ⟨fun j hj ha => ⟨_, writeReg_mapped ha v, ?_, ?_, fun p hp => level_memWrite_setAddr h hj hp v⟩,
    fun j hj ha => ⟨_, writeReg_mapped ha v, ?_, ?_, fun p hp => level_memWrite_clrAddr h hj hp v⟩,
    fun a ha hf hsc => ?_⟩
  · rw [memWrite_setAddr h hj]
  · rw [memWrite_setAddr h hj]
    exact driveMasked_length ..
  · rw [memWrite_clrAddr h hj]
  · rw [memWrite_clrAddr h hj]
    exact driveMasked_length ..
  · exact (writeReg_mapped ha v).trans (congrArg _ (memWrite_of_other (target_eq_other h hf hsc) v))

/-! ## The read-modify-write (R145, R146) -/

/-- A read and then a write of one address, all of it. -/
theorem memWrite_memRead (s : State) (a v : Word) :
    (s.memRead a).memWrite a v =
      { s with
        mem := memEffect s.cfg a v s.mem
        latch := latchEffect s.cfg a v s.latch
        draws := s.draws + drawsOfRead s.cfg a
        trace := s.trace ++ [.regRead s.agent a (s.peek a), .regWrite s.agent a v] } := by
  simp [State.memWrite, State.memRead, State.emit]

/-- An RMW of a function-select word leaves `rmwWord` in it. -/
theorem fsel_rmw_same {s : State} (h : s.cfg.Legal) (hm : s.mem.wf) {i : Nat} (hi : i < s.cfg.nFsel) (clr set : Word) :
    ((s.memRead (fselAddr s.cfg i)).memWrite (fselAddr s.cfg i)
      (rmwWord (s.peek (fselAddr s.cfg i)) clr set)).fsel i = rmwWord (s.fsel i) clr set := by
  rw [peek_fselAddr h hi]
  exact fsel_memWrite_same (s := s.memRead (fselAddr s.cfg i)) h hm hi _

/-- An RMW of a function-select word leaves every other one alone. -/
theorem fsel_rmw_other {s : State} (h : s.cfg.Legal) {i k : Nat} (hi : i < s.cfg.nFsel) (hk : k < s.cfg.nFsel)
    (hne : k ≠ i) (v : Word) :
    ((s.memRead (fselAddr s.cfg i)).memWrite (fselAddr s.cfg i) v).fsel k = s.fsel k :=
  fsel_memWrite_other (s := s.memRead (fselAddr s.cfg i)) h hi hk hne v

/-- Settles O15: a mapped RMW is `State.memRead` and then `State.memWrite` of `rmwWord`; the cases are those of the address
read. -/
theorem readModifyWrite : Obligations.ReadModifyWrite := by
  unfold Obligations.ReadModifyWrite
  intro s a clr set ha
  refine ⟨_, modifyReg_mapped ha clr set, ?_, fun b hb => ?_, fun h hm i hi he => ?_, fun h hf => ?_⟩
  · rw [memWrite_memRead]
    rfl
  · exact readByte_memEffect_other s.cfg a _ s.mem hb
  · subst he
    refine ⟨peek_fselAddr h hi, fsel_rmw_same h hm hi clr set, ?_, ?_, fun k hk hne => fsel_rmw_other h hi hk hne _⟩
    · exact latchEffect_fselAddr h hi _ _
    · rw [State.memWrite_draws, State.memRead_draws, drawsOfRead_fselAddr h hi, Nat.add_zero]
  · refine ⟨peek_of_ne_fselAddr h hf, memEffect_of_ne_fselAddr h hf _ _, ?_⟩
    rw [State.memWrite_draws, State.memRead_draws, drawsOfRead_of_ne_fselAddr h hf]

section Isolation

variable (old clr set : Word)

/-- A bit in neither mask stays. -/
theorem rmwWord_outside : rmwWord old clr set &&& ~~~(clr ||| set) = old &&& ~~~(clr ||| set) := by
  ext b hb
  simp only [rmwWord, BitVec.getElem_and, BitVec.getElem_or, BitVec.getElem_not]
  cases clr[b] <;> cases set[b] <;> simp

/-- A bit in the clear mask alone becomes 0. -/
theorem rmwWord_cleared : rmwWord old clr set &&& clr &&& ~~~set = 0 := by
  ext b hb
  simp only [rmwWord, BitVec.getElem_and, BitVec.getElem_or, BitVec.getElem_not]
  cases clr[b] <;> cases set[b] <;> simp

/-- A bit in the set mask becomes 1, in the clear mask or not. -/
theorem rmwWord_set : rmwWord old clr set &&& set = set := by
  ext b hb
  simp only [rmwWord, BitVec.getElem_and, BitVec.getElem_or]
  cases set[b] <;> simp

end Isolation

theorem modifyReg_unmapped {s : State} {a : Word} (ha : a ∉ s.mapped) (clr set : Word) :
    modifyReg a clr set s = .fault (.unmappedAccess a) := by
  rw [modifyReg, if_neg ha]

/-- A CFGOUT that completes had an existing pin, and left what R162 says. -/
theorem eq_afterCfgout_of_exec {s t : State} {p : Byte} (h : s.cfg.Legal) (ht : exec (.cfgout p) s = .next t) :
    p.toNat < s.cfg.nPins ∧ t = s.afterCfgout p.toNat := by
  simp only [exec, execCfgout] at ht
  split at ht
  · next hp =>
    by_cases hm : fselAddr s.cfg (fselWord p.toNat) ∈ s.mapped
    · rw [modifyReg_fselAddr h (fselWord_lt hp) hm] at ht
      cases ht
      exact ⟨hp, rfl⟩
    · rw [modifyReg_unmapped hm] at ht
      cases ht
  · cases ht

/-- Settles O16: the law is the law of `rmwWord`, which an RMW leaves in its word; CFGOUT is such an RMW of its pin's
field. -/
theorem registerWriteIsolation : Obligations.RegisterWriteIsolation := by
  unfold Obligations.RegisterWriteIsolation
  refine ⟨fun old clr set => ⟨rmwWord_outside .., rmwWord_cleared .., rmwWord_set ..⟩,
    fun s t i clr set h hm hi ha ht => ?_, fun s t p q h hm ht hq hne => ?_⟩
  · cases (modifyReg_mapped ha clr set).symm.trans ht
    rw [fsel_rmw_same h hm hi clr set]
    exact ⟨rmwWord_outside .., rmwWord_cleared .., rmwWord_set .., fun k hk hne => fsel_rmw_other h hi hk hne _⟩
  · obtain ⟨hp, rfl⟩ := eq_afterCfgout_of_exec h ht
    exact fselField_afterCfgout_other h hm hp hq hne

/-! ## MAP and UNMAP (R141, R142) -/

section Map

variable {s : State} {a : Word}

theorem mapWord_misaligned (h4 : a.toNat % 4 ≠ 0) : mapWord a s = .next (s.raiseMapError a) := by
  rw [mapWord, if_pos h4]

theorem mapWord_mapped (h4 : a.toNat % 4 = 0) (ha : a ∈ s.mapped) : mapWord a s = .fault (.doubleMap a) := by
  rw [mapWord, if_neg (not_not.mpr h4), if_pos ha]

theorem mapWord_unmappable (h4 : a.toNat % 4 = 0) (ha : a ∉ s.mapped) (hu : a ∈ s.cfg.unmappable) :
    mapWord a s = .next (s.raiseMapError a) := by
  rw [mapWord, if_neg (not_not.mpr h4), if_neg ha, if_pos hu]

theorem mapWord_mappable (h4 : a.toNat % 4 = 0) (ha : a ∉ s.mapped) (hu : a ∉ s.cfg.unmappable) :
    mapWord a s = .next (State.emit (.map a true) { s with mapped := insertAddr a s.mapped }) := by
  rw [mapWord, if_neg (not_not.mpr h4), if_neg ha, if_neg hu]

/-- Outside an attach a MapError is its event alone (log 13). -/
theorem raiseMapError_of_idle (hi : s.initRunning = false) : s.raiseMapError a = s.emit (.map a false) := by
  simp [State.raiseMapError, hi]

theorem unmapWord_mapped (ha : a ∈ s.mapped) :
    unmapWord a s = .next (State.emit (.unmap a) { s with mapped := removeAddr a s.mapped }) := by
  rw [unmapWord, if_pos ha]

theorem unmapWord_unmapped (ha : a ∉ s.mapped) : unmapWord a s = .fault (.badUnmap a) := by rw [unmapWord, if_neg ha]

end Map

/-- Settles O9: one lemma of `mapWord` for each of its four outcomes. -/
theorem mapResult : Obligations.MapResult := by
  unfold Obligations.MapResult
  refine fun s a => ⟨fun h4 hi => ?_, mapWord_mapped, fun h4 ha hu hi => ?_,
    fun h4 ha hu => ⟨_, mapWord_mappable h4 ha hu, rfl, fun b => mem_insertAddr⟩⟩
  · exact (mapWord_misaligned h4).trans (congrArg _ (raiseMapError_of_idle hi))
  · exact (mapWord_unmappable h4 ha hu).trans (congrArg _ (raiseMapError_of_idle hi))

/-- Settles O11: one lemma of `unmapWord` for each of its two outcomes. -/
theorem unmapResult : Obligations.UnmapResult := by
  unfold Obligations.UnmapResult
  exact fun s a => ⟨fun ha => ⟨_, unmapWord_mapped ha, rfl, fun b => mem_removeAddr⟩, unmapWord_unmapped⟩

/-! ## RDW (R143) -/

/-- Settles O12: a mapped RDW is `State.memRead`, of a function-select word or of another address. -/
theorem readRegister : Obligations.ReadRegister := by
  unfold Obligations.ReadRegister
  refine fun s h => ⟨fun i hi ha => ?_, fun a ha hf => ?_⟩
  · exact (readReg_mapped ha).trans (congrArg _ (memRead_fselAddr h hi))
  · exact (readReg_mapped ha).trans (congrArg _ (memRead_of_ne_fselAddr h hf))

/-! ## Contract violations (60_exceptions.md R306, R310, R321) -/

theorem readReg_unmapped {s : State} {a : Word} (ha : a ∉ s.mapped) : readReg a s = .fault (.unmappedAccess a) := by
  rw [readReg, if_neg ha]

theorem writeReg_unmapped {s : State} {a : Word} (ha : a ∉ s.mapped) (v : Word) :
    writeReg a v s = .fault (.unmappedAccess a) := by
  rw [writeReg, if_neg ha]

theorem execCfgout_badPin {s : State} {p : Byte} (hp : s.cfg.nPins ≤ p.toNat) : execCfgout p s = .fault (.badPin p) := by
  rw [execCfgout, if_neg (Nat.not_lt.mpr hp)]

theorem execCfgout_unmapped {s : State} {p : Byte} (hp : p.toNat < s.cfg.nPins)
    (ha : fselAddr s.cfg (fselWord p.toNat) ∉ s.mapped) :
    execCfgout p s = .fault (.unmappedAccess (fselAddr s.cfg (fselWord p.toNat))) := by
  rw [execCfgout, if_pos hp, modifyReg_unmapped ha]

section PinWrites

variable {s : State} {w : Byte} (mask : Word)

theorem setPins_badPin (hw : s.cfg.nSet ≤ w.toNat) : setPins w mask s = .fault (.badPin w) := by
  rw [setPins, if_neg (Nat.not_lt.mpr hw)]

theorem clearPins_badPin (hw : s.cfg.nSet ≤ w.toNat) : clearPins w mask s = .fault (.badPin w) := by
  rw [clearPins, if_neg (Nat.not_lt.mpr hw)]

theorem setPins_unmapped (hw : w.toNat < s.cfg.nSet) (ha : setAddr s.cfg w.toNat ∉ s.mapped) :
    setPins w mask s = .fault (.unmappedAccess (setAddr s.cfg w.toNat)) := by
  rw [setPins, if_pos hw, writeReg_unmapped ha]

theorem clearPins_unmapped (hw : w.toNat < s.cfg.nSet) (ha : clrAddr s.cfg w.toNat ∉ s.mapped) :
    clearPins w mask s = .fault (.unmappedAccess (clrAddr s.cfg w.toNat)) := by
  rw [clearPins, if_pos hw, writeReg_unmapped ha]

end PinWrites

/-- Settles O17: each fault is the failing guard of its operation, the index checked before the mapping. -/
theorem contractFaults : Obligations.ContractFaults := by
  unfold Obligations.ContractFaults
  exact fun s => ⟨fun a ha => ⟨readReg_unmapped ha, writeReg_unmapped ha, modifyReg_unmapped ha⟩,
    fun p hp => execCfgout_badPin hp, fun p hp ha => execCfgout_unmapped hp ha,
    fun w mask hw => ⟨setPins_badPin mask hw, clearPins_badPin mask hw⟩,
    fun w mask hw => ⟨setPins_unmapped mask hw, clearPins_unmapped mask hw⟩⟩

end Sys2Proof.Machine

/-! PROOFS. The GPIO Pin Configurator (41_gpio_pin.md): what CFGOUT, SETP and CLRP change, pin writes that commute, and
which steps touch a function-select word or a latch. -/

namespace Sys2Proof.Machine

/-! ## CFGOUT (R162) -/

theorem exec_cfgout_mapped {s : State} (h : s.cfg.Legal) {p : Byte} (hp : p.toNat < s.cfg.nPins)
    (hm : fselAddr s.cfg (fselWord p.toNat) ∈ s.mapped) : exec (.cfgout p) s = .next (s.afterCfgout p.toNat) := by
  show execCfgout p s = _
  simpa only [BitVec.ofNat_toNat, BitVec.setWidth_eq] using execCfgout_mapped h hp hm

/-- The configured pin's pad drives its latch (10_state.md R37). -/
theorem pad_afterCfgout_same {s : State} (hm : s.mem.wf) (p : Nat) :
    (s.afterCfgout p).pad p = .driven (s.level p) :=
  if_pos (fselField_afterCfgout_same hm p)

theorem pad_afterCfgout_other {s : State} (h : s.cfg.Legal) (hm : s.mem.wf) {p q : Nat} (hp : p < s.cfg.nPins)
    (hq : q < s.cfg.nPins) (hne : q ≠ p) : (s.afterCfgout p).pad q = s.pad q := by
  rw [State.pad, fselField_afterCfgout_other h hm hp hq hne]
  rfl

/-- Bits 31 and 30 of the word are in no pin's field (30_encoding.md R101). -/
theorem spareBits_afterCfgout {s : State} (hm : s.mem.wf) (p : Nat) {b : Nat} (hb : 30 ≤ b) :
    ((s.afterCfgout p).fsel (fselWord p)).getLsbD b = (s.fsel (fselWord p)).getLsbD b := by
  have := fselShift_le p
  rw [fsel_afterCfgout_same hm p, bit_rmw_other _ _ _ _ (by omega)]

/-- Settles O18: a mapped CFGOUT leaves `State.afterCfgout`, whose words, fields and pads the lemmas of `afterCfgout`
say. -/
theorem configureOutput : Obligations.ConfigureOutput := by
  unfold Obligations.ConfigureOutput
  intro s p h hm hp ha
  exact ⟨s.afterCfgout p.toNat, rmwWord (s.fsel (fselWord p.toNat)) (fselMask p.toNat) (fselOut s.cfg p.toNat), rfl,
    exec_cfgout_mapped h hp ha, rfl, fsel_afterCfgout_same hm p.toNat, fselField_afterCfgout_same hm p.toNat,
    pad_afterCfgout_same hm p.toNat,
    fun q hq hne => ⟨fselField_afterCfgout_other h hm hp hq hne, pad_afterCfgout_other h hm hp hq hne⟩,
    fun b hb _ => spareBits_afterCfgout hm p.toNat hb, fun k hk hne => fsel_afterCfgout_other h hp hk hne,
    wf_afterCfgout hm p.toNat, fun b hb => Memory.readByte_writeWord_other s.mem _ hb⟩

/-! ## SETP and CLRP (R163, R164) -/

/-- Settles O19: a mapped SETP or CLRP is one `State.memWrite` of its set or clear word, whose effect on each level
`level_memWrite_setAddr` and `level_memWrite_clrAddr` say. -/
theorem setAndClearPins : Obligations.SetAndClearPins := by
  unfold Obligations.SetAndClearPins
  intro s w mask h hw
  refine ⟨fun ha => ⟨_, setPins_mapped hw ha mask, ?_, ?_, fun p hp => level_memWrite_setAddr h hw hp mask⟩,
    fun ha => ⟨_, clearPins_mapped hw ha mask, ?_, ?_, fun p hp => level_memWrite_clrAddr h hw hp mask⟩⟩
  · rw [memWrite_setAddr h hw]
  · rw [memWrite_setAddr h hw]
    exact driveMasked_length ..
  · rw [memWrite_clrAddr h hw]
  · rw [memWrite_clrAddr h hw]
    exact driveMasked_length ..

/-! ## Pin writes that commute (R169) -/

/-- A write of a mask to a set or a clear word. -/
def pinWrite (v : Bool) (w : Byte) (mask : Word) : Prim := if v then .setp w mask else .clrp w mask

theorem pinWrite_toInstr (v : Bool) (w : Byte) (mask : Word) :
    (pinWrite v w mask).toInstr = if v then .setp w mask else .clrp w mask := by
  cases v <;> rfl

theorem pinWrite_ready {c : Config} {mapped : List Word} {v : Bool} {w : Byte} (hw : w.toNat < c.nSet)
    (ha : (if v then setAddr c w.toNat else clrAddr c w.toNat) ∈ mapped) (mask : Word) :
    (pinWrite v w mask).Ready c mapped := by
  cases v <;> exact ⟨hw, ha⟩

theorem pinWrite_latch (c : Config) (v : Bool) (w : Byte) (mask : Word) (l : List Bool) :
    (pinWrite v w mask).latch c l = driveMasked c.nPins w.toNat mask v l := by
  cases v <;> rfl

/-- Primitives presented as operations run as primitives. -/
theorem execAll_toInstr (ps : List Prim) (s : State) : execAll (ps.map Prim.toInstr) s = runPrims ps s := by
  induction ps generalizing s with
  | nil => rfl
  | cons p ps ih =>
    rw [List.map_cons, execAll, runPrims, exec_prim]
    exact congrArg (andThen (runPrim p s)) (funext ih)

/-- Masks of two words, or with no common bit in one word, name no common pin. -/
theorem not_both_named {w₁ w₂ : Byte} {m₁ m₂ : Word} (hd : w₁ ≠ w₂ ∨ m₁ &&& m₂ = 0) (p : Nat)
    (h₁ : scWord p = w₁.toNat ∧ m₁.getLsbD (scBit p) = true) :
    ¬(scWord p = w₂.toNat ∧ m₂.getLsbD (scBit p) = true) := by
  rintro ⟨hw₂, hb₂⟩
  obtain ⟨hw₁, hb₁⟩ := h₁
  rcases hd with hne | hand
  · exact hne (BitVec.eq_of_toNat_eq (hw₁.symm.trans hw₂))
  · have hbit : (m₁ &&& m₂).getLsbD (scBit p) = true := by rw [BitVec.getLsbD_and, hb₁, hb₂]; rfl
    rw [hand] at hbit
    simp at hbit

/-- Two drives that name no common pin commute: each pin takes its level from the one that names it. -/
theorem driveMasked_comm {w₁ w₂ : Byte} {m₁ m₂ : Word} (hd : w₁ ≠ w₂ ∨ m₁ &&& m₂ = 0) (n : Nat) (v₁ v₂ : Bool)
    (l : List Bool) :
    driveMasked n w₂.toNat m₂ v₂ (driveMasked n w₁.toNat m₁ v₁ l) =
      driveMasked n w₁.toNat m₁ v₁ (driveMasked n w₂.toNat m₂ v₂ l) := by
  refine latch_ext (by simp) fun p hp => ?_
  rw [driveMasked_length] at hp
  simp only [levelOf_driveMasked hp]
  split
  · next h₂ => rw [if_neg fun h₁ => not_both_named hd p h₁ h₂]
  · rfl

theorem pinWrites_latch_comm {w₁ w₂ : Byte} {m₁ m₂ : Word} (hd : w₁ ≠ w₂ ∨ m₁ &&& m₂ = 0) (c : Config) (v₁ v₂ : Bool)
    (l : List Bool) :
    latchAfter c [pinWrite v₁ w₁ m₁, pinWrite v₂ w₂ m₂] l = latchAfter c [pinWrite v₂ w₂ m₂, pinWrite v₁ w₁ m₁] l := by
  simp only [latchAfter, List.foldl_cons, List.foldl_nil, pinWrite_latch]
  exact driveMasked_comm hd c.nPins v₁ v₂ l

/-- A pad depends on the parameters, the register words and the latches alone (10_state.md R37). -/
theorem pad_congr {t u : State} (hc : t.cfg = u.cfg) (hm : t.mem = u.mem) (hl : t.latch = u.latch) (p : Nat) :
    t.pad p = u.pad p := by
  have hfield : t.fselField p = u.fselField p := by simp only [State.fselField, State.fsel, hc, hm]
  have hlevel : t.level p = u.level p := congrArg (levelOf · p) hl
  rw [State.pad, State.pad, hfield, hlevel, hc]

/-- Settles O20: the two writes are ready primitives, which change the latches and the trace alone, and their drives
commute (`driveMasked_comm`). -/
theorem disjointPinWritesCommute : Obligations.DisjointPinWritesCommute := by
  unfold Obligations.DisjointPinWritesCommute
  intro s v₁ v₂ w₁ w₂ m₁ m₂ h hw₁ hw₂ ha₁ ha₂ hd
  have r₁ := pinWrite_ready hw₁ ha₁ m₁
  have r₂ := pinWrite_ready hw₂ ha₂ m₂
  have hl := pinWrites_latch_comm hd s.cfg v₁ v₂ s.latch
  simp only [← pinWrite_toInstr]
  refine ⟨_, _, (execAll_toInstr [_, _] s).trans (runPrims_ready h ?_),
    (execAll_toInstr [_, _] s).trans (runPrims_ready h ?_), hl, rfl, pad_congr rfl rfl hl⟩
  · simp [r₁, r₂]
  · simp [r₁, r₂]

/-! ## Function-select words outside an attach (R168) -/

/-- The event reads no register and writes no function-select word. -/
def Event.sparesFsel (c : Config) : Event → Prop
  | .regRead _ _ _ => False
  | .regWrite _ a _ => ∀ i, i < c.nFsel → a ≠ fselAddr c i
  | .map _ _ | .unmap _ | .wait _ _ | .timerArm _ | .timerFire | .status _ _ => True

@[simp] theorem Event.sparesFsel_unmap (c : Config) (a : Word) : (Event.unmap a).sparesFsel c := trivial

@[simp] theorem Event.sparesFsel_timerArm (c : Config) (ns : Word) : (Event.timerArm ns).sparesFsel c := trivial

@[simp] theorem Event.sparesFsel_timerFire (c : Config) : Event.timerFire.sparesFsel c := trivial

@[simp] theorem Event.sparesFsel_status (c : Config) (op : Byte) (st : Status) :
    (Event.status op st).sparesFsel c := trivial

/-- From `s` to `t` the register words stay, and no new event reads a register or writes a function-select word. -/
structure SparesFsel (s t : State) : Prop where
  mem : t.mem = s.mem
  trace : ∃ ev, t.trace = s.trace ++ ev ∧ ∀ e ∈ ev, e.sparesFsel s.cfg

theorem setAddr_ne_fselAddr {c : Config} (h : c.Legal) {i j : Nat} (hj : j < c.nSet) (hi : i < c.nFsel) :
    setAddr c j ≠ fselAddr c i := fun he => by
  have ht := target_setAddr h hj
  rw [he, target_fselAddr h hi] at ht
  cases ht

theorem clrAddr_ne_fselAddr {c : Config} (h : c.Legal) {i j : Nat} (hj : j < c.nSet) (hi : i < c.nFsel) :
    clrAddr c j ≠ fselAddr c i := fun he => by
  have ht := target_clrAddr h hj
  rw [he, target_fselAddr h hi] at ht
  cases ht

/-- A primitive writes a set or a clear word, or nothing. -/
theorem Prim.event_sparesFsel {c : Config} (h : c.Legal) {mapped : List Word} {p : Prim} (hp : p.Ready c mapped)
    (a : Agent) : (p.event c a).sparesFsel c := by
  cases p with
  | setp w mask => exact fun i hi => setAddr_ne_fselAddr h hp.1 hi
  | clrp w mask => exact fun i hi => clrAddr_ne_fselAddr h hp.1 hi
  | wait ns => trivial

/-- While no attach runs, no turn but a reset does more to the registers than write set and clear words. -/
theorem Effect.sparesFsel {s t : State} {turn : Turn} (h : s.Inv) (hi : s.initRunning = false) (hne : turn ≠ .reset)
    (e : Effect s turn t) : SparesFsel s t := by
  cases e with
  | reset => exact absurd rfl hne
  | mapped _ hr | mapError _ hr | configured _ hr | initPrim _ hr | finish hr => exact absurd (hi.symm.trans hr) (by simp)
  | status => exact ⟨rfl, _, rfl, by simp⟩
  | attach | detach | pass | redrawStart => exact ⟨rfl, [], by simp, by simp⟩
  | temperature =>
    rw [State.updateT, State.evalAlarm_eq]
    exact ⟨rfl, _, rfl, by simp⟩
  | humidity =>
    rw [State.updateH, State.scheduleRedraw_eq]
    exact ⟨rfl, _, rfl, by simp⟩
  | tick _ _ hp =>
    have hw : ((tickPrim s).event s.cfg .blink).sparesFsel s.cfg := Prim.event_sparesFsel h.legal hp .blink
    rw [State.rearmTimer_eq]
    refine ⟨rfl, [.timerFire, (tickPrim s).event s.cfg .blink] ++ if s.cancelled then [] else [.timerArm blinkPeriodNs],
      by simp [State.afterPrims], ?_⟩
    cases s.cancelled <;> simp [hw]
  | pulseStart _ _ _ hp => exact ⟨rfl, _, rfl, by simpa using Prim.event_sparesFsel h.legal hp .alarm⟩
  | pulsePrim p _ _ _ _ _ hp => exact ⟨rfl, _, rfl, by simpa using Prim.event_sparesFsel h.legal hp .alarm⟩
  | pulseEnd =>
    rw [State.reevaluateAlarm, State.evalAlarm_eq]
    exact ⟨rfl, [], by simp, by simp⟩
  | redrawPrim p _ _ _ _ hp => exact ⟨rfl, _, rfl, by simpa using Prim.event_sparesFsel h.legal hp .display⟩
  | teardown => exact ⟨rfl, _, List.append_assoc .., by simp [or_imp, forall_and]⟩

/-- Settles O58: a reset leaves the register words alone, and so does every effect of another turn while no attach runs
(`Effect.sparesFsel`). -/
theorem fselOnlyDuringAttach : Obligations.FselOnlyDuringAttach := by
  unfold Obligations.FselOnlyDuringAttach
  intro s t h hi ht
  have e := step_effect h ht
  by_cases hne : s.nextTurn = .reset
  · rw [hne] at e
    cases e
    exact ⟨by simp, fun h => absurd hne h⟩
  · obtain ⟨hmem, ev, htr, hev⟩ := e.sparesFsel h.popTurn (by simpa using hi) hne
    rw [State.popTurn_cfg] at hev
    exact ⟨by simpa using hmem, fun _ => ⟨ev, by simpa using htr, fun g a v => ⟨hev _, hev _⟩⟩⟩

/-! ## The pins of each agent (R169) -/

/-- The pins a turn may drive (44_lcd.md R231, 60_exceptions.md R346). -/
def ownPins (c : Config) : Turn → List Nat
  | .run .blink => c.ledPins
  | .run .alarm => [c.pinAlarm]
  | .run .display | .run .init => c.displayPins
  | .run .host | .run .teardown | .command _ _ | .reset => []

/-- The primitives of a pulse leave every pin but the alarm pin alone (43_alarm.md R203). -/
theorem levelOf_alarmPrim_other {c : Config} (h : c.Legal) {i : Nat} {p : Prim}
    (hp : (alarmSeq c)[i]? = some (.prim p)) {q : Nat} (hq : q < c.nPins) (hne : q ≠ c.pinAlarm) (l : List Bool) :
    levelOf (p.latch c l) q = levelOf l q := by
  have driven (b : Bool) : levelOf ((drive c.pinAlarm b).latch c l) q = levelOf l q := by
    rw [levelOf_drive h (pinAlarm_apart h).1 hq, if_neg hne]
  have hmem : p = setp1 c.pinAlarm ∨ p = .wait alarmDelayNs ∨ p = clrp1 c.pinAlarm ∨ p = .wait alarmDelayNs := by
    simpa [alarmSeq] using List.mem_of_getElem? hp
  rcases hmem with rfl | rfl | rfl | rfl
  · exact driven true
  · rfl
  · exact driven false
  · rfl

/-- A turn leaves the latch of every pin alone that is not its agent's. -/
theorem Effect.level_other {s t : State} {turn : Turn} {p : Nat} (h : s.Inv) (hp : p < s.cfg.nPins)
    (hne : p ∉ ownPins s.cfg turn) (e : Effect s turn t) : t.level p = s.level p := by
  cases e with
  | reset | status | attach | detach | pass | mapped | mapError | configured | finish | redrawStart | teardown => rfl
  | temperature =>
    rw [State.updateT, State.evalAlarm_eq]
    rfl
  | humidity =>
    rw [State.updateH, State.scheduleRedraw_eq]
    rfl
  | pulseEnd =>
    rw [State.reevaluateAlarm, State.evalAlarm_eq]
    rfl
  | initPrim _ _ _ hd => exact levelOf_prim_other h.legal hd hp hne _
  | redrawPrim _ _ _ _ hd => exact levelOf_prim_other h.legal hd hp hne _
  | tick =>
    rw [State.rearmTimer_eq]
    exact levelOf_tickPrim_other h.legal hp hne _
  | pulseStart => exact levelOf_alarmPrim_other (i := 0) h.legal rfl hp (by simpa [ownPins] using hne) _
  | pulsePrim _ _ _ _ _ hseq => exact levelOf_alarmPrim_other h.legal hseq hp (by simpa [ownPins] using hne) _

/-- Settles O59: a pin whose latch changed is among the pins of the turn (`Effect.level_other`), and only the four
agents of the statement have any. -/
theorem agentsDriveOwnPins : Obligations.AgentsDriveOwnPins := by
  unfold Obligations.AgentsDriveOwnPins
  intro s t p h ht hp hne
  have hlevel : t.level p ≠ s.popTurn.level p := by simpa [State.level] using hne
  have hown : p ∈ ownPins s.cfg s.nextTurn := by
    by_contra hno
    exact hlevel ((step_effect h ht).level_other h.popTurn (by simpa using hp) (by simpa using hno))
  cases hturn : s.nextTurn with
  | command | reset => simp [hturn, ownPins] at hown
  | run a =>
    rw [hturn] at hown
    cases a with
    | host | teardown => simp [ownPins] at hown
    | init => exact .inr (.inr ⟨.inr rfl, hown⟩)
    | blink => exact .inl ⟨rfl, hown⟩
    | alarm => exact .inr (.inl ⟨rfl, by simpa [ownPins] using hown⟩)
    | display => exact .inr (.inr ⟨.inl rfl, hown⟩)

end Sys2Proof.Machine

/-! PROOFS. The Blink Oscillator (42_blink.md): the threshold decoder, one tick, two ticks; and the turns of agents that are
not enabled. -/

namespace Sys2Proof.Machine

/-! ## An agent that is not enabled (R180, 43_alarm.md R206, 44_lcd.md R236, 45_control_surface.md R270) -/

/-- Settles O7: each of the four operations falls through its guards, which the `_iff` lemmas of the state spell out. -/
theorem disabledAgentsPass : Obligations.DisabledAgentsPass := by
  unfold Obligations.DisabledAgentsPass
  intro s
  have goesOn (running : Bool) (h : ¬(running = true ∧ (s.phase = .run ∨ s.phase = .cancelled))) :
      ¬(running && s.itemMayGoOn) = true := by rwa [Bool.and_eq_true, State.itemMayGoOn_iff]
  refine ⟨fun hoff => ?_, fun hstart hrun => ?_, fun hstart hrun => ?_, fun hoff => ?_⟩
  · exact if_neg (mt (State.blinkEnabled_iff s).mp hoff)
  · exact (if_neg (mt (State.alarmMayStart_iff s).mp hstart)).trans (if_neg (goesOn _ hrun))
  · exact (if_neg (mt (State.redrawMayStart_iff s).mp hstart)).trans (if_neg (goesOn _ hrun))
  · exact if_neg (mt (State.teardownEnabled_iff s).mp hoff)

/-! ## The threshold decoder (R181) -/

/-- Settles O21: the guards of `band` cut the integers at 0, 25 and 30, and on each of the four parts the band is fixed. -/
theorem thresholdBands : Obligations.ThresholdBands := by
  unfold Obligations.ThresholdBands
  intro t
  unfold band thGreenMax thYellowMax
  split_ifs with h0 hg hy <;> simp only [true_iff, false_iff] <;> omega

/-! ## One tick (R182 to R184) -/

/-- The register write of a tick: assert the band's set, or clear all three LEDs (R183). -/
def tickWrite (c : Config) (t : Word) (on : Bool) : Event :=
  if on then .regWrite .blink (clrAddr c (c.pinGreen / 32)) (maskAll c)
  else .regWrite .blink (setAddr c (c.pinGreen / 32)) (bandMask c (band t.toInt))

theorem tickPrim_event {s : State} (h : s.cfg.Legal) :
    (tickPrim s).event s.cfg .blink = tickWrite s.cfg s.t s.blinkOn := by
  unfold tickPrim tickWrite
  cases s.blinkOn <;> simp [Prim.event, ledWord_toNat h, scWord]

theorem tickPrim_latch_length (s : State) (l : List Bool) : ((tickPrim s).latch s.cfg l).length = s.cfg.nPins := by
  unfold tickPrim
  cases s.blinkOn <;> exact driveMasked_length ..

/-- An asserting tick raises the active set of the band and no other pin (R182). -/
theorem levelOf_tickPrim_assert {s : State} (h : s.cfg.Legal) (hb : s.blinkOn = false) {p : Nat} (hp : p < s.cfg.nPins)
    (l : List Bool) : levelOf ((tickPrim s).latch s.cfg l) p =
      if p ∈ activeSet s.cfg (band s.t.toInt) then true else levelOf l p := by
  simp only [tickPrim, hb, Bool.false_eq_true, if_false, Prim.latch, ledWord_toNat h, levelOf_driveMasked hp,
    bandMask_bits h]

/-- A clearing tick lowers the three LEDs and no other pin (R183). -/
theorem levelOf_tickPrim_clear {s : State} (h : s.cfg.Legal) (hb : s.blinkOn = true) {p : Nat} (hp : p < s.cfg.nPins)
    (l : List Bool) : levelOf ((tickPrim s).latch s.cfg l) p = if p ∈ s.cfg.ledPins then false else levelOf l p := by
  have bits := bandMask_bits h .all p
  simp only [bandMask, activeSet] at bits
  simp only [tickPrim, hb, if_true, Prim.latch, ledWord_toNat h, levelOf_driveMasked hp, bits]

/-- All that a tick changes (R183, R184). -/
def State.afterTick (s : State) : State :=
  { s with
    agent := .blink
    blinkOn := !s.blinkOn
    timerArmed := !s.cancelled
    latch := (tickPrim s).latch s.cfg s.latch
    trace := s.trace ++ [.timerFire, tickWrite s.cfg s.t s.blinkOn] ++
      if s.cancelled then [] else [.timerArm blinkPeriodNs] }

theorem exec_btick_enabled {s : State} (h : s.cfg.Legal) (hm : s.wordsMapped) (ha : s.timerArmed = true)
    (hp : s.phase = .run) : exec .btick s = .next s.afterTick := by
  show execBtick s = _
  rw [execBtick, if_pos ((State.blinkEnabled_iff s).mpr ⟨ha, hp⟩), blinkWrite_fireTimer,
    runPrim_ready (s := s.fireTimer) (p := tickPrim s) h (tickPrim_ready h hm), andThen_next, State.rearmTimer_eq]
  simp [State.afterTick, State.afterPrims, State.fireTimer, latchAfter, tickPrim_event h]

/-- Settles O22: an enabled tick leaves `State.afterTick`, whose one write is `tickWrite` and whose levels
`levelOf_tickPrim_assert` and `levelOf_tickPrim_clear` say. -/
theorem blinkTick : Obligations.BlinkTick := by
  unfold Obligations.BlinkTick
  intro s h hm ha hp
  refine ⟨s.afterTick, tickWrite s.cfg s.t s.blinkOn, exec_btick_enabled h hm ha hp, rfl, tickPrim_latch_length s _,
    fun hb => ⟨?_, fun p hp => levelOf_tickPrim_assert h hb hp _⟩,
    fun hb => ⟨?_, fun p hp => levelOf_tickPrim_clear h hb hp _⟩⟩
  · simp [tickWrite, hb]
  · simp [tickWrite, hb]

/-! ## The toggle law (R188) -/

/-- A block whose timer is armed is not cancelled. -/
theorem State.Inv.not_cancelled_of_timerArmed {s : State} (h : s.Inv) (ha : s.timerArmed = true) : s.cancelled = false :=
  Bool.eq_false_iff.mpr fun hc => (h.phase_of_cancelled hc).1 (h.timer_run ha)

/-- A turn of BLINK while the timer is armed is a tick. -/
theorem step_tick {s : State} {rest : List Turn} (h : s.Inv) (ha : s.timerArmed = true)
    (hs : s.schedule = .run .blink :: rest) : step s = .next { s.afterTick with schedule := rest } := by
  have hp := h.timer_run ha
  rw [step_of_schedule hs]
  exact exec_btick_enabled (s := ({ s with schedule := rest } : State).withAgent .blink) h.legal (h.wordsMapped (.inl hp))
    ha hp

/-- A tick of an armed block leaves it armed, with three new events. -/
theorem afterTick_of_armed {s : State} (h : s.Inv) (ha : s.timerArmed = true) :
    s.afterTick.timerArmed = true ∧
    s.afterTick.trace = s.trace ++ [.timerFire, tickWrite s.cfg s.t s.blinkOn, .timerArm blinkPeriodNs] := by
  simp [State.afterTick, h.not_cancelled_of_timerArmed ha]

/-- Every turn but a tick and a reset leaves `blink_on` alone. -/
theorem Effect.keeps_blinkOn {s t : State} {turn : Turn} (hb : turn ≠ .run .blink) (hr : turn ≠ .reset)
    (e : Effect s turn t) : t.blinkOn = s.blinkOn := by
  cases e with
  | reset => exact absurd rfl hr
  | tick => exact absurd rfl hb
  | status | attach | detach | pass | mapped | mapError | configured | initPrim | finish | pulseStart | pulsePrim
  | redrawStart | redrawPrim | teardown => rfl
  | temperature => simp [State.updateT]
  | humidity => simp [State.updateH]
  | pulseEnd => simp [State.reevaluateAlarm]

/-- Settles O23: two ticks in a row by `step_tick`, the second from the state the first leaves, which is armed and has the
invariant; and no other effect of a turn touches `blink_on` (`Effect.keeps_blinkOn`). -/
theorem toggleLaw : Obligations.ToggleLaw := by
  unfold Obligations.ToggleLaw
  refine ⟨fun s rest h ha hs => ?_, fun s t h ht hb hr => ?_⟩
  · have first := step_tick h ha hs
    have hinv := h.step first
    obtain ⟨harmed, htrace⟩ := afterTick_of_armed h ha
    have second := step_tick hinv harmed rfl
    obtain ⟨-, htrace'⟩ := afterTick_of_armed hinv harmed
    refine ⟨_, (run_succ first 1).trans (run_succ second 0), Bool.not_not _, rfl, ?_⟩
    refine (htrace'.trans (congrArg (· ++ _) htrace)).trans ?_
    cases hon : s.blinkOn <;> simp [State.afterTick, tickWrite, hon, blinkPeriodNs]
  · simpa using (step_effect h ht).keeps_blinkOn hb hr

end Sys2Proof.Machine

/-! PROOFS. The Alarm Oscillator (43_alarm.md): the evaluation, the micro-steps of a pulse, and a pulse from its queueing to
its end. -/

namespace Sys2Proof.Machine

/-! ## The evaluation (R201) -/

/-- Settles O24: `evalAlarm` in closed form, with the threshold as the number it is. -/
theorem alarmEvaluation : Obligations.AlarmEvaluation := by
  unfold Obligations.AlarmEvaluation
  exact fun s => congrArg Host.Outcome.next s.evalAlarm_eq

/-! ## One micro-step (R203, R206) -/

/-- A primitive of the pulse runs, and the index moves on. -/
theorem alarmMicroStep_prim {s : State} (h : s.cfg.Legal) (hm : s.wordsMapped) {p : Prim}
    (hp : (alarmSeq s.cfg)[s.alarmPc]? = some (.prim p)) :
    alarmMicroStep s = .next { s.afterPrims [p] with alarmPc := s.alarmPc + 1 } := by
  simp only [alarmMicroStep, hp, runPrim_ready h (alarmPrim_ready h hm hp), andThen_next]
  rfl

/-- The last entry ends the run and evaluates again (R204). -/
theorem alarmMicroStep_reevaluate {s : State} (hpc : s.alarmPc = 4) :
    alarmMicroStep s = .next { s.reevaluateAlarm with alarmPc := 5 } := by
  have entry : (alarmSeq s.cfg)[s.alarmPc]? = some .reevaluate := by rw [hpc]; rfl
  rw [alarmMicroStep, entry, hpc]

/-- A queued pulse starts in RUN with its first micro-operation (R202). -/
theorem exec_apulse_of_queued {s : State} (hq : s.alarmPending = true) (hi : s.alarmRunning = false)
    (hp : s.phase = .run) : exec .apulse s = alarmMicroStep (s.withAgent .alarm).startAlarm :=
  if_pos ((State.alarmMayStart_iff s).mpr ⟨hq, hi, hp⟩)

/-- A running pulse goes on in RUN and CANCELLED (R206, R207). -/
theorem exec_apulse_of_running {s : State} (hr : s.alarmRunning = true) (ha : s.active) :
    exec .apulse s = alarmMicroStep (s.withAgent .alarm) := by
  have hns : ¬s.alarmMayStart = true := fun hs => by
    obtain ⟨-, hi, -⟩ := (State.alarmMayStart_iff s).mp hs
    exact Bool.noConfusion (hr.symm.trans hi)
  have hgo : (s.alarmRunning && s.itemMayGoOn) = true := by rw [hr, (State.itemMayGoOn_iff s).mpr ha]; rfl
  exact (if_neg hns).trans (if_pos hgo)

/-- A pulse is running at an index, in a block where its micro-steps are enabled and find their words mapped (R206). -/
structure State.PulseAt (i : Nat) (s : State) : Prop where
  legal : s.cfg.Legal
  mapped : s.wordsMapped
  running : s.alarmRunning = true
  active : s.active
  index : s.alarmPc = i

/-- The turn that is taken is no part of it. -/
theorem State.PulseAt.inTurn {i : Nat} {s : State} (h : s.PulseAt i) (turns : List Turn) :
    (({ s with schedule := turns } : State).withAgent .alarm).PulseAt i :=
  ⟨h.legal, h.mapped, h.running, h.active, h.index⟩

/-- A running pulse at an entry that is some primitive runs it. -/
theorem exec_apulse_prim {i : Nat} {s : State} (h : s.PulseAt i) {p : Prim}
    (hp : (alarmSeq s.cfg)[i]? = some (.prim p)) :
    exec .apulse s = .next { (s.withAgent .alarm).afterPrims [p] with alarmPc := s.alarmPc + 1 } := by
  obtain ⟨hlegal, hm, hr, ha, rfl⟩ := h
  exact (exec_apulse_of_running hr ha).trans (alarmMicroStep_prim (s := s.withAgent .alarm) hlegal hm hp)

/-! ## The entries of the pulse (R203)

Each entry's step leaves a state with a name, in which the trace and the latches are written out. -/

/-- The alarm line driven to a level by ALARM. -/
def State.alarmDriven (level : Bool) (s : State) : State :=
  { s with
    agent := .alarm
    latch := (drive s.cfg.pinAlarm level).latch s.cfg s.latch
    trace := s.trace ++ [lineWrite s.cfg .alarm s.cfg.pinAlarm level] }

/-- Index 0, with the start (R202). -/
def State.pulseStarted (s : State) : State :=
  { s.alarmDriven true with alarmPending := false, alarmRunning := true, alarmPc := 1 }

/-- Index 1 and index 3: the pulse's half period. -/
def State.pulseWaited (s : State) : State :=
  { s with agent := .alarm, alarmPc := s.alarmPc + 1, trace := s.trace ++ [.wait .alarm alarmDelayNs] }

/-- Index 2: the line low again. -/
def State.pulseLowered (s : State) : State := { s.alarmDriven false with alarmPc := 3 }

/-- Index 4: the end of the run and the re-evaluation (R204; log 24). -/
def State.pulseEnded (s : State) : State :=
  { s with
    agent := .alarm
    alarmPc := 5
    alarmRunning := false
    alarmPending := s.alarmPending || s.alarmWanted }

theorem alarmDriven_latch_length (level : Bool) (s : State) : (s.alarmDriven level).latch.length = s.cfg.nPins := by
  cases level <;> exact driveMasked_length ..

/-- Driving the alarm line sets that pin's level and no other's. -/
theorem level_alarmDriven {s : State} (h : s.cfg.Legal) (level : Bool) {p : Nat} (hp : p < s.cfg.nPins) :
    (s.alarmDriven level).level p = if p = s.cfg.pinAlarm then level else s.level p :=
  levelOf_drive h (pinAlarm_apart h).1 hp level s.latch

/-- What the drive of the alarm line changes is what `alarmDriven` says. -/
theorem afterPrims_drive_pinAlarm {s : State} (h : s.cfg.Legal) (level : Bool) :
    (s.withAgent .alarm).afterPrims [drive s.cfg.pinAlarm level] = s.alarmDriven level := by
  rw [State.alarmDriven, ← drive_lineWrite h (pinAlarm_apart h).1]
  rfl

theorem exec_apulse_start {s : State} (h : s.cfg.Legal) (hm : s.wordsMapped) (hq : s.alarmPending = true)
    (hi : s.alarmRunning = false) (hp : s.phase = .run) : exec .apulse s = .next s.pulseStarted := by
  rw [exec_apulse_of_queued hq hi hp, alarmMicroStep_prim (s := (s.withAgent .alarm).startAlarm) h hm rfl,
    State.pulseStarted, ← afterPrims_drive_pinAlarm h true]
  rfl

theorem exec_apulse_wait {i : Nat} {s : State} (h : s.PulseAt i) (hi : i = 1 ∨ i = 3) :
    exec .apulse s = .next s.pulseWaited := by
  have entry : (alarmSeq s.cfg)[i]? = some (.prim (.wait alarmDelayNs)) := by obtain rfl | rfl := hi <;> rfl
  exact exec_apulse_prim h entry

theorem exec_apulse_lower {s : State} (h : s.PulseAt 2) : exec .apulse s = .next s.pulseLowered := by
  have entry : (alarmSeq s.cfg)[2]? = some (.prim (drive s.cfg.pinAlarm false)) := rfl
  rw [exec_apulse_prim h entry, afterPrims_drive_pinAlarm h.legal, h.index, State.pulseLowered]

theorem exec_apulse_end {s : State} (h : s.PulseAt 4) : exec .apulse s = .next s.pulseEnded := by
  rw [exec_apulse_of_running h.running h.active, alarmMicroStep_reevaluate (s := s.withAgent .alarm) h.index,
    State.reevaluateAlarm, State.evalAlarm_eq]
  rfl

/-- Settles O25: the start leaves `State.pulseStarted`. -/
theorem pulseStart : Obligations.PulseStart := by
  unfold Obligations.PulseStart
  intro s h hm hq hi hp
  exact ⟨s.pulseStarted, exec_apulse_start h hm hq hi hp, rfl, alarmDriven_latch_length true s,
    fun p hp => level_alarmDriven h true hp⟩

/-- Settles O26: the wait, the lowering and the end, one lemma for each kind of entry. -/
theorem pulseBody : Obligations.PulseBody := by
  unfold Obligations.PulseBody
  intro s h hm hr ha
  have pulseAt {i : Nat} (hpc : s.alarmPc = i) : s.PulseAt i := ⟨h, hm, hr, ha, hpc⟩
  refine ⟨fun hpc => exec_apulse_wait (pulseAt rfl) hpc, fun hpc => ?_, fun hpc => exec_apulse_end (pulseAt hpc)⟩
  exact ⟨s.pulseLowered, exec_apulse_lower (pulseAt hpc), rfl, alarmDriven_latch_length false s,
    fun p hp => level_alarmDriven h false hp⟩

/-! ## A pulse to its end (R203, R204, R208) -/

theorem State.PulseAt.waited {i : Nat} {s : State} (h : s.PulseAt i) : s.pulseWaited.PulseAt (i + 1) :=
  ⟨h.legal, h.mapped, h.running, h.active, congrArg Nat.succ h.index⟩

theorem State.PulseAt.lowered {i : Nat} {s : State} (h : s.PulseAt i) : s.pulseLowered.PulseAt 3 :=
  ⟨h.legal, h.mapped, h.running, h.active, rfl⟩

/-- A run whose first turn is ALARM's goes on from the state APULSE leaves. -/
theorem run_of_alarm {s t : State} {rest : List Turn} {n : Nat} (hs : s.schedule = .run .alarm :: rest)
    (e : exec .apulse (({ s with schedule := rest } : State).withAgent .alarm) = .next t) : run (n + 1) s = run n t :=
  run_succ ((step_of_schedule hs).trans e) n

/-- In RUN the block is not cancelled (10_state.md R32). -/
theorem State.Inv.not_cancelled_of_run {s : State} (h : s.Inv) (hp : s.phase = .run) : s.cancelled = false :=
  Bool.eq_false_iff.mpr fun hc => (h.phase_of_cancelled hc).1 hp

/-- What a whole pulse leaves: its five entries in order. -/
def State.afterPulse (s : State) : State := s.pulseStarted.pulseWaited.pulseLowered.pulseWaited.pulseEnded

/-- Five turns of ALARM take the five entries in order, each from the state the one before it leaves. -/
theorem run_pulse {s : State} {rest : List Turn} (h : s.Inv) (hq : s.alarmPending = true) (hi : s.alarmRunning = false)
    (hs : s.schedule = List.replicate 5 (.run .alarm) ++ rest) :
    run 5 s = .next { s.afterPulse with schedule := rest } := by
  have hrun := h.alarm_pending_run hq
  have hm := h.wordsMapped (.inl hrun)
  have started : s.pulseStarted.PulseAt 1 := ⟨h.legal, hm, rfl, .inl hrun, rfl⟩
  have held := started.waited
  have lowered := held.lowered
  have rested := lowered.waited
  calc
    run 5 s = run 4 { s.pulseStarted with schedule := _ } :=
      run_of_alarm hs (exec_apulse_start h.legal hm hq hi hrun)
    _ = run 3 { s.pulseStarted.pulseWaited with schedule := _ } :=
      run_of_alarm rfl (exec_apulse_wait (started.inTurn _) (.inl rfl))
    _ = run 2 { s.pulseStarted.pulseWaited.pulseLowered with schedule := _ } :=
      run_of_alarm rfl (exec_apulse_lower (held.inTurn _))
    _ = run 1 { s.pulseStarted.pulseWaited.pulseLowered.pulseWaited with schedule := _ } :=
      run_of_alarm rfl (exec_apulse_wait (lowered.inTurn _) (.inr rfl))
    _ = run 0 { s.afterPulse with schedule := rest } := run_of_alarm rfl (exec_apulse_end (rested.inTurn _))

/-- A whole pulse leaves its pin low and every other pin as it was. -/
theorem level_afterPulse {s : State} (h : s.cfg.Legal) {p : Nat} (hp : p < s.cfg.nPins) :
    s.afterPulse.level p = if p = s.cfg.pinAlarm then false else s.level p := by
  have lowered : s.afterPulse.level p = if p = s.cfg.pinAlarm then false else s.pulseStarted.level p :=
    level_alarmDriven (s := s.pulseStarted) h false hp
  have started : s.pulseStarted.level p = if p = s.cfg.pinAlarm then true else s.level p :=
    level_alarmDriven h true hp
  rw [lowered, started]
  split <;> rfl

/-- Settles O27: the five turns leave `State.afterPulse` (`run_pulse`), and as a block in RUN is not cancelled, the pulse
is queued again on the reading alone. -/
theorem pulseRunsToItsEnd : Obligations.PulseRunsToItsEnd := by
  unfold Obligations.PulseRunsToItsEnd
  intro s rest h hq hi hs
  have hc := h.not_cancelled_of_run (h.alarm_pending_run hq)
  refine ⟨_, run_pulse h hq hi hs, ?_, fun p hp => level_afterPulse h.legal hp⟩
  simp [State.afterPulse, State.pulseStarted, State.pulseWaited, State.pulseLowered, State.pulseEnded, State.alarmDriven,
    State.alarmWanted, alarmThreshold, alarmDelayNs, hc, hi]

end Sys2Proof.Machine

/-! PROOFS. The Display Driver (44_lcd.md): a nibble transfer, the sequences built from it and the bytes the display receives
from them, the text of the two lines, and a redraw from its queueing to its end. -/

namespace Sys2Proof.Machine

/-! ## A nibble transfer (R221, R232) -/

/-- The events of a nibble transfer, in the order of R221's table. -/
def nibbleEvents (c : Config) (a : Agent) (m : Bool) (n : Nibble) : List Event :=
  [lineWrite c a c.pinE false, lineWrite c a c.pinRs m, lineWrite c a c.pinRw false, .wait a c.tShortNs,
    lineWrite c a c.pinE true, lineWrite c a c.pinD4 (n.getLsbD 0), lineWrite c a c.pinD5 (n.getLsbD 1),
    lineWrite c a c.pinD6 (n.getLsbD 2), lineWrite c a c.pinD7 (n.getLsbD 3), .wait a c.tShortNs,
    lineWrite c a c.pinE false, .wait a 1000000]

/-- Each line of the transfer is one write of one pin (41_gpio_pin.md R167). -/
theorem lnibPrims_events {c : Config} (h : c.Legal) (a : Agent) (m : Bool) (n : Nibble) :
    (lnibPrims c m n).map (Prim.event c a) = nibbleEvents c a m n := by
  have lines : ∀ p ∈ c.displayPins, p < c.nPins := fun p hp => h.pins_lt p (displayPins_subset hp)
  simp only [Config.displayPins, List.forall_mem_cons] at lines
  obtain ⟨rs, rw', e, d4, d5, d6, d7, -⟩ := lines
  simp only [lnibPrims, List.map_cons, List.map_nil, clrp1_lineWrite h, setp1_lineWrite h, drive_lineWrite h, rs, rw', e, d4,
    d5, d6, d7]
  rfl

/-- A nibble transfer leaves one latch for each pin, whatever it found. -/
theorem latchAfter_lnib_length (c : Config) (m : Bool) (n : Nibble) (l : List Bool) :
    (latchAfter c (lnibPrims c m n) l).length = c.nPins :=
  driveMasked_length ..

theorem levelOf_clrp1_pinE {c : Config} (h : c.Legal) (l : List Bool) :
    levelOf ((clrp1 c.pinE).latch c l) c.pinE = false := by
  have hp := h.pins_lt c.pinE (by simp [Config.pins])
  rw [show clrp1 c.pinE = drive c.pinE false from rfl, levelOf_drive h hp hp, if_pos rfl]

/-- From either level of E the display takes the nibble, after the launch's own where E was high (R232,
70_reset_and_hazards.md R373): the transfer begins by lowering E. -/
theorem latchedNibbles_lnib {c : Config} (h : c.Legal) (a : Agent) (draw : Nat) (m : Bool) (n : Nibble) (l : List Bool) :
    latchedNibbles c draw ((lnibPrims c m n).map (Prim.event c a)) l =
      (if levelOf l c.pinE then [launchNibble draw] else []) ++ [{ rs := m, rw := false, n := n }] := by
  obtain ⟨taken, -⟩ := nibblesFrom_lnib h a m n (levelOf_clrp1_pinE h l)
  rw [← taken]
  exact latchedNibbles_from_fall h a draw _ l

/-! ## What a list of display operations leaves (R230, R231) -/

/-- One display operation runs its expansion. -/
theorem exec_displayOp_mapped {s : State} (h : s.cfg.Legal) (hm : s.wordsMapped) (o : DisplayOp) :
    exec o.toInstr s = .next (s.afterPrims (expandOp s.cfg o)) := by
  rw [exec_displayOp, ← expand_singleton, runPrims_expand h hm rfl rfl]

/-- No pin but the display's changes. -/
theorem level_afterPrims_expand_other {s : State} (h : s.cfg.Legal) (ops : List DisplayOp) {p : Nat}
    (hp : p < s.cfg.nPins) (hne : p ∉ s.cfg.displayPins) : (s.afterPrims (expand s.cfg ops)).level p = s.level p :=
  levelOf_prims_other h (expand_drivesDisplay s.cfg ops) hp hne s.latch

/-- From E low, operations that send whole bytes end with E low. -/
theorem level_pinE_afterPrims_expand {s : State} (h : s.cfg.Legal) {ops : List DisplayOp}
    (hw : ∀ o ∈ ops, wholeBytes o = true) (hE : s.level s.cfg.pinE = false) :
    (s.afterPrims (expand s.cfg ops)).level s.cfg.pinE = false :=
  (nibblesFrom_expand h s.agent hw hE).2

/-- Settles O28: LNIB leaves its primitives' effect, whose events `lnibPrims_events` lists, whose levels `levelOf_lnib`
says and whose nibble `latchedNibbles_lnib` says. -/
theorem nibbleTransfer : Obligations.NibbleTransfer := by
  unfold Obligations.NibbleTransfer
  intro s m n h hm
  obtain ⟨e, rs, rw', d4, d5, d6, d7⟩ := levelOf_lnib h m n s.latch
  exact ⟨s.afterPrims (lnibPrims s.cfg m n), (lnibPrims s.cfg m n).map (Prim.event s.cfg s.agent),
    lnibPrims_events h s.agent m n, exec_displayOp_mapped h hm (.lnib m n), rfl,
    latchAfter_lnib_length s.cfg m n s.latch, e, rs, rw', d4, d5, d6, d7,
    fun p hp hne => levelOf_prims_other h (lnibPrims_drivesDisplay s.cfg m n) hp hne s.latch,
    fun draw => latchedNibbles_lnib h s.agent draw m n s.latch⟩

/-! ## Bytes (R222, R223, R233) -/

/-- LINS for an instruction byte, LCHR for a data byte. -/
def byteOp : Bool → Byte → DisplayOp
  | false, b => .lins b
  | true, b => .lchr b

@[simp] theorem expandOp_byteOp (c : Config) (m : Bool) (b : Byte) : expandOp c (byteOp m b) = bytePrims c m b := by
  cases m <;> rfl

@[simp] theorem bytesOf_byteOp (m : Bool) (b : Byte) : bytesOf (byteOp m b) = [(m, b)] := by cases m <;> rfl

@[simp] theorem wholeBytes_byteOp (m : Bool) (b : Byte) : wholeBytes (byteOp m b) = true := by cases m <;> rfl

/-- A byte is its two nibble transfers, high nibble first (30_encoding.md R107). -/
theorem exec_byteOp {s : State} (h : s.cfg.Legal) (hm : s.wordsMapped) (m : Bool) (b : Byte) :
    exec (byteOp m b).toInstr s = execAll [.lnib m (b.extractLsb' 4 4), .lnib m (b.extractLsb' 0 4)] s := by
  have nibbles : bytePrims s.cfg m b = expand s.cfg [.lnib m (b.extractLsb' 4 4), .lnib m (b.extractLsb' 0 4)] := by
    rw [expand_cons, expand_singleton]
    rfl
  rw [exec_displayOp_mapped h hm, expandOp_byteOp, nibbles, ← execAll_displayOps _ h hm]
  rfl

/-- What one byte leaves, in either mode. -/
theorem exec_byteOp_sends {s : State} (h : s.cfg.Legal) (hm : s.wordsMapped) (m : Bool) (b : Byte) :
    ∃ (t : State) (ev : List Event), exec (byteOp m b).toInstr s = .next t ∧ ev.length = 24 ∧
      t = { s with latch := t.latch, trace := s.trace ++ ev } ∧
      (∀ p, p < s.cfg.nPins → p ∉ s.cfg.displayPins → t.level p = s.level p) ∧ t.level s.cfg.pinE = false ∧
      (s.level s.cfg.pinE = false → ∀ draw, displayBytes s.cfg draw ev s.latch = [(m, b)]) := by
  have one : expand s.cfg [byteOp m b] = bytePrims s.cfg m b := by rw [expand_singleton, expandOp_byteOp]
  refine ⟨s.afterPrims (expand s.cfg [byteOp m b]), (expand s.cfg [byteOp m b]).map (Prim.event s.cfg s.agent), ?_, ?_, rfl,
    fun p hp hne => level_afterPrims_expand_other h _ hp hne, ?_, fun hE draw => ?_⟩
  · rw [exec_displayOp_mapped h hm, expand_singleton]
  · rw [List.length_map, one, bytePrims_length]
  · rw [one]
    exact levelOf_byte_e h m b s.latch
  · simpa using displayBytes_expand h draw s.agent (ops := [byteOp m b]) (by simp) hE

/-- Settles O29: `exec_byteOp` and `exec_byteOp_sends`, once for each mode. -/
theorem byteWrites : Obligations.ByteWrites := by
  unfold Obligations.ByteWrites
  exact fun s b h hm => ⟨⟨exec_byteOp h hm false b, exec_byteOp_sends h hm false b⟩,
    ⟨exec_byteOp h hm true b, exec_byteOp_sends h hm true b⟩⟩

/-! ## Texts and the initialisation (R224, R226) -/

/-- The characters of a text, one LCHR each, have the primitives of the text. -/
theorem expand_chars (c : Config) (text : List Byte) :
    expand c (text.map DisplayOp.lchr) = text.flatMap (bytePrims c true) := by
  simp only [expand, List.flatMap_map, expandOp]

theorem execAll_chars (text : List Byte) {s : State} (h : s.cfg.Legal) (hm : s.wordsMapped) :
    execAll (text.map Instr.lchr) s = .next (s.afterPrims (text.flatMap (bytePrims s.cfg true))) := by
  have ops := execAll_displayOps (text.map DisplayOp.lchr) h hm
  rwa [expand_chars, List.map_map] at ops

/-- Settles O30: LSTR and its characters' LCHR have the same primitives, and what those send is `displayBytes_expand`. -/
theorem stringWrite : Obligations.StringWrite := by
  unfold Obligations.StringWrite
  intro s text h hm
  have runs := exec_displayOp_mapped h hm (.lstr text)
  have whole : ∀ o ∈ [DisplayOp.lstr text], wholeBytes o = true := by simp [wholeBytes]
  refine ⟨runs.trans (execAll_chars (cutText text) h hm).symm,
    s.afterPrims (expand s.cfg [.lstr text]), (expand s.cfg [.lstr text]).map (Prim.event s.cfg s.agent), ?_, ?_, rfl,
    fun p hp hne => level_afterPrims_expand_other h _ hp hne,
    fun hE => ⟨level_pinE_afterPrims_expand h whole hE, fun draw => ?_⟩⟩
  · rw [expand_singleton]
    exact runs
  · rw [List.length_map, expand_singleton]
    exact lstrPrims_length s.cfg text
  · rw [displayBytes_expand h draw s.agent whole hE, List.flatMap_singleton]
    rfl

/-- Settles O31: LINIT runs its list, and what the list sends is `displayBytes_expand`; the placeholder has no
terminator. -/
theorem displayInitialisation : Obligations.DisplayInitialisation := by
  unfold Obligations.DisplayInitialisation
  intro s h hm
  have runs : exec .linit s = .next (s.afterPrims (expand s.cfg (linitList s.cfg))) := runPrims_expand h hm rfl rfl _
  have whole : ∀ o ∈ linitList s.cfg, wholeBytes o = true := by simp [linitList, wholeBytes]
  refine ⟨runs.trans (execAll_displayOps (linitList s.cfg) h hm).symm, _, _, runs, rfl,
    fun p hp hne => level_afterPrims_expand_other h _ hp hne,
    fun hE => ⟨level_pinE_afterPrims_expand h whole hE, fun draw => ?_⟩⟩
  rw [displayBytes_expand h draw s.agent whole hE]
  simp [linitList, bytesOf, cutText_of_not_mem h.placeholder_text]

/-! ## The two lines (30_encoding.md R110, R111) -/

/-- With fuel for its digits, a positive number is written with the digits of `Nat.digits`: both peel the last digit off
first. -/
theorem decDigits_eq_digits {fuel n : Nat} (h0 : 0 < n) (hn : n < 10 ^ fuel) :
    decDigits fuel n = (Nat.digits 10 n).reverse.map digit := by
  induction fuel generalizing n with
  | zero => omega
  | succ fuel ih =>
    rw [decDigits]
    split
    · next hlt => rw [Nat.digits_of_lt 10 n h0.ne' hlt]; rfl
    · next hge =>
      rw [ih (by omega) (by omega), Nat.digits_def' (by decide) h0, List.reverse_cons, List.map_append]
      rfl

/-- A reading's magnitude has at most ten digits. -/
theorem toInt_natAbs_lt (v : Word) : v.toInt.natAbs < 10 ^ 10 := by
  have := BitVec.toInt_lt (x := v)
  have := BitVec.le_toInt v
  omega

theorem dec_zero {v : Word} (h : v.toInt = 0) : dec v = [0x30] := by
  rw [dec, h]
  rfl

theorem dec_pos {v : Word} (h : 0 < v.toInt) : dec v = (Nat.digits 10 v.toInt.toNat).reverse.map digit := by
  have := toInt_natAbs_lt v
  rw [dec, if_neg (by omega), decDigits_eq_digits (by omega) (by omega)]

theorem dec_neg {v : Word} (h : v.toInt < 0) : dec v = 0x2D :: (Nat.digits 10 (-v.toInt).toNat).reverse.map digit := by
  have := toInt_natAbs_lt v
  rw [dec, if_pos h, decDigits_eq_digits (by omega) (by omega)]

theorem composeLine1_length_le (t : Word) : (composeLine1 t).length ≤ 24 := by
  have := dec_length t
  simp only [composeLine1, temperatureLabel, List.length_append, List.length_cons, List.length_nil]
  omega

theorem composeLine2_length_le (h : Word) : (composeLine2 h).length ≤ 21 := by
  have := dec_length h
  simp only [composeLine2, humidityLabel, List.length_append, List.length_cons, List.length_nil]
  omega

/-- Settles O33: the three signs of a reading, then the labels, which are fixed, before a text of at most eleven
characters without a terminator. -/
theorem lineText : Obligations.LineText := by
  unfold Obligations.LineText
  refine ⟨fun v => ⟨dec_zero, dec_pos, dec_neg⟩, fun c t h hc => ⟨rfl, rfl, ?_, ?_, composeLine1_no_terminator t,
    composeLine2_no_terminator h⟩⟩
  · exact (composeLine1_length_le t).trans_lt hc.line_fits
  · have := composeLine2_length_le h
    have := hc.line_fits
    omega

/-! ## What a redraw is made of (R229, 70_reset_and_hazards.md R376) -/

/-- The primitives of a redraw of two lines that hold no terminator. -/
theorem expand_redrawList (c : Config) {line1 line2 : List Byte} (h1 : (0 : Byte) ∉ line1) (h2 : (0 : Byte) ∉ line2) :
    expand c (redrawList c line1 line2) =
      [.wait tLongNs] ++ bytePrims c false c.cmdClear ++ [.wait tClearNs] ++ bytePrims c false c.cmdLine1 ++
        line1.flatMap (bytePrims c true) ++ bytePrims c false c.cmdLine2 ++ line2.flatMap (bytePrims c true) := by
  simp [redrawList, expand, expandOp, lstrPrims, cutText_of_not_mem h1, cutText_of_not_mem h2]

theorem chars_length (c : Config) (m : Bool) (text : List Byte) :
    (text.flatMap (bytePrims c m)).length = 24 * text.length := by
  simp [List.length_flatMap, bytePrims_length, mul_comm]

section Counts

variable (c : Config) {line1 line2 : List Byte} (h1 : (0 : Byte) ∉ line1) (h2 : (0 : Byte) ∉ line2)

include h1 h2

theorem expand_redrawList_length :
    (expand c (redrawList c line1 line2)).length = 2 + 24 * (3 + line1.length + line2.length) := by
  rw [expand_redrawList c h1 h2]
  simp only [List.length_append, bytePrims_length, chars_length, List.length_singleton]
  ring

theorem expand_redrawList_writes :
    (expand c (redrawList c line1 line2)).countP Prim.isWrite = 18 * (3 + line1.length + line2.length) := by
  have quiet (ns : Word) : [Prim.wait ns].countP Prim.isWrite = 0 := rfl
  rw [expand_redrawList c h1 h2]
  simp only [List.countP_append, countWrites_byte, countWrites_chars, quiet]
  ring

theorem expand_redrawList_waitNs :
    totalWaitNs (expand c (redrawList c line1 line2)) =
      1000000 + 50000000 + (3 + line1.length + line2.length) * (2 * (2 * c.tShortNs.toNat + 1000000)) := by
  have long : totalWaitNs [.wait tLongNs] = 1000000 := rfl
  have clear : totalWaitNs [.wait tClearNs] = 50000000 := rfl
  rw [expand_redrawList c h1 h2]
  simp only [totalWaitNs_append, totalWaitNs_byte, totalWaitNs_chars, long, clear]
  ring

/-- The bytes of a redraw: clear, line 1 and its text, line 2 and its text (R234). -/
theorem redrawList_bytes :
    (redrawList c line1 line2).flatMap bytesOf =
      [(false, c.cmdClear), (false, c.cmdLine1)] ++ line1.map (fun b => (true, b)) ++ [(false, c.cmdLine2)] ++
        line2.map fun b => (true, b) := by
  simp [redrawList, bytesOf, cutText_of_not_mem h1, cutText_of_not_mem h2]

end Counts

theorem redrawList_wholeBytes {c : Config} {line1 line2 : List Byte} :
    ∀ o ∈ redrawList c line1 line2, wholeBytes o = true := by
  simp [redrawList, wholeBytes]

/-- Settles O36: the composed lines hold no terminator, so the list and its three counts are those of
`expand_redrawList`. -/
theorem redrawCounts : Obligations.RedrawCounts := by
  unfold Obligations.RedrawCounts
  intro c t h _
  have h1 := composeLine1_no_terminator t
  have h2 := composeLine2_no_terminator h
  refine ⟨?_, expand_redrawList_length c h1 h2, expand_redrawList_writes c h1 h2, expand_redrawList_waitNs c h1 h2⟩
  simp only [expand_redrawList c h1 h2, expand_singleton, expand_chars]
  rfl

/-! ## The steps of a redraw (R227 to R229, R236) -/

/-- Settles O32: `scheduleRedraw` in closed form. -/
theorem scheduleRedraw : Obligations.ScheduleRedraw := by
  unfold Obligations.ScheduleRedraw
  exact fun s => congrArg Host.Outcome.next s.scheduleRedraw_eq

/-- A queued redraw starts in RUN. -/
theorem exec_lredraw_of_queued {s : State} (hq : s.redrawPending = true) (hi : s.redrawRunning = false)
    (hp : s.phase = .run) : exec .lredraw s = .next (s.withAgent .display).startRedraw :=
  if_pos ((State.redrawMayStart_iff s).mpr ⟨hq, hi, hp⟩)

/-- Settles O34: the start step leaves `State.startRedraw`. -/
theorem redrawStart : Obligations.RedrawStart := by
  unfold Obligations.RedrawStart
  exact fun s hq hi hp => exec_lredraw_of_queued hq hi hp

/-- A running redraw goes on in RUN and CANCELLED. -/
theorem exec_lredraw_of_running {s : State} (hr : s.redrawRunning = true) (ha : s.active) :
    exec .lredraw s = redrawMicroStep (s.withAgent .display) := by
  have hns : ¬s.redrawMayStart = true := by simp [State.redrawMayStart, hr]
  have hgo : (s.redrawRunning && s.itemMayGoOn) = true := by rw [hr, (State.itemMayGoOn_iff s).mpr ha]; rfl
  exact (if_neg hns).trans (if_pos hgo)

/-- A ready primitive of a redraw runs, and the index moves on. -/
theorem redrawMicroStep_prim {s : State} (h : s.cfg.Legal) {p : Prim} (hp : s.lcdSeq[s.lcdPc]? = some p)
    (hr : p.Ready s.cfg s.mapped) : redrawMicroStep s = .next (s.afterPrims [p]).advanceLcd := by
  rw [redrawMicroStep, hp]
  exact congrArg (andThen · _) (runPrim_ready h hr)

/-- Settles O35: the invariant has a running redraw at a primitive of its list, whose words are mapped, and the micro-step
runs it. -/
theorem redrawBody : Obligations.RedrawBody := by
  unfold Obligations.RedrawBody
  intro s h hr
  have ha := h.redraw_active hr
  obtain ⟨hseq, hlt⟩ := h.redraw_list hr
  have hp : s.lcdSeq[s.lcdPc]? = some s.lcdSeq[s.lcdPc] := List.getElem?_eq_getElem hlt
  have ready : s.lcdSeq[s.lcdPc].Ready s.cfg s.mapped := by
    refine expand_ready h.legal (h.wordsMapped ha) (redrawList s.cfg s.line1 s.line2) _ ?_
    rw [← hseq]
    exact List.getElem_mem hlt
  exact ⟨_, hp, (exec_lredraw_of_running hr ha).trans
    (redrawMicroStep_prim (s := s.withAgent .display) h.legal hp ready)⟩

/-! ## A redraw to its end (R234) -/

/-- A primitive is a register write exactly if its event is. -/
theorem isWrite_event (c : Config) (a : Agent) (p : Prim) : (p.event c a).isWrite = p.isWrite := by cases p <;> rfl

theorem countP_isWrite_events (c : Config) (a : Agent) (ps : List Prim) :
    (ps.map (Prim.event c a)).countP Event.isWrite = ps.countP Prim.isWrite := by
  rw [List.countP_map]
  exact List.countP_congr fun p _ => by rw [Function.comp_apply, isWrite_event]

/-- The primitives of the redraw that the readings of a state compose (R228). -/
def State.redrawPrims (s : State) : List Prim :=
  expand s.cfg (redrawList s.cfg (composeLine1 s.t) (composeLine2 s.h))

theorem redrawPrims_length (s : State) :
    s.redrawPrims.length = 2 + 24 * (3 + (composeLine1 s.t).length + (composeLine2 s.h).length) :=
  expand_redrawList_length s.cfg (composeLine1_no_terminator s.t) (composeLine2_no_terminator s.h)

/-- The state after the start, with the turns that are left. -/
def State.redrawLoaded (turns : List Turn) (s : State) : State :=
  { (s.withAgent .display).startRedraw with schedule := turns }

theorem redrawLoaded_lcdSeq (turns : List Turn) (s : State) : (s.redrawLoaded turns).lcdSeq = s.redrawPrims := rfl

/-- What a whole redraw leaves: its start and all its primitives, and the index past the last (log 24). -/
def State.afterRedraw (turns : List Turn) (s : State) : State :=
  { (s.redrawLoaded turns).afterPrims s.redrawPrims with lcdPc := s.redrawPrims.length, redrawRunning := false }

theorem step_starts_redraw {s : State} {turns : List Turn} (hq : s.redrawPending = true) (hi : s.redrawRunning = false)
    (hp : s.phase = .run) (hs : s.schedule = .run .display :: turns) : step s = .next (s.redrawLoaded turns) :=
  (step_of_schedule hs).trans
    (exec_lredraw_of_queued (s := State.withAgent .display { s with schedule := turns }) hq hi hp)

/-- A queued redraw that gets a turn for its start and one for each of its primitives runs them all, in order. -/
theorem run_queued_redraw {s : State} {rest : List Turn} (h : s.Inv) (hq : s.redrawPending = true)
    (hi : s.redrawRunning = false)
    (hs : s.schedule = List.replicate (s.redrawPrims.length + 1) (.run .display) ++ rest) :
    run (s.redrawPrims.length + 1) s = .next (s.afterRedraw rest) := by
  have hrun := h.redraw_pending_run hq
  have hm := h.wordsMapped (.inl hrun)
  have ready : ∀ p ∈ s.redrawPrims, p.Ready s.cfg s.mapped := expand_ready h.legal hm _
  have nonempty : 0 < s.redrawPrims.length := by rw [redrawPrims_length]; omega
  rw [run_succ (step_starts_redraw hq hi hrun hs)]
  have body := run_redraw s.redrawPrims.length
    (s.redrawLoaded (List.replicate s.redrawPrims.length (.run .display) ++ rest)) rest h.legal hm hrun rfl ready rfl
  rw [redrawLoaded_lcdSeq] at body
  exact body (Nat.zero_add _) nonempty rfl

theorem afterRedraw_latch (turns : List Turn) (s : State) :
    (s.afterRedraw turns).latch = latchAfter s.cfg s.redrawPrims s.latch := by
  simp [State.afterRedraw, State.redrawLoaded, State.afterPrims, State.startRedraw]

theorem level_pinE_afterRedraw {s : State} (h : s.cfg.Legal) (turns : List Turn) (hE : s.level s.cfg.pinE = false) :
    (s.afterRedraw turns).level s.cfg.pinE = false := by
  rw [State.level, afterRedraw_latch]
  exact (nibblesFrom_expand h .display redrawList_wholeBytes hE).2

/-- Settles O37: `run_queued_redraw` runs the list of the lines composed at the start step, which hold no terminator; its
writes and its bytes are those of `expand_redrawList_writes` and `redrawList_bytes`. -/
theorem redrawByteStream : Obligations.RedrawByteStream := by
  unfold Obligations.RedrawByteStream
  intro s rest n h hq hi hE hn hs
  have h1 := composeLine1_no_terminator s.t
  have h2 := composeLine2_no_terminator s.h
  obtain rfl : n = s.redrawPrims.length := hn.trans (redrawPrims_length s).symm
  refine ⟨s.afterRedraw rest, s.redrawPrims.map (Prim.event s.cfg .display), run_queued_redraw h hq hi hs, ?_,
    level_pinE_afterRedraw h.legal rest hE, ?_, fun draw => ?_⟩
  · rw [hi]
    simp only [State.afterRedraw, State.redrawLoaded, State.afterPrims, State.startRedraw, State.withAgent]
  · rw [countP_isWrite_events]
    exact expand_redrawList_writes s.cfg h1 h2
  · rw [← redrawList_bytes s.cfg h1 h2]
    exact displayBytes_expand h.legal draw .display redrawList_wholeBytes hE

/-! ## WAIT (R237) -/

/-- Settles O38: WAIT is its event. -/
theorem delayResult : Obligations.DelayResult := by
  unfold Obligations.DelayResult
  exact fun _ _ => rfl

end Sys2Proof.Machine

/-! PROOFS. The Control Surface (45_control_surface.md): the host commands and the cancel signal, the numbers a text command
carries, the teardown, and an attach from its acceptance to its end. -/

namespace Sys2Proof.Machine

/-! ## The run-time commands (R262 to R267) -/

/-- The new temperature and the alarm it asks for (R262, 43_alarm.md R201). -/
theorem State.updateT_eq (v : Word) (s : State) :
    s.updateT v =
      { s with t := v, alarmPending := s.alarmPending || (decide (30 < v.toInt) && !s.cancelled) } :=
  State.evalAlarm_eq { s with t := v }

/-- The new humidity and the redraw it asks for (R264, 44_lcd.md R227). -/
theorem State.updateH_eq (v : Word) (s : State) :
    s.updateH v = { s with h := v, redrawPending := s.redrawPending || !s.cancelled } :=
  State.scheduleRedraw_eq { s with h := v }

section Accepted

variable {s : State} (hp : s.phase = .run)

include hp

theorem exec_sett_of_run (v : Word) : exec (.sett v) s = .next ((s.updateT v).endWith 0x02 (.ok none)) :=
  if_pos ((State.commandAccepted_iff s).mpr hp)

theorem exec_seth_of_run (v : Word) : exec (.seth v) s = .next ((s.updateH v).endWith 0x03 (.ok none)) :=
  if_pos ((State.commandAccepted_iff s).mpr hp)

theorem exec_settx_of_some {text : List Byte} {v : Word} (hv : parseDec text = some v) :
    exec (.settx text) s = .next ((s.updateT v).endWith 0x06 (.ok (some text.length))) := by
  rw [exec, execSettx, if_pos ((State.commandAccepted_iff s).mpr hp), hv]
  rfl

theorem exec_settx_of_none {text : List Byte} (hv : parseDec text = none) :
    exec (.settx text) s = .next (s.endWith 0x06 .invalidInput) := by
  rw [exec, execSettx, if_pos ((State.commandAccepted_iff s).mpr hp), hv]
  rfl

theorem exec_sethx_of_some {text : List Byte} {v : Word} (hv : parseDec text = some v) :
    exec (.sethx text) s = .next ((s.updateH v).endWith 0x07 (.ok (some text.length))) := by
  rw [exec, execSethx, if_pos ((State.commandAccepted_iff s).mpr hp), hv]
  rfl

theorem exec_sethx_of_none {text : List Byte} (hv : parseDec text = none) :
    exec (.sethx text) s = .next (s.endWith 0x07 .invalidInput) := by
  rw [exec, execSethx, if_pos ((State.commandAccepted_iff s).mpr hp), hv]
  rfl

theorem exec_detach_of_run : exec .detach s = .next s.cancelSignal := if_pos ((State.commandAccepted_iff s).mpr hp)

end Accepted

/-- Settles O41: the accepted SETT is `State.updateT`, in closed form, and its status. -/
theorem setTemperature : Obligations.SetTemperature := by
  unfold Obligations.SetTemperature
  intro s v hp
  rw [exec_sett_of_run hp, State.updateT_eq]
  rfl

/-- Settles O42: SETTX goes by what its text parses to; a text that parses has the effect of SETT. -/
theorem setTemperatureText : Obligations.SetTemperatureText := by
  unfold Obligations.SetTemperatureText
  refine fun s text hp => ⟨fun v hv => ?_, exec_settx_of_none hp⟩
  rw [exec_settx_of_some hp hv, State.updateT_eq]
  rfl

/-- Settles O43: the accepted SETH is `State.updateH`, in closed form, and its status. -/
theorem setHumidity : Obligations.SetHumidity := by
  unfold Obligations.SetHumidity
  intro s v hp
  rw [exec_seth_of_run hp, State.updateH_eq]
  rfl

/-- Settles O44: SETHX goes by what its text parses to; a text that parses has the effect of SETH. -/
theorem setHumidityText : Obligations.SetHumidityText := by
  unfold Obligations.SetHumidityText
  refine fun s text hp => ⟨fun v hv => ?_, exec_sethx_of_none hp⟩
  rw [exec_sethx_of_some hp hv, State.updateH_eq]
  rfl

/-! ## Commands out of their phase (R271, 60_exceptions.md R305) -/

theorem exec_attach_notReady {s : State} (h : ¬(s.phase = .reset ∧ s.initRunning = false)) :
    exec .attach s = .next (s.notReady 0x01) :=
  if_neg (mt (State.attachAccepted_iff s).mp h)

/-- Settles O50: each command falls through the guard of its phase to `State.notReady`. -/
theorem wrongPhaseIsNotReady : Obligations.WrongPhaseIsNotReady := by
  unfold Obligations.WrongPhaseIsNotReady
  refine fun s => ⟨exec_attach_notReady, fun hp => ?_⟩
  have refused : ¬s.commandAccepted = true := mt (State.commandAccepted_iff s).mp hp
  exact ⟨fun v => if_neg refused, fun v => if_neg refused, if_neg refused, fun text => if_neg refused,
    fun text => if_neg refused⟩

/-! ## The cancel signal and the teardown (R268 to R270) -/

/-- Settles O47: CANCEL is the five writes of `State.cancelSignal`. -/
theorem cancelSignal : Obligations.CancelSignal := by
  unfold Obligations.CancelSignal
  exact fun _ => rfl

/-- Settles O48: the accepted DETACH is the cancel signal. -/
theorem detachCancels : Obligations.DetachCancels := by
  unfold Obligations.DetachCancels
  exact fun s hp => exec_detach_of_run hp

/-- Settles O49: the mapped words are AttachWords, each once, so unmapping them from the last to the first leaves none
(`unmapWords_reverse`). -/
theorem teardown : Obligations.Teardown := by
  unfold Obligations.Teardown
  intro s hp ha hr hm
  have enabled : s.teardownEnabled = true := (State.teardownEnabled_iff s).mpr ⟨hp, ha, hr⟩
  rw [exec, execUnmapall, if_pos enabled,
    unmapWords_reverse (attachWords s.cfg) (s.withAgent .teardown) hm (rising_attachWords s.cfg).nodup, andThen_next]
  rfl

/-! ## The numbers a text command carries (R266)

The grammar is taken apart from the inside out: digits, an optional sign, an optional newline. -/

/-- One or more digit bytes. -/
def Numeral (digits : List Byte) : Prop := digits ≠ [] ∧ ∀ d ∈ digits, 0x30 ≤ d.toNat ∧ d.toNat ≤ 0x39

/-- Nothing, or one of the two sign bytes. -/
def Sign (sign : List Byte) : Prop := sign = [] ∨ sign = [0x2B] ∨ sign = [0x2D]

/-- The integer a sign and digits denote. -/
def signedValue (sign digits : List Byte) : Int := if sign = [0x2D] then -digitsValue digits else digitsValue digits

/-- Nothing, or one newline byte. -/
def Newline (newline : List Byte) : Prop := newline = [] ∨ newline = [0x0A]

theorem isDigit_iff (b : Byte) : isDigit b = true ↔ 0x30 ≤ b.toNat ∧ b.toNat ≤ 0x39 := by simp [isDigit]

/-- Reading digits from the left gives their value. -/
theorem foldl_digits (digits : List Byte) :
    ((digits.foldl (fun n b => 10 * n + (b.toNat - 0x30)) 0 : Nat) : Int) = digitsValue digits := by
  simp [digitsValue, Nat.ofDigits_eq_foldr, List.foldl_map, add_comm]

theorem parseDigits_eq_some_iff {text : List Byte} {n : Nat} :
    parseDigits text = some n ↔ Numeral text ∧ (n : Int) = digitsValue text := by
  have guard : (text ≠ [] ∧ text.all isDigit = true) ↔ Numeral text := by
    simp only [Numeral, List.all_eq_true, isDigit_iff]
  rw [parseDigits, Option.ite_none_right_eq_some, guard, Option.some.injEq, ← foldl_digits, Nat.cast_inj, eq_comm]

theorem parseDigits_map_ofNat_iff {digits : List Byte} {v : Int} :
    (parseDigits digits).map Int.ofNat = some v ↔ Numeral digits ∧ digitsValue digits = v := by
  simp only [Option.map_eq_some_iff, parseDigits_eq_some_iff, and_assoc]
  constructor
  · rintro ⟨n, hn, hval, rfl⟩
    exact ⟨hn, hval.symm⟩
  · rintro ⟨hn, rfl⟩
    exact ⟨_, hn, foldl_digits digits, foldl_digits digits⟩

theorem parseDigits_map_negOfNat_iff {digits : List Byte} {v : Int} :
    (parseDigits digits).map Int.negOfNat = some v ↔ Numeral digits ∧ -digitsValue digits = v := by
  have neg : Int.negOfNat = (fun z : Int => -z) ∘ Int.ofNat := funext fun _ => Int.negOfNat_eq
  rw [neg, ← Option.map_map, Option.map_eq_some_iff]
  simp only [parseDigits_map_ofNat_iff, and_assoc, exists_and_left, exists_eq_left']

/-- A numeral does not begin with a sign. -/
theorem Numeral.head_ne_sign {b : Byte} {rest : List Byte} (h : Numeral (b :: rest)) : b ≠ 0x2B ∧ b ≠ 0x2D := by
  obtain ⟨hlo, -⟩ := h.2 b (by simp)
  constructor <;> rintro rfl <;> exact absurd hlo (by decide)

/-- A numeral does not end with a newline. -/
theorem Numeral.getLast?_ne_newline {digits : List Byte} (h : Numeral digits) : digits.getLast? ≠ some 0x0A := fun hl => by
  obtain ⟨hlo, -⟩ := h.2 _ (List.mem_of_getLast? hl)
  exact absurd hlo (by decide)

/-- The first byte decides between the three signs. -/
theorem parseSigned_eq_some_iff {text : List Byte} {v : Int} :
    parseSigned text = some v ↔
      ∃ sign digits, text = sign ++ digits ∧ Sign sign ∧ Numeral digits ∧ signedValue sign digits = v := by
  constructor
  · intro h
    cases text with
    | nil => cases h
    | cons b rest =>
      rw [parseSigned] at h
      split_ifs at h with hplus hminus
      · exact ⟨[0x2B], rest, by rw [hplus]; rfl, .inr (.inl rfl), parseDigits_map_ofNat_iff.mp h⟩
      · exact ⟨[0x2D], rest, by rw [hminus]; rfl, .inr (.inr rfl), parseDigits_map_negOfNat_iff.mp h⟩
      · exact ⟨[], b :: rest, rfl, .inl rfl, parseDigits_map_ofNat_iff.mp h⟩
  · rintro ⟨sign, digits, rfl, rfl | rfl | rfl, hval⟩
    · obtain ⟨b, rest, rfl⟩ := List.exists_cons_of_ne_nil hval.1.1
      obtain ⟨hplus, hminus⟩ := hval.1.head_ne_sign
      rw [List.nil_append, parseSigned, if_neg hplus, if_neg hminus]
      exact parseDigits_map_ofNat_iff.mpr hval
    · exact parseDigits_map_ofNat_iff.mpr hval
    · exact parseDigits_map_negOfNat_iff.mpr hval

/-- A text is what is left of it and at most one newline. -/
theorem exists_newline (text : List Byte) : ∃ newline, Newline newline ∧ text = dropNewline text ++ newline := by
  unfold dropNewline
  split
  · next hl => exact ⟨[0x0A], .inr rfl, (List.dropLast_append_getLast? _ hl).symm⟩
  · exact ⟨[], .inl rfl, (List.append_nil text).symm⟩

theorem dropNewline_append {body newline : List Byte} (hn : Newline newline) (hb : body.getLast? ≠ some 0x0A) :
    dropNewline (body ++ newline) = body := by
  obtain rfl | rfl := hn
  · rw [List.append_nil, dropNewline, if_neg hb]
  · simp [dropNewline]

/-- Words are the integers in the range of a reading. -/
theorem parseDec_eq_some_iff {text : List Byte} {v : Word} :
    parseDec text = some v ↔ parseSigned (dropNewline text) = some v.toInt := by
  rw [parseDec]
  split
  · next x hx =>
    rw [hx, Option.ite_none_right_eq_some, Option.some.injEq, Option.some.injEq]
    constructor
    · rintro ⟨⟨hlo, hhi⟩, rfl⟩
      exact (BitVec.toInt_ofInt_eq_self (by decide) hlo (by omega)).symm
    · rintro rfl
      have := BitVec.toInt_lt (x := v)
      have := BitVec.le_toInt v
      exact ⟨by omega, BitVec.ofInt_toInt⟩
  · next hx => rw [hx]; simp

/-- The grammar, by the names of its parts. -/
theorem parseDec_eq_some_iff_grammar {text : List Byte} {v : Word} :
    parseDec text = some v ↔ ∃ sign digits newline, text = sign ++ digits ++ newline ∧ Sign sign ∧ Newline newline ∧
      Numeral digits ∧ signedValue sign digits = v.toInt := by
  rw [parseDec_eq_some_iff, parseSigned_eq_some_iff]
  constructor
  · rintro ⟨sign, digits, hbody, hs, hval⟩
    obtain ⟨newline, hn, htext⟩ := exists_newline text
    exact ⟨sign, digits, newline, by rw [← hbody, ← htext], hs, hn, hval⟩
  · rintro ⟨sign, digits, newline, rfl, hs, hn, hnum, hval⟩
    have hlast : (sign ++ digits).getLast? ≠ some 0x0A := by
      rw [List.getLast?_append_of_ne_nil sign hnum.1]
      exact hnum.getLast?_ne_newline
    exact ⟨sign, digits, dropNewline_append hn hlast, hs, hnum, hval⟩

/-- Settles O45: digits, sign and newline by `parseDigits_eq_some_iff`, `parseSigned_eq_some_iff` and `dropNewline_append`,
and the range by `parseDec_eq_some_iff`. -/
theorem parseGrammar : Obligations.ParseGrammar := by
  unfold Obligations.ParseGrammar
  intro text v
  rw [parseDec_eq_some_iff_grammar]
  simp only [Sign, Newline, Numeral, signedValue, and_assoc, eq_comm (b := v.toInt)]

/-! ## The text of a reading (30_encoding.md R110) -/

theorem digit_toNat {n : Nat} (h : n < 10) : (digit n).toNat = 0x30 + n := by
  simp only [digit, BitVec.toNat_ofNat]
  omega

theorem digitsValue_nil : digitsValue [] = 0 := rfl

/-- A digit more is a factor ten and a summand. -/
theorem digitsValue_append_digit (digits : List Byte) {n : Nat} (h : n < 10) :
    digitsValue (digits ++ [digit n]) = 10 * digitsValue digits + n := by
  simp [digitsValue, Nat.ofDigits_cons, digit_toNat h, add_comm]

theorem digitsValue_decDigits {fuel n : Nat} (h : n < 10 ^ fuel) : digitsValue (decDigits fuel n) = n := by
  induction fuel generalizing n with
  | zero =>
    obtain rfl : n = 0 := by omega
    exact digitsValue_nil
  | succ fuel ih =>
    rw [decDigits]
    split
    · next hlt => simpa [digitsValue_nil] using digitsValue_append_digit [] hlt
    · rw [digitsValue_append_digit _ (by omega), ih (by omega)]
      omega

theorem decDigits_all_digits {fuel n : Nat} : ∀ d ∈ decDigits fuel n, 0x30 ≤ d.toNat ∧ d.toNat ≤ 0x39 := by
  have one {n : Nat} (h : n < 10) : 0x30 ≤ (digit n).toNat ∧ (digit n).toNat ≤ 0x39 := by
    rw [digit_toNat h]
    omega
  induction fuel generalizing n with
  | zero => simp [decDigits]
  | succ fuel ih =>
    rw [decDigits]
    split
    · next hlt => simpa using one hlt
    · simp only [List.mem_append, List.mem_singleton]
      rintro d (hd | rfl)
      · exact ih d hd
      · exact one (by omega)

/-- With fuel for one digit at least, a number is written as a numeral. -/
theorem numeral_decDigits (fuel n : Nat) : Numeral (decDigits (fuel + 1) n) := by
  refine ⟨?_, decDigits_all_digits⟩
  rw [decDigits]
  split <;> simp

/-- The text of a reading is a sign and a numeral that denote it. -/
theorem dec_eq_signed (v : Word) :
    ∃ sign digits, dec v = sign ++ digits ∧ Sign sign ∧ Numeral digits ∧ signedValue sign digits = v.toInt := by
  have := toInt_natAbs_lt v
  rw [dec]
  split
  · refine ⟨[0x2D], decDigits 10 (-v.toInt).toNat, rfl, .inr (.inr rfl), numeral_decDigits 9 _, ?_⟩
    rw [signedValue, if_pos rfl, digitsValue_decDigits (by omega)]
    omega
  · refine ⟨[], decDigits 10 v.toInt.toNat, rfl, .inl rfl, numeral_decDigits 9 _, ?_⟩
    rw [signedValue, if_neg (by simp), digitsValue_decDigits (by omega)]
    omega

/-- Settles O46: the text of a reading is in the grammar (`dec_eq_signed`), with or without a newline. -/
theorem parseOfDec : Obligations.ParseOfDec := by
  unfold Obligations.ParseOfDec
  intro v
  obtain ⟨sign, digits, hdec, hs, hval⟩ := dec_eq_signed v
  have parses {newline : List Byte} (hn : Newline newline) : parseDec (dec v ++ newline) = some v :=
    parseDec_eq_some_iff_grammar.mpr ⟨sign, digits, newline, by rw [hdec], hs, hn, hval⟩
  exact ⟨by simpa using parses (.inl rfl), parses (.inr rfl)⟩

/-! ## An attach is accepted (R261) -/

/-- Settles O39: the accept step is `State.startAttach`, the list is the spec's with its numbers written out, and
AttachWords rise and are the words of the pins (`mem_attachWords`). -/
theorem attachAccepted : Obligations.AttachAccepted := by
  unfold Obligations.AttachAccepted
  refine ⟨fun s hp hi => if_pos ((State.attachAccepted_iff s).mpr ⟨hp, hi⟩), fun c => rfl,
    fun c => ⟨rising_attachWords c, fun a => ?_⟩⟩
  simp only [mem_attachWords, pinAddrs, List.mem_cons, List.not_mem_nil, or_false, fselWord, scWord]

/-! ## The parts of an attach (R261, 70_reset_and_hazards.md R355, R357)

An attach list is some MAP entries, some CFGOUT entries, some primitives and the finish, one turn of INIT each. The run is
shown for any such list. -/

/-- A step does not depend on which agent took the one before it (log 6). -/
theorem step_withAgent (s : State) (a : Agent) : step (s.withAgent a) = step s := by
  have agent (turn : Turn) (u : State) : takeTurn turn (u.withAgent a) = takeTurn turn u := by cases turn <;> rfl
  have pop : (s.withAgent a).popTurn = s.popTurn.withAgent a := by
    rcases hs : s.schedule with _ | ⟨turn, rest⟩ <;> simp [State.popTurn, State.withAgent, hs]
  rw [step, pop, agent]
  rfl

theorem run_withAgent {n : Nat} (hn : 0 < n) (s : State) (a : Agent) : run n (s.withAgent a) = run n s := by
  obtain ⟨k, rfl⟩ := Nat.exists_eq_add_one.mpr hn
  rw [run, run, step_withAgent]

/-- A turn of INIT at the finish takes the finish step. -/
theorem step_of_finish {s : State} {rest : List Turn} (hs : s.schedule = .run .init :: rest) (hi : s.initRunning = true)
    (he : s.initSeq[s.initPc]? = some .finish) :
    step s = .next (State.finishAttach { s with schedule := rest, agent := .init, initPc := s.initPc + 1 }) := by
  rw [step_of_schedule hs]
  simp [takeTurn, agentTurn, initTurn, hi, he, State.withAgent]

theorem initTurns_add (m n : Nat) (rest : List Turn) : initTurns (m + n) rest = initTurns m (initTurns n rest) := by
  rw [initTurns, List.replicate_add, List.append_assoc]

/-- What an attach list is made of: the words it maps, the pins it configures, the primitives it runs. -/
structure AttachPlan where
  words : List Word
  pins : List Nat
  prims : List Prim

/-- The list of a plan. -/
def AttachPlan.list (P : AttachPlan) : List InitOp :=
  P.words.map (fun a => InitOp.op (.map a)) ++ P.pins.map (fun p => InitOp.op (.cfgout (BitVec.ofNat 8 p))) ++
    P.prims.map (fun p => InitOp.op p.toInstr) ++ [.finish]

/-- The plan of ATTACH_LIST. -/
def attachPlan (c : Config) : AttachPlan where
  words := attachWords c
  pins := c.pins
  prims := expand c (linitList c)

@[simp] theorem attachPlan_words (c : Config) : (attachPlan c).words = attachWords c := by rw [attachPlan]

@[simp] theorem attachPlan_pins (c : Config) : (attachPlan c).pins = c.pins := by rw [attachPlan]

@[simp] theorem attachPlan_prims (c : Config) : (attachPlan c).prims = expand c (linitList c) := by rw [attachPlan]

@[simp] theorem attachPlan_list (c : Config) : (attachPlan c).list = attachList c := by
  rw [AttachPlan.list, attachPlan, attachList]

theorem AttachPlan.list_length (P : AttachPlan) :
    P.list.length = P.words.length + (P.pins.length + (P.prims.length + 1)) := by
  simp [AttachPlan.list]

/-- A state runs a plan that stops nowhere: its words can be mapped, its pins exist, and its entries find their words
mapped. -/
structure State.Runs (P : AttachPlan) (s : State) : Prop where
  legal : s.cfg.Legal
  memory : s.mem.wf
  running : s.initRunning = true
  seq : s.initSeq = P.list
  rising : Rising P.words
  aligned : ∀ a ∈ P.words, a.toNat % 4 = 0
  mappable : ∀ a ∈ P.words, a ∉ s.cfg.unmappable
  pins : ∀ p ∈ P.pins, p < s.cfg.nPins ∧ fselAddr s.cfg (fselWord p) ∈ P.words
  ready : ∀ p ∈ P.prims, p.Ready s.cfg P.words

/-- After the MAP entries. -/
def State.attachMapped (P : AttachPlan) (turns : List Turn) (s : State) : State :=
  { s with
    agent := .init
    schedule := turns
    initPc := P.words.length
    mapped := P.words
    trace := s.trace ++ P.words.map fun a => Event.map a true }

/-- After the CFGOUT entries, which leave the register words `m` and the events `ev`. -/
def State.attachConfigured (P : AttachPlan) (m : Memory) (ev : List Event) (turns : List Turn) (s : State) : State :=
  { s.attachMapped P turns with
    initPc := P.words.length + P.pins.length
    mem := m
    trace := (s.attachMapped P turns).trace ++ ev }

/-- After the primitives. -/
def State.attachDriven (P : AttachPlan) (m : Memory) (ev : List Event) (turns : List Turn) (s : State) : State :=
  { (s.attachConfigured P m ev turns).afterPrims P.prims with
    initPc := P.words.length + P.pins.length + P.prims.length }

/-- After the finish. -/
def State.afterAttach (P : AttachPlan) (m : Memory) (ev : List Event) (turns : List Turn) (s : State) : State :=
  State.finishAttach { s.attachDriven P m ev turns with initPc := P.list.length }

/-- What the CFGOUT entries leave: the register words `m`, in which the fields of the pins hold the output code and every
other field is as it was, and the events `ev`, which send the display nothing. -/
structure State.Configures (pins : List Nat) (m : Memory) (ev : List Event) (s : State) : Prop where
  fields : ∀ q, q < s.cfg.nPins →
    ({ s with mem := m } : State).fselField q = if q ∈ pins then s.cfg.fselOutput else s.fselField q
  silent : ∀ held latch rest, stillHeld s.cfg held latch = held →
    nibblesFrom s.cfg held (ev ++ rest) latch = nibblesFrom s.cfg held rest latch

/-- A field depends on the parameters and the register words alone. -/
theorem fselField_congr {t u : State} (hc : t.cfg = u.cfg) (hm : t.mem = u.mem) (p : Nat) : t.fselField p = u.fselField p := by
  simp only [State.fselField, State.fsel, hc, hm]

section Parts

variable {P : AttachPlan} {s : State} (h : s.Runs P)

include h

theorem run_attach_maps (turns : List Turn) (hpc : s.initPc = 0) (hm : s.mapped = []) (hw : 0 < P.words.length)
    (hs : s.schedule = initTurns P.words.length turns) :
    run P.words.length s = .next (s.attachMapped P turns) := by
  have hseq : s.initSeq = [].map (fun a => InitOp.op (.map a)) ++ P.words.map (fun a => InitOp.op (.map a)) ++
      (P.pins.map (fun p => InitOp.op (.cfgout (BitVec.ofNat 8 p))) ++ P.prims.map (fun p => InitOp.op p.toInstr) ++
        [.finish]) := by
    simp [h.seq, AttachPlan.list]
  rw [← run_withAgent hw s .init]
  exact run_maps P.words (s.withAgent .init) [] _ turns rfl h.running hseq hpc hm h.rising h.aligned h.mappable hs

theorem run_attach_cfgouts (turns : List Turn) : ∃ m ev, s.Configures P.pins m ev ∧
    run P.pins.length (s.attachMapped P (initTurns P.pins.length turns)) = .next (s.attachConfigured P m ev turns) := by
  have hseq : s.initSeq = P.words.map (fun a => InitOp.op (.map a)) ++
      P.pins.map (fun p => InitOp.op (.cfgout (BitVec.ofNat 8 p))) ++
      (P.prims.map (fun p => InitOp.op p.toInstr) ++ [.finish]) := by
    simp [h.seq, AttachPlan.list]
  have cfgouts := run_cfgouts P.pins (s.attachMapped P (initTurns P.pins.length turns)) _ _ turns rfl h.running hseq
    (List.length_map ..).symm h.legal h.pins rfl
  obtain ⟨ev, heq, -, hfields, hsilent⟩ := afterCfgouts_eq P.pins
    { s.attachMapped P turns with initPc := P.words.length + P.pins.length } h.legal h.memory fun p hp => (h.pins p hp).1
  refine ⟨_, ev, ⟨fun q hq => ?_, hsilent⟩, cfgouts.trans (congrArg _ heq)⟩
  exact (fselField_congr (congrArg State.cfg heq).symm rfl q).trans (hfields q hq)

theorem run_attach_prims (m : Memory) (ev : List Event) (turns : List Turn) :
    run P.prims.length (s.attachConfigured P m ev (initTurns P.prims.length turns)) =
      .next (s.attachDriven P m ev turns) := by
  have hpc : P.words.length + P.pins.length = (P.words.map (fun a => InitOp.op (.map a)) ++
      P.pins.map (fun p => InitOp.op (.cfgout (BitVec.ofNat 8 p)))).length := by simp
  exact run_initPrims P.prims (s.attachConfigured P m ev (initTurns P.prims.length turns)) _ _ turns rfl h.running h.seq hpc
    h.legal h.ready rfl

theorem step_attach_finish (m : Memory) (ev : List Event) (turns : List Turn) :
    step (s.attachDriven P m ev (.run .init :: turns)) = .next (s.afterAttach P m ev turns) := by
  have entry : s.initSeq[P.words.length + P.pins.length + P.prims.length]? = some .finish := by
    simp [h.seq, AttachPlan.list, Nat.add_assoc]
  rw [step_of_finish (s := s.attachDriven P m ev (.run .init :: turns)) rfl h.running entry, State.afterAttach,
    AttachPlan.list_length]
  simp [State.attachDriven, State.afterPrims, State.attachConfigured, State.attachMapped, Nat.add_assoc]

/-- A plan that gets a turn for each of its entries runs to its end. -/
theorem run_attach (turns : List Turn) (hpc : s.initPc = 0) (hm : s.mapped = []) (hw : 0 < P.words.length)
    (hs : s.schedule = initTurns P.list.length turns) :
    ∃ m ev, s.Configures P.pins m ev ∧ run P.list.length s = .next (s.afterAttach P m ev turns) := by
  rw [AttachPlan.list_length] at hs ⊢
  rw [initTurns_add, initTurns_add, initTurns_add] at hs
  obtain ⟨m, ev, hconf, cfgouts⟩ := run_attach_cfgouts h (initTurns P.prims.length (.run .init :: turns))
  have prims := run_attach_prims h m ev (.run .init :: turns)
  have finish : run 1 _ = _ := run_succ (step_attach_finish h m ev turns) 0
  exact ⟨m, ev, hconf, run_trans (run_attach_maps h _ hpc hm hw hs) (run_trans cfgouts (run_trans prims finish))⟩

end Parts

/-! ## An accepted attach to its end (R261, 70_reset_and_hazards.md R373) -/

theorem attachWords_length_pos (c : Config) : 0 < (attachWords c).length :=
  List.length_pos_of_mem (setAddr_mem_attachWords (p := c.pinE) (by simp [Config.pins]))

/-- A running attach whose words can all be mapped runs its plan. -/
theorem State.Inv.runs_attachPlan {s : State} (h : s.Inv) (hi : s.initRunning = true)
    (hum : ∀ a ∈ attachWords s.cfg, a ∉ s.cfg.unmappable) : s.Runs (attachPlan s.cfg) where
  legal := h.legal
  memory := h.memory
  running := hi
  seq := (h.init_list hi).1.trans (attachPlan_list s.cfg).symm
  rising := by simpa using rising_attachWords s.cfg
  aligned := by simpa using fun a ha => attachWords_aligned h.legal ha
  mappable := by simpa using hum
  pins := by simpa using fun p hp => ⟨h.legal.pins_lt p hp, fselAddr_mem_attachWords hp⟩
  ready := by simpa using expand_ready h.legal (fun _ ha => ha) (linitList s.cfg)

/-- The events of the register accesses of an attach: the MAP entries', the CFGOUT entries' `ev`, the primitives'. -/
def AttachPlan.events (P : AttachPlan) (c : Config) (ev : List Event) : List Event :=
  P.words.map (fun a => Event.map a true) ++ ev ++ P.prims.map (Prim.event c .init)

/-- The display takes what the primitives make it take. -/
theorem latchedNibbles_attach {s : State} {P : AttachPlan} {m : Memory} {ev : List Event} (h : s.Configures P.pins m ev)
    (draw : Nat) :
    latchedNibbles s.cfg draw (P.events s.cfg ev) s.latch =
      latchedNibbles s.cfg draw (P.prims.map (Prim.event s.cfg .init)) s.latch := by
  rw [latchedNibbles, AttachPlan.events, List.append_assoc, nibblesFrom_maps, h.silent _ _ _ (stillHeld_stillHeld ..)]
  rfl

theorem afterAttach_eq (P : AttachPlan) (m : Memory) (ev : List Event) (turns : List Turn) (s : State) :
    s.afterAttach P m ev turns = { s with
      schedule := turns
      agent := .init
      phase := .run
      initRunning := false
      initPc := P.list.length
      timerArmed := true
      mapped := P.words
      mem := m
      latch := latchAfter s.cfg P.prims s.latch
      trace := s.trace ++ P.events s.cfg ev ++ [.timerArm 500000000, .status 0x01 (.ok none)] } := by
  simp [State.afterAttach, State.finishAttach, State.armTimer, State.endWith, State.emit, State.attachDriven,
    State.afterPrims, State.attachConfigured, State.attachMapped, AttachPlan.events, blinkPeriodNs, Instr.opcode]

section AfterAttach

variable {s : State} {P : AttachPlan} {m : Memory} {ev : List Event} (h : s.Configures P.pins m ev) (turns : List Turn)
  {p : Nat} (hp : p < s.cfg.nPins)

theorem level_afterAttach : (s.afterAttach P m ev turns).level p = levelOf (latchAfter s.cfg P.prims s.latch) p := by
  rw [State.level, afterAttach_eq]

include h hp

theorem fselField_afterAttach :
    (s.afterAttach P m ev turns).fselField p = if p ∈ P.pins then s.cfg.fselOutput else s.fselField p :=
  (fselField_congr (by rw [afterAttach_eq]) (by rw [afterAttach_eq]) p).trans (h.fields p hp)

/-- A configured pin's pad drives its latch (10_state.md R37). -/
theorem pad_afterAttach (hpin : p ∈ P.pins) :
    (s.afterAttach P m ev turns).pad p = .driven ((s.afterAttach P m ev turns).level p) := by
  have hcfg : (s.afterAttach P m ev turns).cfg = s.cfg := by rw [afterAttach_eq]
  rw [State.pad, hcfg, fselField_afterAttach h turns hp, if_pos hpin, if_pos rfl]

end AfterAttach

theorem linitBytes_length (c : Config) : (linitBytes c).length = 5 + c.placeholder.length := by
  rw [linitBytes, List.length_append, List.length_map]
  rfl

/-- Settles O40: the attach runs its plan (`run_attach`). The CFGOUT entries leave the fields (`State.Configures`) and send
the display nothing; what the initialisation sends from either level of E is `latchedNibbles_linit`. -/
theorem attachCompletes : Obligations.AttachCompletes := by
  unfold Obligations.AttachCompletes
  intro s rest h hi hpc hum hs
  have hm : s.mapped = [] := by rw [h.init_mapped hi, hpc, List.take_zero]
  obtain ⟨m, ev, hconf, hrun⟩ := run_attach (h.runs_attachPlan hi hum) rest hpc hm
    (by simpa using attachWords_length_pos s.cfg) (by simpa using hs)
  rw [attachPlan_list] at hrun
  have hpins := attachPlan_pins s.cfg
  refine ⟨_, (attachPlan s.cfg).events s.cfg ev, hrun, ?_, fun p hp => ?_, fun p hp hne => ?_, fun p hp hne => ?_, ?_,
    fun draw => ⟨(linitBytes s.cfg).flatMap nibblesOfByte, ?_, ?_, pairNibbles_bytes _⟩⟩
  · rw [afterAttach_eq, attachPlan_list, attachPlan_words]
  · have hlt := h.legal.pins_lt p hp
    rw [← hpins] at hp
    exact ⟨(fselField_afterAttach hconf rest hlt).trans (if_pos hp), pad_afterAttach hconf rest hlt hp⟩
  · rw [← hpins] at hne
    exact (fselField_afterAttach hconf rest hp).trans (if_neg hne)
  · rw [level_afterAttach, attachPlan_prims]
    exact levelOf_prims_other h.legal (expand_drivesDisplay s.cfg (linitList s.cfg)) hp hne s.latch
  · rw [level_afterAttach, attachPlan_prims]
    exact (latchedNibbles_linit h.legal .init 0 s.latch).2
  · rw [latchedNibbles_attach hconf, attachPlan_prims]
    exact (latchedNibbles_linit h.legal .init draw s.latch).1
  · rw [nibblesOfByte_length, linitBytes_length]

end Sys2Proof.Machine

/-! PROOFS. Exceptions and steps (60_exceptions.md): what one turn runs, a MapError inside an attach, runs that never stop,
and the transitions of the phase. -/

namespace Sys2Proof.Machine

/-! ## Runs that never stop (R306 to R310, R328) -/

/-- Settles O54, by induction on the number of steps: a step from the invariant goes through and keeps it
(`step_keeps_inv`). -/
theorem neverStops : Obligations.NeverStops := by
  unfold Obligations.NeverStops SafeFrom
  intro s h k
  induction k generalizing s with
  | zero => exact ⟨s, run_zero s⟩
  | succ k ih =>
    obtain ⟨u, hu, hinv⟩ := step_keeps_inv h
    rw [run_succ hu]
    exact ih u hinv

/-! ## What one turn runs (R319, R345) -/

/-- The command port runs a word that decodes to an instruction of port class H. -/
theorem hostTurn_of_decodes {op : Byte} {operands : List Byte} {i : Instr} (hd : decodeWhole op operands = .ok i)
    (hp : i.port = .host) (s : State) : hostTurn op operands s = exec i s := by simp [hostTurn, hd, hp]

theorem initTurn_idle {s : State} (hi : s.initRunning = false) : initTurn s = .next s := by simp [initTurn, hi]

section Attaching

variable {s : State} (hi : s.initRunning = true)

include hi

theorem initTurn_op {i : Instr} (he : s.initSeq[s.initPc]? = some (.op i)) :
    initTurn s = exec i { s with initPc := s.initPc + 1 } := by simp [initTurn, hi, he]

theorem initTurn_finish (he : s.initSeq[s.initPc]? = some .finish) :
    initTurn s = .next (State.finishAttach { s with initPc := s.initPc + 1 }) := by simp [initTurn, hi, he]

end Attaching

/-- Settles O5: the word goes to the command port with HOST as the agent, and the port runs what it decodes to. -/
theorem stepRunsDecodedWord : Obligations.StepRunsDecodedWord := by
  unfold Obligations.StepRunsDecodedWord
  intro s op operands rest i hs hd hp
  rw [step_of_schedule hs]
  exact hostTurn_of_decodes hd hp _

/-- Settles O6: INIT's turn goes by the attach and its entry, every other agent's turn is its own operation, and without a
schedule the turn is a free one. -/
theorem stepRunsAgentTurn : Obligations.StepRunsAgentTurn := by
  unfold Obligations.StepRunsAgentTurn
  refine ⟨fun s rest i hs hi he => step_of_init hs hi he, fun s rest hs hi he => ?_,
    fun s rest hs hi => (step_of_schedule hs).trans (initTurn_idle hi), fun s rest hs => step_of_schedule hs,
    fun s rest hs => step_of_schedule hs, fun s rest hs => step_of_schedule hs, fun s rest hs => step_of_schedule hs,
    fun s rest hs => step_of_schedule hs, fun s hs => ?_⟩
  · rw [step_of_finish hs hi he]
    simp [State.finishAttach, State.armTimer, State.endWith, State.emit, blinkPeriodNs, Instr.opcode]
  · simp [step, State.nextTurn, State.popTurn, hs]

/-! ## A MapError inside an attach (R302, R326) -/

/-- A MAP inside an attach that finds its address misaligned or not mappable unwinds the attach. -/
theorem exec_map_aborts {s : State} {a : Word} (hi : s.initRunning = true)
    (cause : a.toNat % 4 ≠ 0 ∨ (a ∉ s.mapped ∧ a ∈ s.cfg.unmappable)) :
    exec (.map a) s = .next ((s.emit (.map a false)).abortAttach a) := by
  have failed : mapWord a s = .next (s.raiseMapError a) := by
    by_cases h4 : a.toNat % 4 = 0
    · obtain ⟨ha, hu⟩ := cause.resolve_left (not_not.mpr h4)
      exact mapWord_unmappable h4 ha hu
    · exact mapWord_misaligned h4
  rw [exec, execMap, failed, State.raiseMapError]
  exact congrArg _ (if_pos hi)

/-- Settles O10: the failing MAP leaves its event and then `State.abortAttach`. -/
theorem attachMapErrorUnwinds : Obligations.AttachMapErrorUnwinds := by
  unfold Obligations.AttachMapErrorUnwinds
  intro s a hi cause
  rw [exec_map_aborts hi cause]
  simp [State.abortAttach, State.emit, State.endWith, Instr.opcode]

/-! ## The phase (R337) -/

/-- A MAP that goes through has not found its address mapped, so an address that is not mappable is a MapError. -/
theorem phase_of_unmappable {s t : State} {a : Word} (hi : s.initRunning = true) (hu : a ∈ s.cfg.unmappable)
    (ht : exec (.map a) s = .next t) : t.phase = .failed := by
  have unmapped (h4 : a.toNat % 4 = 0) : a ∉ s.mapped := fun ha => nomatch (mapWord_mapped h4 ha).symm.trans ht
  have cause : a.toNat % 4 ≠ 0 ∨ (a ∉ s.mapped ∧ a ∈ s.cfg.unmappable) :=
    or_iff_not_imp_left.mpr fun h4 => ⟨unmapped (not_not.mp h4), hu⟩
  rw [exec_map_aborts hi cause] at ht
  cases ht
  rfl

/-- Where the phase changes, the turn is a reset, an attach's finish or its MapError, an accepted DETACH or the
teardown. -/
theorem Effect.phase_change {s t : State} {turn : Turn} (e : Effect s turn t) (hne : t.phase ≠ s.phase) :
    turn = .reset ∨
    (turn = .run .init ∧ s.initRunning = true ∧ s.phase = .reset ∧ s.initSeq[s.initPc]? = some .finish ∧
      t.phase = .run) ∨
    (turn = .run .init ∧ s.initRunning = true ∧ s.phase = .reset ∧ t.phase = .failed ∧
      ∃ a, s.initSeq[s.initPc]? = some (.op (.map a)) ∧ t.trace.getLast? = some (.status 0x01 (.mapError a))) ∨
    (turn = .command 0x04 [] ∧ s.phase = .run ∧ t.phase = .cancelled) ∨
    (turn = .run .teardown ∧ s.phase = .cancelled ∧ t.phase = .detached) := by
  cases e with
  | reset => exact .inl rfl
  | finish hi hp he => exact .inr (.inl ⟨rfl, hi, hp, he, rfl⟩)
  | mapError a hi hp he => exact .inr (.inr (.inl ⟨rfl, hi, hp, rfl, a, he, List.getLast?_concat⟩))
  | detach hp => exact .inr (.inr (.inr (.inl ⟨rfl, hp, rfl⟩)))
  | teardown hp => exact .inr (.inr (.inr (.inr ⟨rfl, hp, rfl⟩)))
  | status | attach | pass | mapped | configured | initPrim | pulseStart | pulsePrim | redrawStart | redrawPrim =>
    exact absurd rfl hne
  | temperature => exact absurd (State.evalAlarm_phase _) hne
  | humidity => exact absurd (State.scheduleRedraw_phase _) hne
  | tick => exact absurd (State.rearmTimer_phase _) hne
  | pulseEnd => exact absurd (State.evalAlarm_phase _) hne

section Transitions

variable {s t : State} (ht : step s = .next t)

include ht

theorem takeTurn_of_step {turn : Turn} (hn : s.nextTurn = turn) : takeTurn turn s.popTurn = .next t := hn ▸ ht

theorem phase_of_reset_turn (hn : s.nextTurn = .reset) : t.phase = .reset := by
  cases takeTurn_of_step ht hn
  rfl

theorem phase_of_finish_turn (hn : s.nextTurn = .run .init) (hi : s.initRunning = true)
    (he : s.initSeq[s.initPc]? = some .finish) : t.phase = .run := by
  have finish := initTurn_finish (s := s.popTurn.withAgent .init) (by simpa using hi) (by simpa using he)
  cases finish.symm.trans (takeTurn_of_step ht hn)
  rfl

theorem phase_of_unmappable_turn (hn : s.nextTurn = .run .init) (hi : s.initRunning = true) {a : Word}
    (he : s.initSeq[s.initPc]? = some (.op (.map a))) (hu : a ∈ s.cfg.unmappable) : t.phase = .failed := by
  have entry := initTurn_op (s := s.popTurn.withAgent .init) (by simpa using hi) (by simpa using he)
  exact phase_of_unmappable (by simpa using hi) (by simpa using hu) (entry.symm.trans (takeTurn_of_step ht hn))

theorem phase_of_detach_turn (hn : s.nextTurn = .command 0x04 []) (hp : s.phase = .run) : t.phase = .cancelled := by
  have accepted := exec_detach_of_run (s := s.popTurn.withAgent .host) (by simpa using hp)
  have cancels := (hostTurn_of_decodes (op := 0x04) (operands := []) rfl rfl _).trans accepted
  cases cancels.symm.trans (takeTurn_of_step ht hn)
  rfl

theorem phase_of_teardown_turn (h : s.Inv) (hn : s.nextTurn = .run .teardown) (hp : s.phase = .cancelled)
    (ha : s.alarmRunning = false) (hr : s.redrawRunning = false) : t.phase = .detached := by
  have hm := h.mapped_active (.inr hp)
  have unmapped := teardown (s.popTurn.withAgent .teardown) (by simpa using hp) (by simpa using ha) (by simpa using hr)
    (by simpa using hm)
  cases unmapped.symm.trans (takeTurn_of_step ht hn)
  rfl

end Transitions

/-- Settles O55: each named turn leads to its phase, and no effect of another turn changes the phase
(`Effect.phase_change`). -/
theorem phaseTransitions : Obligations.PhaseTransitions := by
  unfold Obligations.PhaseTransitions
  intro s t h ht
  refine ⟨phase_of_reset_turn ht, fun hn hi he => ⟨h.init_reset hi, phase_of_finish_turn ht hn hi he⟩,
    fun hn hi a he hu => ⟨h.init_reset hi, phase_of_unmappable_turn ht hn hi he hu⟩, phase_of_detach_turn ht,
    phase_of_teardown_turn ht h, fun hne => ?_⟩
  have change := (step_effect h ht).phase_change (by simpa using hne)
  simpa only [State.popTurn_phase, State.popTurn_initRunning, State.popTurn_initSeq, State.popTurn_initPc] using change

end Sys2Proof.Machine
